-- ==== Sys2Proof/Word.lean ====
section
/-! DEFINITION. The two word types of QRE: the byte (a buffer byte, a codeword, an element of GF(256))
and the 32-bit word (a register, a bus address offset, bus data): 10_state.md R23, 20_memory.md R72. -/

namespace Sys2Proof

/-- One byte: a buffer byte, a codeword (00_scope.md R14) or an element of GF(256) (42_rs_ecc.md R170). -/
abbrev Byte := BitVec 8

/-- A 32-bit register, bus offset or bus data word (10_state.md R23, 92_eei_decisions.md D3). -/
abbrev Word := BitVec 32

end Sys2Proof
end

