-- ==== Sys2Proof/Syntax.lean ====
section
/-! DEFINITION. The instructions: one constructor per row of spec/opcode_table.json, in its order.  The
first sixteen are the command words (30_encoding.md R100, R101): a 32-bit write of the word to CMD.  The
last six are the bus transactions a host program is made of (R103). -/

namespace Sys2Proof

/-- An instruction of QRE.  A command word has no operand (R100, R104: every operand of a command is a
register or buffer); a bus transaction has an offset from QRE_BASE and, for a write, its data word. -/
inductive Instr where
  /-- OPCODE 0x0: no operation (40_host_bus.md R138). -/
  | nop
  /-- OPCODE 0x1: the bit-stream packer (41_packer.md R157). -/
  | pack
  /-- OPCODE 0x2: the Reed-Solomon coder and interleaver (42_rs_ecc.md R186). -/
  | ecc
  /-- OPCODE 0x3: the symbol assembler (43_assembler.md R229). -/
  | place
  /-- OPCODE 0x4: the mask evaluator and selector (44_mask.md R259). -/
  | mask
  /-- OPCODE 0x5: PACK, ECC, PLACE and MASK in one completion step (45_encode_render.md R280). -/
  | encode
  /-- OPCODE 0x6: matrix-to-vector (45_encode_render.md R291). -/
  | vector
  /-- OPCODE 0x7: standalone Reed-Solomon parity of one block (42_rs_ecc.md R191). -/
  | rs
  /-- OPCODE 0x8, reserved: ILLEGAL_COMMAND (40_host_bus.md R139). -/
  | reserved8
  /-- OPCODE 0x9, reserved: ILLEGAL_COMMAND (R139). -/
  | reserved9
  /-- OPCODE 0xA, reserved: ILLEGAL_COMMAND (R139). -/
  | reservedA
  /-- OPCODE 0xB, reserved: ILLEGAL_COMMAND (R139). -/
  | reservedB
  /-- OPCODE 0xC, reserved: ILLEGAL_COMMAND (R139). -/
  | reservedC
  /-- OPCODE 0xD, reserved: ILLEGAL_COMMAND (R139). -/
  | reservedD
  /-- OPCODE 0xE, reserved: ILLEGAL_COMMAND (R139). -/
  | reservedE
  /-- OPCODE 0xF: cancel the pending command (40_host_bus.md R135). -/
  | abort
  /-- DESC 0x0: 1-byte bus read (40_host_bus.md R130). -/
  | r8 (addr : Word)
  /-- DESC 0x1: 2-byte bus read (R130). -/
  | r16 (addr : Word)
  /-- DESC 0x2: 4-byte bus read (R130). -/
  | r32 (addr : Word)
  /-- DESC 0x8: 1-byte bus write of the low byte of `wdata` (40_host_bus.md R131). -/
  | w8 (addr : Word) (wdata : Word)
  /-- DESC 0x9: 2-byte bus write of the low two bytes of `wdata` (R131). -/
  | w16 (addr : Word) (wdata : Word)
  /-- DESC 0xA: 4-byte bus write of `wdata` (R131). -/
  | w32 (addr : Word) (wdata : Word)
deriving DecidableEq, Repr

end Sys2Proof
end

