-- ==== Sys2Proof/WellFormed.lean ====
section
/-! DEFINITION. Well-formedness of an instruction as syntax.  The one check: the data of a narrow write
fits the byte lanes its write strobe covers (20_memory.md R72, R76).  Alignment and mapping are no part
of it: a misaligned or unmapped transaction is a legal transaction that ends in a bus error (R75). -/

namespace Sys2Proof

/-- Does the instruction's data fit the lanes it uses?  R72: "The write strobe covers exactly the n bytes." -/
def Instr.wf : Instr → Bool
  | .nop | .pack | .ecc | .place | .mask | .encode | .vector | .rs => true
  | .reserved8 | .reserved9 | .reservedA | .reservedB | .reservedC | .reservedD | .reservedE => true
  | .abort => true
  | .r8 _ | .r16 _ | .r32 _ => true
  | .w8 _ wdata => decide (wdata.toNat < 256)
  | .w16 _ wdata => decide (wdata.toNat < 65536)
  | .w32 _ _ => true

end Sys2Proof
end

