-- ==== Sys2Proof/Decode.lean ====
section
/-! DEFINITION. Decoding and encoding.  An instruction stands in the model as the bytes of one of two
forms, told apart by their length: a command word is 4 bytes (30_encoding.md R100), a bus descriptor is
9 bytes (R103: DESC, then ADDR, then WDATA).  Words are little-endian (20_memory.md R76).  The layout of a
descriptor as bytes is the model's own (assumption log 5). -/

namespace Sys2Proof

/-- The four bytes of a word, lowest address first (20_memory.md R76). -/
def bytesOfWord (w : Word) : List Byte :=
  [w.extractLsb' 0 8, w.extractLsb' 8 8, w.extractLsb' 16 8, w.extractLsb' 24 8]

/-- The word whose bytes, lowest address first, are `b0 b1 b2 b3` (20_memory.md R76). -/
def wordOfBytes (b0 b1 b2 b3 : Byte) : Word :=
  b0.setWidth 32 ||| b1.setWidth 32 <<< 8 ||| b2.setWidth 32 <<< 16 ||| b3.setWidth 32 <<< 24

/-- The low `n` bytes of a number, least significant first. -/
def bytesOfNat (n w : Nat) : List Byte :=
  (List.range n).map fun i => BitVec.ofNat 8 (w >>> (8 * i))

/-- OPCODE, the only field of a command word (30_encoding.md R100). -/
def opcodeOf (w : Word) : BitVec 4 := w.extractLsb' 0 4

/-- The command of an OPCODE value (30_encoding.md R101: every value is listed). -/
def commandOf (op : BitVec 4) : Instr :=
  match op.toNat with
  | 0x0 => .nop
  | 0x1 => .pack
  | 0x2 => .ecc
  | 0x3 => .place
  | 0x4 => .mask
  | 0x5 => .encode
  | 0x6 => .vector
  | 0x7 => .rs
  | 0x8 => .reserved8
  | 0x9 => .reserved9
  | 0xA => .reservedA
  | 0xB => .reservedB
  | 0xC => .reservedC
  | 0xD => .reservedD
  | 0xE => .reservedE
  | _ => .abort

/-- Decoding a command word is total, and bits [31:4] are ignored (30_encoding.md R100, R114). -/
def decodeCommand (w : Word) : Instr := commandOf (opcodeOf w)

/-- Decoding a bus descriptor (30_encoding.md R103).  SZ = 3 and DESC[2] = 1 are no transaction, and a
descriptor byte has no bit above DESC[3]: each is refused.  A read ignores WDATA; a narrow write keeps the
lanes its strobe covers. -/
def decodeBus (desc : Byte) (addr wdata : Word) : Option Instr :=
  match desc.toNat with
  | 0x0 => some (.r8 addr)
  | 0x1 => some (.r16 addr)
  | 0x2 => some (.r32 addr)
  | 0x8 => some (.w8 addr (wdata &&& 0x000000FF#32))
  | 0x9 => some (.w16 addr (wdata &&& 0x0000FFFF#32))
  | 0xA => some (.w32 addr wdata)
  | _ => none

/-- The decoder, total on any bytes: four bytes are a command word, nine bytes a bus descriptor, and
nothing else is an instruction. -/
def decode : List Byte → Option Instr
  | [b0, b1, b2, b3] => some (decodeCommand (wordOfBytes b0 b1 b2 b3))
  | [d, a0, a1, a2, a3, w0, w1, w2, w3] =>
    decodeBus d (wordOfBytes a0 a1 a2 a3) (wordOfBytes w0 w1 w2 w3)
  | _ => none

/-- A command word with its ignored bits zero. -/
def encodeCommand (op : BitVec 4) : List Byte := bytesOfWord (op.setWidth 32)

/-- A bus descriptor as bytes: DESC, ADDR, WDATA. -/
def encodeBus (desc : BitVec 4) (addr wdata : Word) : List Byte :=
  desc.setWidth 8 :: (bytesOfWord addr ++ bytesOfWord wdata)

/-- The encoder: the bytes of an instruction, from the tables of 30_encoding.md R101 and R103. -/
def encode : Instr → List Byte
  | .nop => encodeCommand 0x0#4
  | .pack => encodeCommand 0x1#4
  | .ecc => encodeCommand 0x2#4
  | .place => encodeCommand 0x3#4
  | .mask => encodeCommand 0x4#4
  | .encode => encodeCommand 0x5#4
  | .vector => encodeCommand 0x6#4
  | .rs => encodeCommand 0x7#4
  | .reserved8 => encodeCommand 0x8#4
  | .reserved9 => encodeCommand 0x9#4
  | .reservedA => encodeCommand 0xA#4
  | .reservedB => encodeCommand 0xB#4
  | .reservedC => encodeCommand 0xC#4
  | .reservedD => encodeCommand 0xD#4
  | .reservedE => encodeCommand 0xE#4
  | .abort => encodeCommand 0xF#4
  | .r8 addr => encodeBus 0x0#4 addr 0#32
  | .r16 addr => encodeBus 0x1#4 addr 0#32
  | .r32 addr => encodeBus 0x2#4 addr 0#32
  | .w8 addr wdata => encodeBus 0x8#4 addr wdata
  | .w16 addr wdata => encodeBus 0x9#4 addr wdata
  | .w32 addr wdata => encodeBus 0xA#4 addr wdata

/-- The bytes of the instruction whose bits, numbered as spec/opcode_table.json numbers them, are the low
`nbits` bits of `w`, every higher bit zero.  The table gives a command row 32 bits, the whole command word,
and a bus row only DESC, whose ADDR and WDATA are then zero.  A shorter word that no bus row has is the
beginning of a command word (assumption log 5). -/
def tableBytes (nbits w : Nat) : List Byte :=
  if nbits = 32 ∨ (decode (bytesOfNat 9 (w % 2 ^ nbits))).isNone then
    bytesOfNat 4 (w % 2 ^ nbits)
  else
    bytesOfNat 9 (w % 2 ^ nbits)

/-- What the decoder reads from the instruction word `w` of an opcode-table row of `nbits` bits. -/
def decodeTableWord (nbits w : Nat) : Option Instr := decode (tableBytes nbits w)

end Sys2Proof
end

