-- ==== Sys2Proof/Config.lean ====
section
/-! DEFINITION. The free values: what the spec calls `unspecified`, "a value the model draws freely under
no law" (00_scope.md R11).  Each is a constant with no body, applied to the index of the draw, so that no
proof can lean on a value of it.  The QR standard's tables, which are configuration too (R8), stand in
Machine/Tables.lean with the default values the spec states. -/

namespace Sys2Proof

/-- The byte that draw `draw` gave the buffer byte at bus offset `offset` (70_reset_and_hazards.md R341:
contents after reset; 40_host_bus.md R135: contents after ABORT).  Assumption log 1. -/
opaque Config.unspecifiedByte (draw offset : Nat) : Byte

/-- The register contents that draw `draw` gave the register at bus offset `offset` when ABORT of a
command left it unspecified (40_host_bus.md R135, R136).  Assumption log 2. -/
opaque Config.unspecifiedRegister (draw offset : Nat) : Word

/-- The data of the `draw`-th bus read that touched a volatile location while BUSY
(70_reset_and_hazards.md R350).  Assumption log 3. -/
opaque Config.unspecifiedReadData (draw : Nat) : Word

end Sys2Proof
end

