-- ==== Sys2Proof/Machine/State.lean ====
section
/-! DEFINITION. The state of QRE as plain data (10_state.md R20), the reasons a step can stop, and the
state after reset (70_reset_and_hazards.md R340).  The last three fields are the model's own. -/

namespace Sys2Proof.Machine

/-- Stored bytes by offset, strictly rising: a listed offset holds what was last written there, and an
unlisted offset holds what the last draw gave it (70_reset_and_hazards.md R341). -/
abbrev Memory := List Host.Cell

/-- The canonical form of a memory: offsets strictly rising, so that no offset is listed twice.  An
unlisted offset reads as no stored byte, which no entry equals. -/
abbrev Memory.wf (m : Memory) : Prop := m.Pairwise fun x y => x.1 < y.1

/-- A buffer: the bytes written since its contents were last left unspecified, and the index of the draw
that gives the others (10_state.md R48-R55, 70_reset_and_hazards.md R341, 40_host_bus.md R135). -/
structure Buffer where
  cells : Memory
  draw : Nat
deriving DecidableEq, Repr

/-- STATUS, field by field (10_state.md R24).  Its reserved bits read 0 and are no state. -/
structure Status where
  busy : Bool
  done : Bool
  error : Bool
  aborted : Bool
  errcode : BitVec 4
  errstage : BitVec 3
  vPack : Bool
  vEcc : Bool
  vPlace : Bool
  vMask : Bool
  vVec : Bool
  wrIgnored : Bool
deriving DecidableEq, Repr

/-- IRQ_EN: the two interrupt enables (10_state.md R27). -/
structure IrqEnable where
  doneIE : Bool
  errIE : Bool
deriving DecidableEq, Repr

/-- IRQ_PEND: the two pending bits (10_state.md R28). -/
structure IrqPending where
  doneP : Bool
  errP : Bool
deriving DecidableEq, Repr

/-- CONFIG: the requested level and the quiet-zone width (10_state.md R29). -/
structure ConfigReg where
  level : BitVec 2
  qz : BitVec 4
deriving DecidableEq, Repr

/-- SYMBOL: version, level and mask of the symbol (10_state.md R33). -/
structure SymbolReg where
  version : BitVec 6
  level : BitVec 2
  mask : BitVec 3
deriving DecidableEq, Repr

/-- RS_PARAM: the data and parity byte counts of the RS command (10_state.md R39). -/
structure RsParam where
  k : BitVec 8
  e : BitVec 8
deriving DecidableEq, Repr

/-- PENALTY0..PENALTY7 (10_state.md R45). -/
structure Penalties where
  p0 : Word
  p1 : Word
  p2 : Word
  p3 : Word
  p4 : Word
  p5 : Word
  p6 : Word
  p7 : Word
deriving DecidableEq, Repr

/-- PEN_N1..PEN_N4 (10_state.md R46). -/
structure PenaltyTerms where
  n1 : Word
  n2 : Word
  n3 : Word
  n4 : Word
deriving DecidableEq, Repr

/-- The response to a bus transaction: `err`, and the data of a read (20_memory.md R75, 40_host_bus.md
R130, R131). -/
structure Response where
  err : Bool
  data : Word
deriving DecidableEq, Repr

/-- One step of the run, as the outside schedules it (00_scope.md R9): a HOST step, given as the bytes of
its instruction; the ENGINE's turn; or the reset input (70_reset_and_hazards.md R340). -/
inductive Turn where
  | host (bytes : List Byte)
  | engine
  | reset
deriving DecidableEq, Repr

/-- A reason to stop with a fault.  There is none: a bus error is a response that changes no state
(20_memory.md R75), and an error of a command is an error end, after which QRE goes on (60_exceptions.md
R314).  No step raises one: safe. -/
inductive Fault : Type
deriving DecidableEq, Repr

/-- A reason to refuse an instruction. -/
inductive Refusal where
  /-- Raised by exec for an instruction that has no meaning in the model yet: safe.  No arm does. -/
  | notModelled (mnemonic : String)
  /-- Raised by step for a HOST turn whose bytes are no instruction: SZ = 3, DESC[2] = 1 or a length that
  neither form has.  30_encoding.md R103: "the bus cannot present it, and a model refuses it".  Safe. -/
  | notATransaction
deriving DecidableEq, Repr

/-- The complete state (10_state.md R20), then the model's own three fields. -/
structure State where
  /-- LAST_OP, the opcode of the last accepted command; CMD reads it back (R25, R56). -/
  lastOp : BitVec 4
  /-- STATUS (R24). -/
  status : Status
  /-- IRQ_EN (R27). -/
  irqEn : IrqEnable
  /-- IRQ_PEND (R28). -/
  irqPend : IrqPending
  /-- CONFIG (R29). -/
  config : ConfigReg
  /-- IN_LEN.LEN (R30). -/
  inLen : BitVec 12
  /-- JOB_TAG (R31). -/
  jobTag : Word
  /-- RESULT_TAG (R32). -/
  resultTag : Word
  /-- SYMBOL (R33). -/
  symbol : SymbolReg
  /-- DATA_COUNT (R34). -/
  dataCount : BitVec 12
  /-- CW_COUNT (R35). -/
  cwCount : BitVec 12
  /-- MSIDE (R36). -/
  mside : BitVec 8
  /-- FORMAT_BITS (R37). -/
  formatBits : BitVec 15
  /-- VERSION_BITS (R38). -/
  versionBits : BitVec 18
  /-- RS_PARAM (R39). -/
  rsParam : RsParam
  /-- VEC_COUNT (R40). -/
  vecCount : BitVec 16
  /-- VEC_EXTENT (R41). -/
  vecExtent : BitVec 8
  /-- RASTER_SIZE.S (R42). -/
  rasterSize : BitVec 13
  /-- COLOR_DARK.RGB (R43). -/
  colorDark : BitVec 24
  /-- COLOR_LIGHT.RGB (R44). -/
  colorLight : BitVec 24
  /-- PENALTY0..PENALTY7 (R45). -/
  penalty : Penalties
  /-- PEN_N1..PEN_N4 (R46). -/
  penTerms : PenaltyTerms
  /-- INBUF (R48). -/
  inbuf : Buffer
  /-- DATACW (R49). -/
  datacw : Buffer
  /-- FINALCW (R50). -/
  finalcw : Buffer
  /-- RSOUT (R51). -/
  rsout : Buffer
  /-- FUNCMAP (R52), as the bytes of its window (30_encoding.md R110). -/
  funcmap : Buffer
  /-- PLACED (R53), as the bytes of its window. -/
  placed : Buffer
  /-- MATRIX (R54), as the bytes of its window. -/
  matrix : Buffer
  /-- VECBUF (R55). -/
  vecbuf : Buffer
  /-- PENDING_OP, meaningful only while BUSY (R56). -/
  pendingOp : BitVec 4
  /-- PENDING_TAG (R56). -/
  pendingTag : Word
  /-- The model's own: the coming steps of the run, the next one first (00_scope.md R9; log 4). -/
  turns : List Turn
  /-- The model's own: the response to the last bus transaction, QRE's output port (log 6). -/
  resp : Response
  /-- The model's own: the index of the next draw of an unspecified value (log 1). -/
  nextDraw : Nat
deriving DecidableEq, Repr

/-- A buffer none of whose bytes has been written since draw `draw` (70_reset_and_hazards.md R341). -/
def Buffer.unspecified (draw : Nat) : Buffer := { cells := [], draw := draw }

/-- STATUS after reset: 0x0000_0000 (70_reset_and_hazards.md R340). -/
def Status.reset : Status :=
  { busy := false, done := false, error := false, aborted := false, errcode := 0#4, errstage := 0#3,
    vPack := false, vEcc := false, vPlace := false, vMask := false, vVec := false, wrIgnored := false }

/-- The state right after reset (70_reset_and_hazards.md R340, R341): every register at the value the rule
gives, every buffer unspecified.  No turn is scheduled, and the first draw is taken by the buffers. -/
def State.reset : State :=
  { lastOp := 0#4
    status := Status.reset
    irqEn := { doneIE := false, errIE := false }
    irqPend := { doneP := false, errP := false }
    config := { level := 1#2, qz := 4#4 }
    inLen := 0#12
    jobTag := 0#32
    resultTag := 0#32
    symbol := { version := 0#6, level := 1#2, mask := 0#3 }
    dataCount := 0#12
    cwCount := 0#12
    mside := 0#8
    formatBits := 0#15
    versionBits := 0#18
    rsParam := { k := 0#8, e := 0#8 }
    vecCount := 0#16
    vecExtent := 0#8
    rasterSize := 0x100#13
    colorDark := 0x000000#24
    colorLight := 0xFFFFFF#24
    penalty := { p0 := 0#32, p1 := 0#32, p2 := 0#32, p3 := 0#32, p4 := 0#32, p5 := 0#32, p6 := 0#32, p7 := 0#32 }
    penTerms := { n1 := 0#32, n2 := 0#32, n3 := 0#32, n4 := 0#32 }
    inbuf := Buffer.unspecified 0
    datacw := Buffer.unspecified 0
    finalcw := Buffer.unspecified 0
    rsout := Buffer.unspecified 0
    funcmap := Buffer.unspecified 0
    placed := Buffer.unspecified 0
    matrix := Buffer.unspecified 0
    vecbuf := Buffer.unspecified 0
    pendingOp := 0#4
    pendingTag := 0#32
    turns := []
    resp := { err := false, data := 0#32 }
    nextDraw := 1 }

end Sys2Proof.Machine
end

