-- ==== Sys2Proof/Machine/Flags.lean ====
section
/-! DEFINITION. The flags (10_state.md R58): the STATUS word (R24), the rows of the stage-valid table (R57),
the IRQ words (R27, R28) and the interrupt output (60_exceptions.md R318). -/

namespace Sys2Proof.Machine

/-- A flag at bit `i` of a 32-bit register. -/
def flagBit (b : Bool) (i : Nat) : Word := if b then 1#32 <<< i else 0#32

/-- The STATUS word, reserved bits 0 (10_state.md R24). -/
def Status.word (st : Status) : Word :=
  flagBit st.busy 0 ||| flagBit st.done 1 ||| flagBit st.error 2 ||| flagBit st.aborted 3
    ||| st.errcode.setWidth 32 <<< 8 ||| st.errstage.setWidth 32 <<< 12
    ||| flagBit st.vPack 16 ||| flagBit st.vEcc 17 ||| flagBit st.vPlace 18 ||| flagBit st.vMask 19
    ||| flagBit st.vVec 20 ||| flagBit st.wrIgnored 24

/-- The IRQ_EN word (10_state.md R27). -/
def IrqEnable.word (e : IrqEnable) : Word := flagBit e.doneIE 0 ||| flagBit e.errIE 1

/-- The IRQ_PEND word (10_state.md R28). -/
def IrqPending.word (p : IrqPending) : Word := flagBit p.doneP 0 ||| flagBit p.errP 1

/-- A write of `w` to IRQ_PEND: a 1 clears its bit, a 0 leaves it (10_state.md R28, W1C). -/
def IrqPending.clear (p : IrqPending) (w : Word) : IrqPending :=
  { doneP := p.doneP && !w.getLsbD 0, errP := p.errP && !w.getLsbD 1 }

/-- The interrupt output, a level computed from the state (60_exceptions.md R318). -/
def State.irq (s : State) : Bool :=
  (s.irqPend.doneP && s.irqEn.doneIE) || (s.irqPend.errP && s.irqEn.errIE)

/-- The row of the stage-valid table for an accepted host write to SYMBOL (10_state.md R57, R33). -/
def Status.symbolWritten (st : Status) : Status :=
  { st with vPack := false, vEcc := false, vPlace := false, vMask := false, vVec := false }

/-- The `PACK completes` row (10_state.md R57). -/
def Status.packCompletes (st : Status) : Status :=
  { st with vPack := true, vEcc := false, vPlace := false, vMask := false, vVec := false }

/-- The `ECC completes` row (10_state.md R57). -/
def Status.eccCompletes (st : Status) : Status :=
  { st with vEcc := true, vPlace := false, vMask := false, vVec := false }

/-- The `PLACE completes` row (10_state.md R57). -/
def Status.placeCompletes (st : Status) : Status :=
  { st with vPlace := true, vMask := false, vVec := false }

/-- The `MASK completes` row (10_state.md R57). -/
def Status.maskCompletes (st : Status) : Status := { st with vMask := true, vVec := false }

/-- The `VECTOR completes` row (10_state.md R57). -/
def Status.vectorCompletes (st : Status) : Status := { st with vVec := true }

/-- The error rows of the stage-valid table (10_state.md R57), by the ERRSTAGE code of the failing stage
(60_exceptions.md R311).  RS and a reserved opcode change no flag. -/
def Status.errorRow (stage : BitVec 3) (st : Status) : Status :=
  match stage.toNat with
  | 1 => { st with vPack := false, vEcc := false, vPlace := false, vMask := false, vVec := false }
  | 2 => { st with vEcc := false, vPlace := false, vMask := false, vVec := false }
  | 3 => { st with vPlace := false, vMask := false, vVec := false }
  | 4 => { st with vMask := false, vVec := false }
  | 5 => { st with vVec := false }
  | _ => st

/-- The stage whose error row ABORT of command `op` applies (40_host_bus.md R135: for ENCODE, PACK's). -/
def stageOfCommand (op : BitVec 4) : BitVec 3 :=
  match op.toNat with
  | 1 => 1#3
  | 2 => 2#3
  | 3 => 3#3
  | 4 => 4#3
  | 5 => 1#3
  | 6 => 5#3
  | 7 => 6#3
  | _ => 0#3

end Sys2Proof.Machine
end

