-- ==== Sys2Proof/Machine/Ops.lean ====
section
/-! DEFINITION. The named operations: memory and buffers, the bus response, command acceptance and
dispatch (40_host_bus.md R132-R134), the error end, which is QRE's exception entry (60_exceptions.md R314,
R322), its return (R323), completion (R137) and ABORT (R135, R136). -/

namespace Sys2Proof.Machine

/-! ## Memory -/

/-- The byte last written at offset `k`, if any. -/
def Memory.get? : Memory → Nat → Option Byte
  | [], _ => none
  | (a, b) :: m, k => if a = k then some b else Memory.get? m k

/-- The cells that hold the bytes `bs` from offset `a` up. -/
def Memory.cellsFrom (a : Nat) : List Byte → Memory
  | [] => []
  | b :: bs => (a, b) :: Memory.cellsFrom (a + 1) bs

/-- Write the bytes `bs` at offsets `a, a+1, …`: the cells below, the new ones, the cells above. -/
def Memory.write (m : Memory) (a : Nat) (bs : List Byte) : Memory :=
  m.filter (fun c => decide (c.1 < a)) ++ Memory.cellsFrom a bs
    ++ m.filter (fun c => decide (a + bs.length ≤ c.1))

/-! ## Buffers -/

/-- The eight buffers (10_state.md R48-R55). -/
inductive BufId where
  | inbuf
  | datacw
  | finalcw
  | rsout
  | funcmap
  | placed
  | matrix
  | vecbuf
deriving DecidableEq, Repr

/-- The bus offset of a buffer's window (20_memory.md R70). -/
def BufId.base : BufId → Nat
  | .inbuf => 0x1000
  | .datacw => 0x2000
  | .finalcw => 0x3000
  | .rsout => 0x4000
  | .funcmap => 0x6000
  | .placed => 0x8000
  | .matrix => 0xA000
  | .vecbuf => 0x10000

/-- The size of a buffer's window in bytes (20_memory.md R70). -/
def BufId.windowSize : BufId → Nat
  | .inbuf => 4096
  | .datacw => 4096
  | .finalcw => 4096
  | .rsout => 256
  | .funcmap => 8192
  | .placed => 8192
  | .matrix => 8192
  | .vecbuf => 131072

/-- Is the buffer one of the three bit matrices (10_state.md R52-R54)? -/
def BufId.isMatrix : BufId → Bool
  | .funcmap | .placed | .matrix => true
  | _ => false

/-- The size of a buffer's storage in bytes: a matrix stores 177 rows of 24 bytes, the bits of columns
177..191 among them (20_memory.md R79, 44_mask.md R256; assumption log 8). -/
def BufId.storedSize (b : BufId) : Nat := if b.isMatrix then 4248 else b.windowSize

/-- May the host write the buffer (20_memory.md R70)? -/
def BufId.hostWritable : BufId → Bool
  | .inbuf | .datacw | .finalcw => true
  | _ => false

/-- The buffer `b` of the state. -/
def State.buf (s : State) : BufId → Buffer
  | .inbuf => s.inbuf
  | .datacw => s.datacw
  | .finalcw => s.finalcw
  | .rsout => s.rsout
  | .funcmap => s.funcmap
  | .placed => s.placed
  | .matrix => s.matrix
  | .vecbuf => s.vecbuf

/-- Replace the buffer `b` of the state. -/
def State.setBuf (s : State) (b : BufId) (v : Buffer) : State :=
  match b with
  | .inbuf => { s with inbuf := v }
  | .datacw => { s with datacw := v }
  | .finalcw => { s with finalcw := v }
  | .rsout => { s with rsout := v }
  | .funcmap => { s with funcmap := v }
  | .placed => { s with placed := v }
  | .matrix => { s with matrix := v }
  | .vecbuf => { s with vecbuf := v }

/-- Byte `k` of a buffer whose window starts at `base`: the byte last written there, or the one the last
draw gave it (70_reset_and_hazards.md R341). -/
def Buffer.byte (base : Nat) (v : Buffer) (k : Nat) : Byte :=
  (Memory.get? v.cells k).getD (Config.unspecifiedByte v.draw (base + k))

/-- BUF[k] (00_scope.md R11): the stored byte `k` of buffer `b`. -/
def State.bufByte (s : State) (b : BufId) (k : Nat) : Byte := (s.buf b).byte b.base k

/-- BUF[k], BUF[k+1], …, `n` bytes. -/
def State.bufBytes (s : State) (b : BufId) (k n : Nat) : List Byte :=
  (List.range n).map fun i => s.bufByte b (k + i)

/-- BUF[k], BUF[k+1], … <- bs. -/
def State.writeBuf (s : State) (b : BufId) (k : Nat) (bs : List Byte) : State :=
  s.setBuf b { cells := Memory.write (s.buf b).cells k bs, draw := (s.buf b).draw }

/-- Byte `k` of a buffer's window as a read sees it: the offsets of a matrix window past its storage hold
nothing and always read 0 (20_memory.md R79). -/
def State.windowByte (s : State) (b : BufId) (k : Nat) : Byte :=
  if k < b.storedSize then s.bufByte b k else 0x00#8

/-! ## The bus response -/

/-- End a bus transaction without a bus error, with read data `data` (0 for a write). -/
def State.respond (s : State) (data : Word) : State := { s with resp := { err := false, data := data } }

/-- End a bus transaction with a bus error: err = 1, read data 0, no state of QRE changed
(20_memory.md R75). -/
def State.respondError (s : State) : State := { s with resp := { err := true, data := 0#32 } }

/-! ## Error codes (60_exceptions.md R310) -/

/-- PAYLOAD_TOO_LARGE. -/
def errPayloadTooLarge : BitVec 4 := 1#4
/-- ASSEMBLY_OVERFLOW. -/
def errAssemblyOverflow : BitVec 4 := 2#4
/-- ILLEGAL_COMMAND. -/
def errIllegalCommand : BitVec 4 := 3#4
/-- STAGE_ORDER. -/
def errStageOrder : BitVec 4 := 4#4
/-- BAD_PARAM. -/
def errBadParam : BitVec 4 := 5#4

/-- An error of a command: its ERRCODE (60_exceptions.md R310) and ERRSTAGE (R311). -/
structure CommandError where
  code : BitVec 4
  stage : BitVec 3
deriving DecidableEq, Repr

/-! ## The error end, its return, and completion -/

/-- ErrorEnd(code, stage), QRE's one exception-like event (60_exceptions.md R314, R322).  The state given
is the one from before the command, so that every write the command computed is discarded (R315). -/
def State.errorEnd (s : State) (e : CommandError) : State :=
  { s with
    status :=
      { s.status.errorRow e.stage with
        busy := false, done := false, aborted := false, error := true, errcode := e.code, errstage := e.stage }
    resultTag := s.pendingTag
    irqPend := { s.irqPend with errP := true } }

/-- The return from an error end (60_exceptions.md R323): the host clears pending bits by a W1C write of
`w` to IRQ_PEND.  The rest of the record goes at the next acceptance (`State.acceptOutcome`). -/
def State.clearPending (s : State) (w : Word) : State := { s with irqPend := s.irqPend.clear w }

/-- What acceptance of command `op` does to the record of the last command: LAST_OP, the cleared STATUS
fields and PENDING_TAG (40_host_bus.md R133). -/
def State.acceptOutcome (s : State) (op : BitVec 4) : State :=
  { s with
    lastOp := op
    status :=
      { s.status with
        done := false, error := false, aborted := false, errcode := 0#4, errstage := 0#3, wrIgnored := false }
    pendingTag := s.jobTag }

/-- The end of a command without error (40_host_bus.md R137), once its outputs and its stage-valid row
are written. -/
def State.complete (s : State) : State :=
  { s with
    status := { s.status with busy := false, done := true }
    resultTag := s.pendingTag
    irqPend := { s.irqPend with doneP := true } }

/-! ## ABORT -/

/-- A location that a command may write before it completes (40_host_bus.md R136). -/
inductive Loc where
  | buf (b : BufId)
  | symbolVersion
  | symbolLevel
  | symbolMask
  | dataCount
  | cwCount
  | mside
  | formatBits
  | versionBits
  | penalties
  | penaltyTerms
  | vecCount
  | vecExtent
deriving DecidableEq, Repr

/-- WriteSet(PACK) (40_host_bus.md R136). -/
def writeSetPack : List Loc := [.buf .datacw, .symbolVersion, .symbolLevel, .dataCount]
/-- WriteSet(ECC) (R136). -/
def writeSetEcc : List Loc := [.buf .finalcw, .cwCount, .dataCount]
/-- WriteSet(PLACE) (R136). -/
def writeSetPlace : List Loc := [.buf .funcmap, .buf .placed, .mside]
/-- WriteSet(MASK) (R136). -/
def writeSetMask : List Loc :=
  [.buf .matrix, .symbolMask, .formatBits, .versionBits, .penalties, .penaltyTerms]

/-- WriteSet(op) (40_host_bus.md R136). -/
def writeSet (op : BitVec 4) : List Loc :=
  match op.toNat with
  | 1 => writeSetPack
  | 2 => writeSetEcc
  | 3 => writeSetPlace
  | 4 => writeSetMask
  | 5 => writeSetPack ++ writeSetEcc ++ writeSetPlace ++ writeSetMask
  | 6 => [.buf .vecbuf, .vecCount, .vecExtent]
  | 7 => [.buf .rsout]
  | _ => []

/-- The free contents that draw `d` gives the register at bus offset `o` (40_host_bus.md R135), cut to
the field's width. -/
def drawnField (d o lo w : Nat) : BitVec w := (Config.unspecifiedRegister d o).extractLsb' lo w

/-- `l <- unspecified`, by draw `d` (40_host_bus.md R135). -/
def State.forget (d : Nat) (s : State) (l : Loc) : State :=
  match l with
  | .buf b => s.setBuf b (Buffer.unspecified d)
  | .symbolVersion => { s with symbol := { s.symbol with version := drawnField d 0x024 0 6 } }
  | .symbolLevel => { s with symbol := { s.symbol with level := drawnField d 0x024 8 2 } }
  | .symbolMask => { s with symbol := { s.symbol with mask := drawnField d 0x024 12 3 } }
  | .dataCount => { s with dataCount := drawnField d 0x028 0 12 }
  | .cwCount => { s with cwCount := drawnField d 0x02C 0 12 }
  | .mside => { s with mside := drawnField d 0x030 0 8 }
  | .formatBits => { s with formatBits := drawnField d 0x034 0 15 }
  | .versionBits => { s with versionBits := drawnField d 0x038 0 18 }
  | .penalties =>
    { s with
      penalty :=
        { p0 := drawnField d 0x060 0 32, p1 := drawnField d 0x064 0 32, p2 := drawnField d 0x068 0 32,
          p3 := drawnField d 0x06C 0 32, p4 := drawnField d 0x070 0 32, p5 := drawnField d 0x074 0 32,
          p6 := drawnField d 0x078 0 32, p7 := drawnField d 0x07C 0 32 } }
  | .penaltyTerms =>
    { s with
      penTerms :=
        { n1 := drawnField d 0x080 0 32, n2 := drawnField d 0x084 0 32, n3 := drawnField d 0x088 0 32,
          n4 := drawnField d 0x08C 0 32 } }
  | .vecCount => { s with vecCount := drawnField d 0x040 0 16 }
  | .vecExtent => { s with vecExtent := drawnField d 0x044 0 8 }

/-- `for every location l in ls : l <- unspecified`, by one new draw. -/
def State.forgetAll (s : State) (ls : List Loc) : State :=
  { ls.foldl (State.forget s.nextDraw) s with nextDraw := s.nextDraw + 1 }

/-- ABORT (40_host_bus.md R135).  While idle it has no effect at all. -/
def State.abort (s : State) : State :=
  if s.status.busy then
    let t := s.forgetAll (writeSet s.pendingOp)
    { t with
      lastOp := 0xF#4
      status :=
        { s.status.errorRow (stageOfCommand s.pendingOp) with
          busy := false, aborted := true, done := false, error := false, errcode := 0#4, errstage := 0#3 } }
  else s

/-! ## Issuing a command -/

/-- Acceptance of command `op`, 0x1..0xE, while idle (40_host_bus.md R133).  A reserved opcode ends at once
in ILLEGAL_COMMAND (R139); any other becomes the pending command. -/
def State.accept (s : State) (op : BitVec 4) : State :=
  let t := s.acceptOutcome op
  if 0x8 ≤ op.toNat then t.errorEnd { code := errIllegalCommand, stage := 0#3 }
  else { t with pendingOp := op, status := { t.status with busy := true } }

/-- A write dropped because BUSY is 1 (40_host_bus.md R134, 70_reset_and_hazards.md R351). -/
def State.dropWrite (s : State) : State := { s with status := { s.status with wrIgnored := true } }

/-- IssueCommand (40_host_bus.md R132, R134): NOP (R138) changes nothing, ABORT is R135, and any other
opcode is accepted while idle and dropped while BUSY. -/
def State.issueCommand (s : State) (op : BitVec 4) : State :=
  if op.toNat = 0x0 then s
  else if op.toNat = 0xF then s.abort
  else if s.status.busy then s.dropWrite
  else s.accept op

end Sys2Proof.Machine
end

