-- ==== Sys2Proof/Machine/Tables.lean ====
section
/-! DEFINITION. The QR standard's tables (00_scope.md R8) at the default values the spec states, and the
formulas over them: CC_BITS, TOTAL_CW, REMAINDER_BITS, BLOCK_TABLE, ALIGN_TABLE, MASK_FN, PENALTY_WEIGHTS,
FORMAT_CODE and VERSION_CODE.  Every value is general knowledge the spec supplied (92_eei_decisions.md D41;
assumption log 7). -/

namespace Sys2Proof.Machine

/-- An error-correction level (00_scope.md R3, R13). -/
inductive Level where
  | L
  | M
  | Q
  | H
deriving DecidableEq, Repr

/-- The level of a register code: 0 = L, 1 = M, 2 = Q, 3 = H, every code legal (30_encoding.md R106). -/
def Level.ofCode (code : BitVec 2) : Level :=
  match code.toNat with
  | 0 => .L
  | 1 => .M
  | 2 => .Q
  | _ => .H

/-- IND(L), the level indicator inside the format information (44_mask.md R251). -/
def Level.indicator : Level → Nat
  | .L => 0b01
  | .M => 0b00
  | .Q => 0b11
  | .H => 0b10

/-- Is `v` a symbol version, 1..40 (00_scope.md R7)? -/
def isVersion (v : Nat) : Bool := decide (1 ≤ v) && decide (v ≤ 40)

/-- SIDE(V) = 4·V + 17 (43_assembler.md R210). -/
def side (v : Nat) : Nat := 4 * v + 17

/-- SIDE_MAX, the side of the stored matrices (00_scope.md R7, 10_state.md R20). -/
def sideMax : Nat := 177

/-- CC_BITS(V), the width of the character count field (41_packer.md R151). -/
def ccBits (v : Nat) : Nat := if v ≤ 9 then 8 else 16

/-- raw(V), the number of data modules of version V (42_rs_ecc.md R175). -/
def rawModules (v : Nat) : Nat :=
  (16 * v + 128) * v + 64
    - (if 2 ≤ v then (25 * (v / 7 + 2) - 10) * (v / 7 + 2) - 55 else 0)
    - (if 7 ≤ v then 36 else 0)

/-- T(V) = TOTAL_CW(V) (42_rs_ecc.md R175). -/
def totalCw (v : Nat) : Nat := rawModules v / 8

/-- REMAINDER_BITS(V) (42_rs_ecc.md R175). -/
def remainderBits (v : Nat) : Nat := rawModules v % 8

/-- ECC codewords per block at level L, versions 1..40 (42_rs_ecc.md R176, column L e). -/
def eccPerBlockL : List Nat :=
  [7, 10, 15, 20, 26, 18, 20, 24, 30, 18] ++
  [20, 24, 26, 30, 22, 24, 28, 30, 28, 28] ++
  [28, 28, 30, 30, 26, 28, 30, 30, 30, 30] ++
  [30, 30, 30, 30, 30, 30, 30, 30, 30, 30]

/-- Number of blocks at level L, versions 1..40 (42_rs_ecc.md R176, column L b). -/
def blockCountL : List Nat :=
  [1, 1, 1, 1, 1, 2, 2, 2, 2, 4] ++
  [4, 4, 4, 4, 6, 6, 6, 6, 7, 8] ++
  [8, 9, 9, 10, 12, 12, 12, 13, 14, 15] ++
  [16, 17, 18, 19, 19, 20, 21, 22, 24, 25]

/-- ECC codewords per block at level M, versions 1..40 (42_rs_ecc.md R176, column M e). -/
def eccPerBlockM : List Nat :=
  [10, 16, 26, 18, 24, 16, 18, 22, 22, 26] ++
  [30, 22, 22, 24, 24, 28, 28, 26, 26, 26] ++
  [26, 28, 28, 28, 28, 28, 28, 28, 28, 28] ++
  [28, 28, 28, 28, 28, 28, 28, 28, 28, 28]

/-- Number of blocks at level M, versions 1..40 (42_rs_ecc.md R176, column M b). -/
def blockCountM : List Nat :=
  [1, 1, 1, 2, 2, 4, 4, 4, 5, 5] ++
  [5, 8, 9, 9, 10, 10, 11, 13, 14, 16] ++
  [17, 17, 18, 20, 21, 23, 25, 26, 28, 29] ++
  [31, 33, 35, 37, 38, 40, 43, 45, 47, 49]

/-- ECC codewords per block at level Q, versions 1..40 (42_rs_ecc.md R176, column Q e). -/
def eccPerBlockQ : List Nat :=
  [13, 22, 18, 26, 18, 24, 18, 22, 20, 24] ++
  [28, 26, 24, 20, 30, 24, 28, 28, 26, 30] ++
  [28, 30, 30, 30, 30, 28, 30, 30, 30, 30] ++
  [30, 30, 30, 30, 30, 30, 30, 30, 30, 30]

/-- Number of blocks at level Q, versions 1..40 (42_rs_ecc.md R176, column Q b). -/
def blockCountQ : List Nat :=
  [1, 1, 2, 2, 4, 4, 6, 6, 8, 8] ++
  [8, 10, 12, 16, 12, 17, 16, 18, 21, 20] ++
  [23, 23, 25, 27, 29, 34, 34, 35, 38, 40] ++
  [43, 45, 48, 51, 53, 56, 59, 62, 65, 68]

/-- ECC codewords per block at level H, versions 1..40 (42_rs_ecc.md R176, column H e). -/
def eccPerBlockH : List Nat :=
  [17, 28, 22, 16, 22, 28, 26, 26, 24, 28] ++
  [24, 28, 22, 24, 24, 30, 28, 28, 26, 28] ++
  [30, 24, 30, 30, 30, 30, 30, 30, 30, 30] ++
  [30, 30, 30, 30, 30, 30, 30, 30, 30, 30]

/-- Number of blocks at level H, versions 1..40 (42_rs_ecc.md R176, column H b). -/
def blockCountH : List Nat :=
  [1, 1, 2, 4, 4, 4, 5, 6, 8, 8] ++
  [11, 11, 16, 16, 18, 16, 19, 21, 25, 25] ++
  [25, 34, 30, 32, 35, 37, 40, 42, 45, 48] ++
  [51, 54, 57, 60, 63, 66, 70, 74, 77, 81]

/-- The e column of BLOCK_TABLE at a level (42_rs_ecc.md R176). -/
def eccPerBlockTable : Level → List Nat
  | .L => eccPerBlockL
  | .M => eccPerBlockM
  | .Q => eccPerBlockQ
  | .H => eccPerBlockH

/-- The b column of BLOCK_TABLE at a level (42_rs_ecc.md R176). -/
def blockCountTable : Level → List Nat
  | .L => blockCountL
  | .M => blockCountM
  | .Q => blockCountQ
  | .H => blockCountH

/-- e of BLOCK_TABLE(V, L): the ECC codewords per block (42_rs_ecc.md R176). -/
def eccPerBlock (v : Nat) (l : Level) : Nat := (eccPerBlockTable l).getD (v - 1) 0

/-- b of BLOCK_TABLE(V, L): the number of blocks (42_rs_ecc.md R176). -/
def blockCount (v : Nat) (l : Level) : Nat := (blockCountTable l).getD (v - 1) 0

/-- D(V, L) = T(V) − b·e, the number of data codewords (42_rs_ecc.md R177). -/
def dataCodewords (v : Nat) (l : Level) : Nat := totalCw v - blockCount v l * eccPerBlock v l

/-- ALIGN_TABLE, versions 1..40: the alignment pattern centre coordinates (43_assembler.md R215). -/
def alignTable : List (List Nat) :=
  [[],
    [6, 18],
    [6, 22],
    [6, 26],
    [6, 30],
    [6, 34],
    [6, 22, 38],
    [6, 24, 42],
    [6, 26, 46],
    [6, 28, 50]] ++
   [[6, 30, 54],
    [6, 32, 58],
    [6, 34, 62],
    [6, 26, 46, 66],
    [6, 26, 48, 70],
    [6, 26, 50, 74],
    [6, 30, 54, 78],
    [6, 30, 56, 82],
    [6, 30, 58, 86],
    [6, 34, 62, 90]] ++
   [[6, 28, 50, 72, 94],
    [6, 26, 50, 74, 98],
    [6, 30, 54, 78, 102],
    [6, 28, 54, 80, 106],
    [6, 32, 58, 84, 110],
    [6, 30, 58, 86, 114],
    [6, 34, 62, 90, 118],
    [6, 26, 50, 74, 98, 122],
    [6, 30, 54, 78, 102, 126],
    [6, 26, 52, 78, 104, 130]] ++
   [[6, 30, 56, 82, 108, 134],
    [6, 34, 60, 86, 112, 138],
    [6, 30, 58, 86, 114, 142],
    [6, 34, 62, 90, 118, 146],
    [6, 30, 54, 78, 102, 126, 150],
    [6, 24, 50, 76, 102, 128, 154],
    [6, 28, 54, 80, 106, 132, 158],
    [6, 32, 58, 84, 110, 136, 162],
    [6, 26, 54, 82, 110, 138, 166],
    [6, 30, 58, 86, 114, 142, 170]]

/-- ALIGN_TABLE(V) (43_assembler.md R215). -/
def alignCentres (v : Nat) : List Nat := alignTable.getD (v - 1) []

/-- MASK_FN(m, i, j): is module (i, j), row i and column j, inverted by mask m (44_mask.md R241)? -/
def maskFn (m i j : Nat) : Bool :=
  match m with
  | 0 => (i + j) % 2 == 0
  | 1 => i % 2 == 0
  | 2 => j % 3 == 0
  | 3 => (i + j) % 3 == 0
  | 4 => (i / 2 + j / 3) % 2 == 0
  | 5 => (i * j) % 2 + (i * j) % 3 == 0
  | 6 => ((i * j) % 2 + (i * j) % 3) % 2 == 0
  | _ => ((i + j) % 2 + (i * j) % 3) % 2 == 0

/-- PENALTY_WEIGHTS N1 (44_mask.md R245). -/
def weightN1 : Nat := 3

/-- PENALTY_WEIGHTS N2 (44_mask.md R245). -/
def weightN2 : Nat := 3

/-- PENALTY_WEIGHTS N3 (44_mask.md R245). -/
def weightN3 : Nat := 40

/-- PENALTY_WEIGHTS N4 (44_mask.md R245). -/
def weightN4 : Nat := 10

/-- One step of a BCH division: clear bit `i` of `r` with the generator `gen` of degree `deg`
(44_mask.md R252, R254). -/
def bchStep (gen deg r i : Nat) : Nat := if r.testBit i then r ^^^ (gen <<< (i - deg)) else r

/-- FORMAT_CODE: the 15-bit format word of level `l` and mask `m` (44_mask.md R252). -/
def formatWord (l : Level) (m : Nat) : Nat :=
  let d := l.indicator <<< 3 ||| m
  ((d <<< 10) ||| [14, 13, 12, 11, 10].foldl (bchStep 0x537 10) (d <<< 10)) ^^^ 0x5412

/-- VERSION_CODE: the 18-bit version word (44_mask.md R254). -/
def versionWord (v : Nat) : Nat :=
  (v <<< 12) ||| [17, 16, 15, 14, 13, 12].foldl (bchStep 0x1F25 12) (v <<< 12)

end Sys2Proof.Machine
end

