-- ==== Sys2Proof/Machine/Matrices.lean ====
section
/-! DEFINITION. Bit streams and codewords (00_scope.md R12), module matrices (R11) and their layout in a
matrix window (30_encoding.md R110). -/

namespace Sys2Proof.Machine

/-- `put(v, w)`: the w-bit number `v`, most significant bit first (00_scope.md R12). -/
def putBits (v w : Nat) : List Bool := (List.range w).map fun i => v.testBit (w - 1 - i)

/-- The eight bits of a codeword, most significant first (00_scope.md R12, 20_memory.md R77). -/
def bitsOfByte (b : Byte) : List Bool := putBits b.toNat 8

/-- The codeword of eight bits, the first of them the most significant (00_scope.md R12). -/
def byteOfBits (b7 b6 b5 b4 b3 b2 b1 b0 : Bool) : Byte :=
  BitVec.ofNat 8
    (128 * b7.toNat + 64 * b6.toNat + 32 * b5.toNat + 16 * b4.toNat
      + 8 * b3.toNat + 4 * b2.toNat + 2 * b1.toNat + b0.toNat)

/-- The codewords of a bit stream, eight bits each (00_scope.md R12); a last group of fewer bits is none. -/
def codewordsOf : List Bool → List Byte
  | b7 :: b6 :: b5 :: b4 :: b3 :: b2 :: b1 :: b0 :: rest =>
    byteOfBits b7 b6 b5 b4 b3 b2 b1 b0 :: codewordsOf rest
  | _ => []

/-- The distance of two numbers. -/
def gap (a b : Nat) : Nat := (a - b) + (b - a)

/-- A module matrix: rows from the top, modules from the left, 1 = dark = true (00_scope.md R11,
30_encoding.md R109). -/
abbrev Matrix := List (List Bool)

/-- M[r][c] (00_scope.md R11); 0 outside the matrix. -/
def Matrix.at (m : Matrix) (r c : Nat) : Bool := (m.getD r []).getD c false

/-- The n × n matrix whose module (r, c) is `f r c`. -/
def Matrix.build (n : Nat) (f : Nat → Nat → Bool) : Matrix :=
  (List.range n).map fun r => (List.range n).map fun c => f r c

/-- M[r][c] <- v. -/
def Matrix.put (m : Matrix) (r c : Nat) (v : Bool) : Matrix := m.modify r fun row => row.set c v

/-- The assignments `M[r][c] <- v` of a list, first to last. -/
def Matrix.putAll (m : Matrix) (cells : List ((Nat × Nat) × Bool)) : Matrix :=
  cells.foldl (fun acc cell => acc.put cell.1.1 cell.1.2 cell.2) m

/-- The columns of an n-column matrix, left to right, each from the top. -/
def Matrix.columns (m : Matrix) (n : Nat) : List (List Bool) :=
  (List.range n).map fun c => m.map fun row => row.getD c false

/-- The number of dark modules. -/
def Matrix.dark (m : Matrix) : Nat := (m.map fun row => row.count true).sum

/-- The 24 bytes of a row: its modules in columns 0..176, then 0 (30_encoding.md R110). -/
def rowBytes (row : List Bool) : List Byte :=
  codewordsOf ((row.take sideMax ++ List.replicate (192 - (row.take sideMax).length) false))

/-- The 4248 stored bytes of a matrix window: the rows 0..176, every bit outside the matrix 0
(30_encoding.md R110, 43_assembler.md R229, 44_mask.md R256). -/
def windowBytes (m : Matrix) : List Byte :=
  ((m ++ List.replicate sideMax []).take sideMax).flatMap rowBytes

/-- The stored bit at column `c`, 0..191, of row `r` of the matrix window `b` (30_encoding.md R110, 20_memory.md
R79).  Columns from 177 up are padding. -/
def State.storedBit (s : State) (b : BufId) (r c : Nat) : Bool :=
  (s.windowByte b (24 * r + c / 8)).getLsbD (7 - c % 8)

/-- Module (r, c) of the stored matrix `b` (30_encoding.md R110); 0 where there is no module. -/
def State.module (s : State) (b : BufId) (r c : Nat) : Bool :=
  decide (r < sideMax) && decide (c < sideMax) && s.storedBit b r c

/-- Row `r` of the stored matrix `b`, `n` modules. -/
def State.matrixRow (s : State) (b : BufId) (n r : Nat) : List Bool :=
  let m := min n sideMax
  let bits := (List.range ((m + 7) / 8)).flatMap fun i => bitsOfByte (s.windowByte b (24 * r + i))
  bits.take m ++ List.replicate (n - m) false

/-- The n × n matrix stored in `b`. -/
def State.readMatrix (s : State) (b : BufId) (n : Nat) : Matrix :=
  (List.range n).map fun r => s.matrixRow b n r

/-- `b <- m within N×N; every other stored bit <- 0` (43_assembler.md R229, 44_mask.md R259). -/
def State.writeMatrix (s : State) (b : BufId) (m : Matrix) : State := s.writeBuf b 0 (windowBytes m)

end Sys2Proof.Machine
end

