-- ==== Sys2Proof/Machine/Render.lean ====
section
/-! DEFINITION. VECTOR, matrix-to-vector (45_encode_render.md R290-R292), and the raster window,
matrix-to-raster (R295-R297). -/

namespace Sys2Proof.Machine

/-- The record of the dark module (r, c): X = c + Q, Y = r + Q (45_encode_render.md R291, 30_encoding.md
R112). -/
def vectorRecord (q r c : Nat) : Word := BitVec.ofNat 32 ((r + q) <<< 16 ||| (c + q))

/-- The records of the n × n matrix stored in MATRIX, row-major (45_encode_render.md R291). -/
def vectorRecords (s : State) (n q : Nat) : List Word :=
  (List.range n).flatMap fun r =>
    ((s.matrixRow .matrix n r).zipIdx.filter (·.1)).map fun m => vectorRecord q r m.2

/-- The VECTOR body at the ENGINE completion step (45_encode_render.md R291). -/
def vectorBody (s : State) : Except CommandError State :=
  if s.status.vMask then
    let n := s.mside.toNat
    let q := s.config.qz.toNat
    let recs := vectorRecords s n q
    let t := s.writeBuf .vecbuf 0 (recs.flatMap bytesOfWord)
    .ok
      { t with
        vecCount := BitVec.ofNat 16 recs.length
        vecExtent := BitVec.ofNat 8 (n + 2 * q)
        status := s.status.vectorCompletes }
  else .error { code := errStageOrder, stage := 5#3 }

/-- The first offset of the raster window (20_memory.md R70). -/
def rasterBase : Nat := 0x04000000

/-- One past the last offset of the raster window (20_memory.md R70). -/
def rasterEnd : Nat := 0x08000000

/-- Is grid cell (u, v), column u and row v, a dark module of the symbol (45_encode_render.md R295)? -/
def State.gridDark (s : State) (u v : Nat) : Bool :=
  let q := s.config.qz.toNat
  let n := s.mside.toNat
  decide (q ≤ u) && decide (q ≤ v) && decide (u - q < n) && decide (v - q < n)
    && s.module .matrix (v - q) (u - q)

/-- Pixel(p) of the raster window (45_encode_render.md R296). -/
def State.pixel (s : State) (p : Nat) : Word :=
  let sz := s.rasterSize.toNat
  let m := s.mside.toNat + 2 * s.config.qz.toNat
  if sz * sz ≤ p then 0#32
  else if s.status.vMask && s.gridDark (p % sz * m / sz) (p / sz * m / sz) then s.colorDark.setWidth 32
  else s.colorLight.setWidth 32

end Sys2Proof.Machine
end

