-- ==== Sys2Proof/Machine/Operands.lean ====
section
/-! DEFINITION. The operand forms of a bus transaction: the place an offset names (20_memory.md R70), the
bus errors (R73-R75), the register page as words (10_state.md R23-R47), the bytes of a window (R76, R78),
and the locations that are volatile while BUSY (40_host_bus.md R136). -/

namespace Sys2Proof.Machine

/-! ## Places -/

/-- What a bus offset names (20_memory.md R70). -/
inductive Place where
  /-- Offset `o` of the register page. -/
  | reg (o : Nat)
  /-- Byte `k` of the window of buffer `b`. -/
  | window (b : BufId) (k : Nat)
  /-- Byte `k` of the raster window. -/
  | raster (k : Nat)
  /-- No location. -/
  | unmapped
deriving DecidableEq, Repr

/-- The buffers, in the order of the address map (20_memory.md R70). -/
def allBuffers : List BufId := [.inbuf, .datacw, .finalcw, .rsout, .funcmap, .placed, .matrix, .vecbuf]

/-- Does offset `a` fall in the window of buffer `b`? -/
def BufId.covers (b : BufId) (a : Nat) : Bool := decide (b.base ≤ a) && decide (a < b.base + b.windowSize)

/-- The place of bus offset `a` (20_memory.md R70). -/
def placeOf (a : Nat) : Place :=
  if a < 0x1000 then .reg a
  else if rasterBase ≤ a ∧ a < rasterEnd then .raster (a - rasterBase)
  else
    match allBuffers.find? fun b => b.covers a with
    | some b => .window b (a - b.base)
    | none => .unmapped

/-! ## The register page -/

/-- ID always reads 0x5152_4543 (10_state.md R26). -/
def idWord : Word := 0x51524543#32

/-- PENALTYm (10_state.md R45). -/
def Penalties.get (p : Penalties) (m : Nat) : Word :=
  match m with
  | 0 => p.p0
  | 1 => p.p1
  | 2 => p.p2
  | 3 => p.p3
  | 4 => p.p4
  | 5 => p.p5
  | 6 => p.p6
  | _ => p.p7

/-- The CONFIG word (10_state.md R29). -/
def ConfigReg.word (c : ConfigReg) : Word := c.level.setWidth 32 ||| c.qz.setWidth 32 <<< 4

/-- The SYMBOL word (10_state.md R33). -/
def SymbolReg.word (y : SymbolReg) : Word :=
  y.version.setWidth 32 ||| y.level.setWidth 32 <<< 8 ||| y.mask.setWidth 32 <<< 12

/-- The RS_PARAM word (10_state.md R39). -/
def RsParam.word (p : RsParam) : Word := p.k.setWidth 32 ||| p.e.setWidth 32 <<< 8

/-- The word a read of the register at offset `o` returns; nothing at a reserved offset (10_state.md R23,
R24-R47). -/
def State.regWord (s : State) (o : Nat) : Option Word :=
  match o with
  | 0x000 => some idWord
  | 0x004 => some (s.lastOp.setWidth 32)
  | 0x008 => some s.status.word
  | 0x00C => some s.irqEn.word
  | 0x010 => some s.irqPend.word
  | 0x014 => some s.config.word
  | 0x018 => some (s.inLen.setWidth 32)
  | 0x01C => some s.jobTag
  | 0x020 => some s.resultTag
  | 0x024 => some s.symbol.word
  | 0x028 => some (s.dataCount.setWidth 32)
  | 0x02C => some (s.cwCount.setWidth 32)
  | 0x030 => some (s.mside.setWidth 32)
  | 0x034 => some (s.formatBits.setWidth 32)
  | 0x038 => some (s.versionBits.setWidth 32)
  | 0x03C => some s.rsParam.word
  | 0x040 => some (s.vecCount.setWidth 32)
  | 0x044 => some (s.vecExtent.setWidth 32)
  | 0x048 => some (s.rasterSize.setWidth 32)
  | 0x04C => some (s.colorDark.setWidth 32)
  | 0x050 => some (s.colorLight.setWidth 32)
  | 0x060 => some s.penalty.p0
  | 0x064 => some s.penalty.p1
  | 0x068 => some s.penalty.p2
  | 0x06C => some s.penalty.p3
  | 0x070 => some s.penalty.p4
  | 0x074 => some s.penalty.p5
  | 0x078 => some s.penalty.p6
  | 0x07C => some s.penalty.p7
  | 0x080 => some s.penTerms.n1
  | 0x084 => some s.penTerms.n2
  | 0x088 => some s.penTerms.n3
  | 0x08C => some s.penTerms.n4
  | _ => none

/-- Does offset `o` hold a register (10_state.md R23)? -/
def isRegister (o : Nat) : Bool :=
  o % 4 == 0 && (decide (o ≤ 0x050) || (decide (0x060 ≤ o) && decide (o ≤ 0x08C)))

/-- Does offset `o` hold a register that takes a write (10_state.md R23: access RW or W1C)? -/
def isWritableRegister (o : Nat) : Bool :=
  [0x004, 0x00C, 0x010, 0x014, 0x018, 0x01C, 0x024, 0x02C, 0x03C, 0x048, 0x04C, 0x050].contains o

/-- The legal quiet-zone width stored for `v`: 0..3 store 4 (10_state.md R29). -/
def clampQz (v : BitVec 4) : BitVec 4 := if v.toNat < 4 then 4#4 else v

/-- The legal raster size stored for `v`: clamp(v, 1, 4096) (10_state.md R42). -/
def clampRaster (v : BitVec 13) : BitVec 13 :=
  if v.toNat < 1 then 1#13 else if 4096 < v.toNat then 4096#13 else v

/-- Store `w` in the register at offset `o` by its field rules: reserved bits and the field SYMBOL.MASK
ignored, WARL fields clamped, W1C bits cleared (40_host_bus.md R131, 10_state.md R27-R44).  A write to SYMBOL
clears the stage-valid flags (R33, R57).  CMD is not stored: it issues a command (R25). -/
def State.writeReg (s : State) (o : Nat) (w : Word) : State :=
  match o with
  | 0x00C => { s with irqEn := { doneIE := w.getLsbD 0, errIE := w.getLsbD 1 } }
  | 0x010 => s.clearPending w
  | 0x014 => { s with config := { level := w.extractLsb' 0 2, qz := clampQz (w.extractLsb' 4 4) } }
  | 0x018 => { s with inLen := w.extractLsb' 0 12 }
  | 0x01C => { s with jobTag := w }
  | 0x024 =>
    { s with
      symbol := { version := w.extractLsb' 0 6, level := w.extractLsb' 8 2, mask := s.symbol.mask }
      status := s.status.symbolWritten }
  | 0x02C => { s with cwCount := w.extractLsb' 0 12 }
  | 0x03C => { s with rsParam := { k := w.extractLsb' 0 8, e := w.extractLsb' 8 8 } }
  | 0x048 => { s with rasterSize := clampRaster (w.extractLsb' 0 13) }
  | 0x04C => { s with colorDark := w.extractLsb' 0 24 }
  | 0x050 => { s with colorLight := w.extractLsb' 0 24 }
  | _ => s

/-! ## Bus errors -/

/-- Is a transaction of `n` bytes at offset `a`, a write if `we`, a bus error (20_memory.md R73-R75)? -/
def busError (a n : Nat) (we : Bool) : Bool :=
  if a % n ≠ 0 then true
  else
    match placeOf a with
    | .reg o => n != 4 || !(if we then isWritableRegister o else isRegister o)
    | .window b _ => we && !b.hostWritable
    | .raster _ => we
    | .unmapped => true

/-! ## Reads -/

/-- The `n` bytes `bs` as bus data, byte k in bits [8k+7:8k], zero-extended (20_memory.md R76). -/
def busData : List Byte → Word
  | [] => 0#32
  | b :: bs => b.setWidth 32 ||| busData bs <<< 8

/-- Byte `i` of a word, byte 0 the least significant (20_memory.md R76). -/
def wordByte (w : Word) (i : Nat) : Byte := (w >>> (8 * i)).setWidth 8

/-- The low `n` bytes of a word as bus data. -/
def lowBytes (n : Nat) (w : Word) : Word := busData ((List.range n).map (wordByte w))

/-- The data of an exact read of `n` bytes at offset `a` (40_host_bus.md R130, 45_encode_render.md R296). -/
def State.readData (s : State) (a n : Nat) : Word :=
  match placeOf a with
  | .reg o => (s.regWord o).getD 0#32
  | .window b k => busData ((List.range n).map fun i => s.windowByte b (k + i))
  | .raster k => busData ((List.range n).map fun i => wordByte (s.pixel (k / 4)) (k % 4 + i))
  | .unmapped => 0#32

/-- Does a transaction that begins at this place touch location `l`?  A location in a window is touched in
its stored bytes only (20_memory.md R79); a register is touched as a whole word. -/
def Loc.touches (l : Loc) (p : Place) : Bool :=
  match l, p with
  | .buf b, .window b' k => b == b' && decide (k < b.storedSize)
  | .symbolVersion, .reg o => o == 0x024
  | .symbolLevel, .reg o => o == 0x024
  | .symbolMask, .reg o => o == 0x024
  | .dataCount, .reg o => o == 0x028
  | .cwCount, .reg o => o == 0x02C
  | .mside, .reg o => o == 0x030
  | .formatBits, .reg o => o == 0x034
  | .versionBits, .reg o => o == 0x038
  | .vecCount, .reg o => o == 0x040
  | .vecExtent, .reg o => o == 0x044
  | .penalties, .reg o => decide (0x060 ≤ o) && decide (o ≤ 0x07C)
  | .penaltyTerms, .reg o => decide (0x080 ≤ o) && decide (o ≤ 0x08C)
  | .buf .matrix, .raster _ => true
  | .mside, .raster _ => true
  | _, _ => false

/-- Is the place in Volatile(op) (40_host_bus.md R136): in WriteSet(op), or the raster window when
WriteSet(op) contains MATRIX or MSIDE? -/
def volatileFor (op : BitVec 4) (p : Place) : Bool := (writeSet op).any fun l => l.touches p

/-- Is the place volatile now (70_reset_and_hazards.md R350)? -/
def State.volatilePlace (s : State) (p : Place) : Bool := s.status.busy && volatileFor s.pendingOp p

/-- A bus read of `n` bytes (40_host_bus.md R130).  A volatile location gives free data (R350). -/
def State.busRead (s : State) (a n : Nat) : State :=
  if busError a n false then s.respondError
  else if s.volatilePlace (placeOf a) then
    { s.respond (lowBytes n (Config.unspecifiedReadData s.nextDraw)) with nextDraw := s.nextDraw + 1 }
  else s.respond (s.readData a n)

/-! ## Writes -/

/-- Store the low `n` bytes of `w` at offset `a` (40_host_bus.md R131, 20_memory.md R76). -/
def State.store (s : State) (a n : Nat) (w : Word) : State :=
  match placeOf a with
  | .reg o => s.writeReg o w
  | .window b k => s.writeBuf b k ((List.range n).map (wordByte w))
  | .raster _ => s
  | .unmapped => s

/-- A bus write of the low `n` bytes of `w` (40_host_bus.md R131, 70_reset_and_hazards.md R351). -/
def State.busWrite (s : State) (a n : Nat) (w : Word) : State :=
  if busError a n true then s.respondError
  else if a = 0x004 then (s.issueCommand (opcodeOf w)).respond 0#32
  else if s.status.busy && !(a == 0x00C || a == 0x010) then s.dropWrite.respond 0#32
  else (s.store a n w).respond 0#32

/-- A command-word instruction: the 32-bit write of the word to CMD (30_encoding.md R100). -/
def State.commandWrite (s : State) (op : BitVec 4) : State := (s.issueCommand op).respond 0#32

end Sys2Proof.Machine
end

