-- ==== Sys2Proof/Machine/Bus.lean ====
section
/-! DEFINITION. The meanings of the six bus transactions (40_host_bus.md R130, R131). -/

namespace Sys2Proof.Machine

/-- R8: a 1-byte read (40_host_bus.md R130). -/
def execR8 (addr : Word) (s : State) : Host.Outcome State Fault Refusal := .next (s.busRead addr.toNat 1)

/-- R16: a 2-byte read (40_host_bus.md R130). -/
def execR16 (addr : Word) (s : State) : Host.Outcome State Fault Refusal := .next (s.busRead addr.toNat 2)

/-- R32: a 4-byte read (40_host_bus.md R130). -/
def execR32 (addr : Word) (s : State) : Host.Outcome State Fault Refusal := .next (s.busRead addr.toNat 4)

/-- W8: a 1-byte write (40_host_bus.md R131). -/
def execW8 (addr wdata : Word) (s : State) : Host.Outcome State Fault Refusal :=
  .next (s.busWrite addr.toNat 1 wdata)

/-- W16: a 2-byte write (40_host_bus.md R131). -/
def execW16 (addr wdata : Word) (s : State) : Host.Outcome State Fault Refusal :=
  .next (s.busWrite addr.toNat 2 wdata)

/-- W32: a 4-byte write (40_host_bus.md R131). -/
def execW32 (addr wdata : Word) (s : State) : Host.Outcome State Fault Refusal :=
  .next (s.busWrite addr.toNat 4 wdata)

end Sys2Proof.Machine
end

