-- ==== Sys2Proof/Machine/Commands.lean ====
section
/-! DEFINITION. The meanings of the sixteen command words: each is the HOST step that writes its word to
CMD (30_encoding.md R100; 40_host_bus.md R132).  What an accepted command then computes is the ENGINE's step
(Machine/Engine.lean, R137). -/

namespace Sys2Proof.Machine

/-- NOP (40_host_bus.md R138). -/
def execNop (s : State) : Host.Outcome State Fault Refusal := .next (s.commandWrite 0x0#4)

/-- PACK issued (41_packer.md R157; 40_host_bus.md R133, R134). -/
def execPack (s : State) : Host.Outcome State Fault Refusal := .next (s.commandWrite 0x1#4)

/-- ECC issued (42_rs_ecc.md R186; 40_host_bus.md R133, R134). -/
def execEcc (s : State) : Host.Outcome State Fault Refusal := .next (s.commandWrite 0x2#4)

/-- PLACE issued (43_assembler.md R229; 40_host_bus.md R133, R134). -/
def execPlace (s : State) : Host.Outcome State Fault Refusal := .next (s.commandWrite 0x3#4)

/-- MASK issued (44_mask.md R259; 40_host_bus.md R133, R134). -/
def execMask (s : State) : Host.Outcome State Fault Refusal := .next (s.commandWrite 0x4#4)

/-- ENCODE issued (45_encode_render.md R280; 40_host_bus.md R133, R134). -/
def execEncode (s : State) : Host.Outcome State Fault Refusal := .next (s.commandWrite 0x5#4)

/-- VECTOR issued (45_encode_render.md R291; 40_host_bus.md R133, R134). -/
def execVector (s : State) : Host.Outcome State Fault Refusal := .next (s.commandWrite 0x6#4)

/-- RS issued (42_rs_ecc.md R191; 40_host_bus.md R133, R134). -/
def execRs (s : State) : Host.Outcome State Fault Refusal := .next (s.commandWrite 0x7#4)

/-- Reserved opcode 0x8 (40_host_bus.md R139). -/
def execReserved8 (s : State) : Host.Outcome State Fault Refusal := .next (s.commandWrite 0x8#4)

/-- Reserved opcode 0x9 (40_host_bus.md R139). -/
def execReserved9 (s : State) : Host.Outcome State Fault Refusal := .next (s.commandWrite 0x9#4)

/-- Reserved opcode 0xA (40_host_bus.md R139). -/
def execReservedA (s : State) : Host.Outcome State Fault Refusal := .next (s.commandWrite 0xA#4)

/-- Reserved opcode 0xB (40_host_bus.md R139). -/
def execReservedB (s : State) : Host.Outcome State Fault Refusal := .next (s.commandWrite 0xB#4)

/-- Reserved opcode 0xC (40_host_bus.md R139). -/
def execReservedC (s : State) : Host.Outcome State Fault Refusal := .next (s.commandWrite 0xC#4)

/-- Reserved opcode 0xD (40_host_bus.md R139). -/
def execReservedD (s : State) : Host.Outcome State Fault Refusal := .next (s.commandWrite 0xD#4)

/-- Reserved opcode 0xE (40_host_bus.md R139). -/
def execReservedE (s : State) : Host.Outcome State Fault Refusal := .next (s.commandWrite 0xE#4)

/-- ABORT (40_host_bus.md R135). -/
def execAbort (s : State) : Host.Outcome State Fault Refusal := .next (s.commandWrite 0xF#4)

end Sys2Proof.Machine
end

