-- ==== Sys2Proof/Machine/Dispatch.lean ====
section
/-! DEFINITION. One arm per instruction, each one direct call of its meaning. -/

namespace Sys2Proof.Machine

/-- The effect of instruction `i` as one HOST step (00_scope.md R9). -/
def exec (i : Instr) (s : State) : Host.Outcome State Fault Refusal :=
  match i with
  | .nop => Sys2Proof.Machine.execNop s
  | .pack => Sys2Proof.Machine.execPack s
  | .ecc => Sys2Proof.Machine.execEcc s
  | .place => Sys2Proof.Machine.execPlace s
  | .mask => Sys2Proof.Machine.execMask s
  | .encode => Sys2Proof.Machine.execEncode s
  | .vector => Sys2Proof.Machine.execVector s
  | .rs => Sys2Proof.Machine.execRs s
  | .reserved8 => Sys2Proof.Machine.execReserved8 s
  | .reserved9 => Sys2Proof.Machine.execReserved9 s
  | .reservedA => Sys2Proof.Machine.execReservedA s
  | .reservedB => Sys2Proof.Machine.execReservedB s
  | .reservedC => Sys2Proof.Machine.execReservedC s
  | .reservedD => Sys2Proof.Machine.execReservedD s
  | .reservedE => Sys2Proof.Machine.execReservedE s
  | .abort => Sys2Proof.Machine.execAbort s
  | .r8 addr => Sys2Proof.Machine.execR8 addr s
  | .r16 addr => Sys2Proof.Machine.execR16 addr s
  | .r32 addr => Sys2Proof.Machine.execR32 addr s
  | .w8 addr wdata => Sys2Proof.Machine.execW8 addr wdata s
  | .w16 addr wdata => Sys2Proof.Machine.execW16 addr wdata s
  | .w32 addr wdata => Sys2Proof.Machine.execW32 addr wdata s

end Sys2Proof.Machine
end

