-- ==== Sys2Proof/Machine/Assembler.lean ====
section
/-! DEFINITION. PLACE, the symbol assembler (43_assembler.md).  A part of the function layout says of a
module (r, c) either nothing or the value PLACED gives it. -/

namespace Sys2Proof.Machine

/-! ## The function layout -/

/-- Is module (y, x) of a 7×7 finder pattern dark (43_assembler.md R212)? -/
def finderDark (y x : Nat) : Bool :=
  y == 0 || y == 6 || x == 0 || x == 6 || (decide (2 ≤ y) && decide (y ≤ 4) && decide (2 ≤ x) && decide (x ≤ 4))

/-- The finder pattern with top-left corner (r0, c0) (43_assembler.md R212). -/
def finderAt (r0 c0 r c : Nat) : Option Bool :=
  if r0 ≤ r ∧ r < r0 + 7 ∧ c0 ≤ c ∧ c < c0 + 7 then some (finderDark (r - r0) (c - c0)) else none

/-- The separators, all light (43_assembler.md R213). -/
def separatorPart (n r c : Nat) : Option Bool :=
  if (r = 7 ∧ c ≤ 7) ∨ (c = 7 ∧ r ≤ 7)
      ∨ (r = 7 ∧ n - 8 ≤ c ∧ c < n) ∨ (c = n - 8 ∧ r ≤ 7)
      ∨ (r = n - 8 ∧ c ≤ 7) ∨ (c = 7 ∧ n - 8 ≤ r ∧ r < n) then some false else none

/-- The timing patterns, dark at even indices (43_assembler.md R214). -/
def timingPart (n r c : Nat) : Option Bool :=
  if r = 6 ∧ 8 ≤ c ∧ c ≤ n - 9 then some (c % 2 == 0)
  else if c = 6 ∧ 8 ≤ r ∧ r ≤ n - 9 then some (r % 2 == 0)
  else none

/-- The centres of the alignment patterns of version `v`: every ordered pair of coordinates but the three
that coincide with finder patterns (43_assembler.md R216). -/
def alignPairs (v : Nat) : List (Nat × Nat) :=
  let n := side v
  ((alignCentres v).flatMap fun a => (alignCentres v).map fun b => (a, b)).filter fun p =>
    !(p == (6, 6) || p == (6, n - 7) || p == (n - 7, 6))

/-- The 5×5 alignment patterns (43_assembler.md R216). -/
def alignPart (v r c : Nat) : Option Bool :=
  (alignPairs v).findSome? fun p =>
    if gap r p.1 ≤ 2 ∧ gap c p.2 ≤ 2 then some (max (gap r p.1) (gap c p.2) != 1) else none

/-- The reserved format-information areas, light placeholders (43_assembler.md R217). -/
def formatPart (n r c : Nat) : Option Bool :=
  if (c = 8 ∧ r ≤ 8 ∧ r ≠ 6) ∨ (r = 8 ∧ c ≤ 7 ∧ c ≠ 6)
      ∨ (r = 8 ∧ n - 8 ≤ c ∧ c < n) ∨ (c = 8 ∧ n - 7 ≤ r ∧ r < n) then some false else none

/-- The dark module (43_assembler.md R218). -/
def darkPart (n r c : Nat) : Option Bool := if r = n - 8 ∧ c = 8 then some true else none

/-- The reserved version-information areas of versions 7 and up (43_assembler.md R219). -/
def versionPart (v r c : Nat) : Option Bool :=
  let n := side v
  if 7 ≤ v ∧ ((r ≤ 5 ∧ n - 11 ≤ c ∧ c ≤ n - 9) ∨ (n - 11 ≤ r ∧ r ≤ n - 9 ∧ c ≤ 5)) then some false else none

/-- FunctionLayout(V) at module (r, c): the value PLACED gives it if it is a function module, else nothing
(43_assembler.md R211). -/
def layout (v r c : Nat) : Option Bool :=
  let n := side v
  [finderAt 0 0 r c, finderAt 0 (n - 7) r c, finderAt (n - 7) 0 r c, separatorPart n r c, timingPart n r c,
    alignPart v r c, formatPart n r c, darkPart n r c, versionPart v r c].findSome? id

/-- Fn: is (r, c) a function module of version `v` (43_assembler.md R211)? -/
def isFunction (v r c : Nat) : Bool := (layout v r c).isSome

/-- The matrix Fn of version `v`. -/
def functionMatrix (v : Nat) : Matrix := Matrix.build (side v) (isFunction v)

/-- The matrix Pv of version `v`, data modules still 0. -/
def patternMatrix (v : Nat) : Matrix := Matrix.build (side v) fun r c => (layout v r c).getD false

/-! ## Data placement -/

/-- The right column of column pair `p`, pair 0 the rightmost: the pairs left of the vertical timing column
are moved one column to the left (43_assembler.md R224). -/
def pairRight (n p : Nat) : Nat := if 6 < n - 1 - 2 * p then n - 1 - 2 * p else n - 2 - 2 * p

/-- The modules of column pair `p` in scan order, function modules included (43_assembler.md R224). -/
def pairModules (n p : Nat) : List (Nat × Nat) :=
  let right := pairRight n p
  let upward := (right + 1) &&& 2 == 0
  (List.range n).flatMap fun k =>
    let r := if upward then n - 1 - k else k
    [(r, right), (r, right - 1)]

/-- ZigZag(V), the data modules in placement order (43_assembler.md R224). -/
def zigzag (v : Nat) : List (Nat × Nat) :=
  ((List.range ((side v - 1) / 2)).flatMap (pairModules (side v))).filter fun m => !isFunction v m.1 m.2

/-- P: the function patterns, then the codeword bits along ZigZag(V), most significant bit of each codeword
first, then 0 in the remainder modules (43_assembler.md R225, R226, R229). -/
def placedMatrix (v : Nat) (cws : List Byte) : Matrix :=
  (patternMatrix v).putAll
    ((zigzag v).zip (cws.flatMap bitsOfByte ++ List.replicate (remainderBits v) false))

/-- The PLACE body at the ENGINE completion step (43_assembler.md R229, R230). -/
def placeBody (s : State) : Except CommandError State :=
  let v := s.symbol.version.toNat
  if isVersion v then
    if s.cwCount.toNat = totalCw v then
      let t := s.writeMatrix .funcmap (functionMatrix v)
      let t := t.writeMatrix .placed (placedMatrix v (s.bufBytes .finalcw 0 (totalCw v)))
      .ok { t with mside := BitVec.ofNat 8 (side v), status := s.status.placeCompletes }
    else .error { code := errAssemblyOverflow, stage := 3#3 }
  else .error { code := errBadParam, stage := 3#3 }

end Sys2Proof.Machine
end

