-- ==== Sys2Proof/Machine/MaskSelector.lean ====
section
/-! DEFINITION. MASK, the mask evaluator and selector, with the format and version information
(44_mask.md). -/

namespace Sys2Proof.Machine

/-! ## Format and version information -/

/-- WriteFormat: where bit `i` of the format word goes, with the dark module rewritten last
(44_mask.md R253). -/
def formatCells (n f : Nat) : List ((Nat × Nat) × Bool) :=
  ([0, 1, 2, 3, 4, 5].map fun i => ((i, 8), f.testBit i))
    ++ [((7, 8), f.testBit 6), ((8, 8), f.testBit 7), ((8, 7), f.testBit 8)]
    ++ ([9, 10, 11, 12, 13, 14].map fun i => ((8, 14 - i), f.testBit i))
    ++ ([0, 1, 2, 3, 4, 5, 6, 7].map fun i => ((8, n - 1 - i), f.testBit i))
    ++ ([8, 9, 10, 11, 12, 13, 14].map fun i => ((n - 15 + i, 8), f.testBit i))
    ++ [((n - 8, 8), true)]

/-- WriteVersion: where bit `i` of the version word goes, in both blocks (44_mask.md R255). -/
def versionCells (n w : Nat) : List ((Nat × Nat) × Bool) :=
  (List.range 18).flatMap fun i =>
    [((i / 3, n - 11 + i % 3), w.testBit i), ((n - 11 + i % 3, i / 3), w.testBit i)]

/-- Candidate(m) of version `v` and level `l` (44_mask.md R243): the data modules of `p` XORed with the
mask, function modules copied, then the format and version information. -/
def candidate (v : Nat) (l : Level) (fn p : Matrix) (m : Nat) : Matrix :=
  let n := side v
  let masked := Matrix.build n fun r c => if !fn.at r c && maskFn m r c then !p.at r c else p.at r c
  let c := masked.putAll (formatCells n (formatWord l m))
  if 7 ≤ v then c.putAll (versionCells n (versionWord v)) else c

/-! ## Penalty -/

/-- The score of a maximal run of `len` equal modules (44_mask.md R246). -/
def runScore (len : Nat) : Nat := if 5 ≤ len then weightN1 + (len - 5) else 0

/-- The scores of the runs of a line whose current run is `len` modules of colour `prev`. -/
def runsFrom (prev : Bool) (len : Nat) : List Bool → Nat
  | [] => runScore len
  | b :: bs => if b = prev then runsFrom prev (len + 1) bs else runScore len + runsFrom b 1 bs

/-- Σ over the runs of a line (44_mask.md R246). -/
def lineRuns : List Bool → Nat
  | [] => 0
  | b :: bs => runsFrom b 1 bs

/-- The 2N lines: the rows, then the columns (44_mask.md R246). -/
def Matrix.lines (m : Matrix) (n : Nat) : List (List Bool) := m ++ m.columns n

/-- P1, the runs of five or more (44_mask.md R246). -/
def penaltyN1 (n : Nat) (m : Matrix) : Nat := ((m.lines n).map lineRuns).sum

/-- The monochrome 2×2 windows of two adjacent rows (44_mask.md R247). -/
def rowPairBlocks : List Bool → List Bool → Nat
  | a :: b :: as, c :: d :: cs =>
    (if a = b ∧ a = c ∧ a = d then 1 else 0) + rowPairBlocks (b :: as) (d :: cs)
  | _, _ => 0

/-- P2, the monochrome 2×2 windows, overlapping ones each counted (44_mask.md R247). -/
def penaltyN2 (m : Matrix) : Nat := weightN2 * (List.zipWith rowPairBlocks m m.tail).sum

/-- PAT_A (44_mask.md R248). -/
def patternA : List Bool := [true, false, true, true, true, false, true, false, false, false, false]

/-- PAT_B (44_mask.md R248). -/
def patternB : List Bool := [false, false, false, false, true, false, true, true, true, false, true]

/-- The windows of a line that match PAT_A or PAT_B (44_mask.md R248). -/
def finderLike : List Bool → Nat
  | [] => 0
  | b :: bs =>
    (if patternA.isPrefixOf (b :: bs) then 1 else 0) + (if patternB.isPrefixOf (b :: bs) then 1 else 0)
      + finderLike bs

/-- P3, the finder-like sequences (44_mask.md R248). -/
def penaltyN3 (n : Nat) (m : Matrix) : Nat := weightN3 * ((m.lines n).map finderLike).sum

/-- P4, the imbalance in whole 5 % steps (44_mask.md R249). -/
def penaltyN4 (n : Nat) (m : Matrix) : Nat :=
  weightN4 * (gap (20 * m.dark) (10 * (n * n)) / (n * n))

/-- Penalty(C) of an n × n candidate (44_mask.md R249). -/
def penaltyOf (n : Nat) (m : Matrix) : Nat :=
  penaltyN1 n m + penaltyN2 m + penaltyN3 n m + penaltyN4 n m

/-! ## Selection -/

/-- m*: the least index whose score is minimal (44_mask.md R250). -/
def selectMask (scores : List Nat) : Nat :=
  ((List.range scores.length).find? fun m => scores.all fun t => decide (scores.getD m 0 ≤ t)).getD 0

/-- PENALTY0..PENALTY7 from the eight scores (44_mask.md R257). -/
def penaltiesOf (scores : List Nat) : Penalties :=
  let word := fun m => BitVec.ofNat 32 (scores.getD m 0)
  { p0 := word 0, p1 := word 1, p2 := word 2, p3 := word 3, p4 := word 4, p5 := word 5, p6 := word 6, p7 := word 7 }

/-- The MASK body at the ENGINE completion step (44_mask.md R259). -/
def maskBody (s : State) : Except CommandError State :=
  if s.status.vPlace then
    let v := s.symbol.version.toNat
    let l := Level.ofCode s.symbol.level
    let n := side v
    let fn := s.readMatrix .funcmap n
    let p := s.readMatrix .placed n
    let cands := (List.range 8).map (candidate v l fn p)
    let scores := cands.map (penaltyOf n)
    let best := selectMask scores
    let c := cands.getD best []
    let t := s.writeMatrix .matrix c
    .ok
      { t with
        symbol := { s.symbol with mask := BitVec.ofNat 3 best }
        formatBits := BitVec.ofNat 15 (formatWord l best)
        versionBits := if 7 ≤ v then BitVec.ofNat 18 (versionWord v) else 0#18
        penalty := penaltiesOf scores
        penTerms :=
          { n1 := BitVec.ofNat 32 (penaltyN1 n c), n2 := BitVec.ofNat 32 (penaltyN2 c),
            n3 := BitVec.ofNat 32 (penaltyN3 n c), n4 := BitVec.ofNat 32 (penaltyN4 n c) }
        status := s.status.maskCompletes }
  else .error { code := errStageOrder, stage := 4#3 }

end Sys2Proof.Machine
end

