-- ==== Sys2Proof/Machine/Packer.lean ====
section
/-! DEFINITION. PACK, the bit-stream packer (41_packer.md). -/

namespace Sys2Proof.Machine

/-- Fits(V, L, n) (41_packer.md R152). -/
def fits (v : Nat) (l : Level) (n : Nat) : Bool := decide (4 + ccBits v + 8 * n ≤ 8 * dataCodewords v l)

/-- ChooseVersion(L, n): the least V in 1..40 with Fits(V, L, n) (41_packer.md R152). -/
def chooseVersion (l : Level) (n : Nat) : Option Nat :=
  ((List.range 40).map (· + 1)).find? fun v => fits v l n

/-- MAX_PAYLOAD, the capacity of version 40-L (41_packer.md R152, R162). -/
def maxPayload : Nat := 2953

/-- `k` pad bytes, cyclically 0xEC, 0x11, the first 0xEC (41_packer.md R156). -/
def padBytes (k : Nat) : List Byte := (List.range k).map fun i => if i % 2 = 0 then 0xEC#8 else 0x11#8

/-- The mode indicator, the character count and the payload (41_packer.md R153-R155). -/
def headerAndPayload (v : Nat) (p : List Byte) : List Bool :=
  putBits 0b0100 4 ++ putBits p.length (ccBits v) ++ p.flatMap bitsOfByte

/-- Append the terminator, as many of its four bits as room remains for, then zero bits to a byte boundary
(41_packer.md R156). -/
def terminated (c : Nat) (b : List Bool) : List Bool :=
  let t := b ++ List.replicate (min 4 (c - b.length)) false
  t ++ List.replicate ((8 - t.length % 8) % 8) false

/-- The packed stream B of payload `p` at version `v` and level `l` (41_packer.md R150, R156). -/
def packStream (v : Nat) (l : Level) (p : List Byte) : List Bool :=
  let t := terminated (8 * dataCodewords v l) (headerAndPayload v p)
  t ++ (padBytes (dataCodewords v l - t.length / 8)).flatMap bitsOfByte

/-- The PACK body at the ENGINE completion step (41_packer.md R157). -/
def packBody (s : State) : Except CommandError State :=
  let n := s.inLen.toNat
  let l := Level.ofCode s.config.level
  if maxPayload < n then .error { code := errPayloadTooLarge, stage := 1#3 }
  else
    match chooseVersion l n with
    | none => .error { code := errPayloadTooLarge, stage := 1#3 }
    | some v =>
      let t := s.writeBuf .datacw 0 (codewordsOf (packStream v l (s.bufBytes .inbuf 0 n)))
      .ok
        { t with
          symbol := { version := BitVec.ofNat 6 v, level := s.config.level, mask := s.symbol.mask }
          dataCount := BitVec.ofNat 12 (dataCodewords v l)
          status := s.status.packCompletes }

end Sys2Proof.Machine
end

