-- ==== Sys2Proof/Machine/ReedSolomon.lean ====
section
/-! DEFINITION. ECC and RS: the field GF(256), the Reed-Solomon parity of a block, the block split and the
interleaver (42_rs_ecc.md). -/

namespace Sys2Proof.Machine

/-! ## The field -/

/-- GF_POLY, x⁸ + x⁴ + x³ + x² + 1 (42_rs_ecc.md R170). -/
def gfPoly : BitVec 9 := 0x11D#9

/-- One round of the multiplication: shift, reduce, and add `a` if bit `i` of `b` is 1 (42_rs_ecc.md R171). -/
def gfMulStep (a b : Byte) (p : BitVec 9) (i : Nat) : BitVec 9 :=
  let q := p <<< 1
  let q := if q.getLsbD 8 then q ^^^ gfPoly else q
  if b.getLsbD i then q ^^^ a.setWidth 9 else q

/-- a ⊗ b (42_rs_ecc.md R171). -/
def gfMul (a b : Byte) : Byte := ([7, 6, 5, 4, 3, 2, 1, 0].foldl (gfMulStep a b) 0#9).setWidth 8

/-- EXP[i] = αⁱ with α = 0x02 (42_rs_ecc.md R172). -/
def gfExp : Nat → Byte
  | 0 => 0x01#8
  | i + 1 => gfMul (gfExp i) 0x02#8

/-! ## Generator polynomial and parity -/

/-- The polynomial `g`, highest degree first, times (x + a) (42_rs_ecc.md R174). -/
def mulLinear (g : List Byte) (a : Byte) : List Byte :=
  List.zipWith (fun x y => x ^^^ y) (g ++ [0x00#8]) (0x00#8 :: g.map fun c => gfMul c a)

/-- Gen(e), highest degree first (42_rs_ecc.md R174). -/
def genPoly : Nat → List Byte
  | 0 => [0x01#8]
  | e + 1 => mulLinear (genPoly e) (gfExp e)

/-- One data codeword `d` of the division: f = d ⊕ r[0], shift, and add f·g (42_rs_ecc.md R178). -/
def parityStep (g : List Byte) (r : List Byte) (d : Byte) : List Byte :=
  let f := d ^^^ r.headD 0x00#8
  List.zipWith (fun x y => x ^^^ gfMul y f) (r.tail ++ [0x00#8]) g.tail

/-- RsParity(d, e) (42_rs_ecc.md R178). -/
def rsParity (d : List Byte) (e : Nat) : List Byte :=
  d.foldl (parityStep (genPoly e)) (List.replicate e 0x00#8)

/-! ## Block split and interleave -/

/-- Data codewords in a short block (42_rs_ecc.md R180). -/
def shortBlock (v : Nat) (l : Level) : Nat := totalCw v / blockCount v l - eccPerBlock v l

/-- The number of long blocks (42_rs_ecc.md R180). -/
def longBlocks (v : Nat) (l : Level) : Nat := totalCw v % blockCount v l

/-- The data codeword counts of the blocks, short blocks first (42_rs_ecc.md R180). -/
def blockSizes (v : Nat) (l : Level) : List Nat :=
  List.replicate (blockCount v l - longBlocks v l) (shortBlock v l)
    ++ List.replicate (longBlocks v l) (shortBlock v l + 1)

/-- Cut a list into consecutive blocks of the given sizes (42_rs_ecc.md R180). -/
def cutBlocks : List Nat → List Byte → List (List Byte)
  | [], _ => []
  | k :: ks, d => d.take k :: cutBlocks ks (d.drop k)

/-- Read blocks column by column for `n` columns: a block that has run out contributes nothing
(42_rs_ecc.md R183). -/
def roundRobin (n : Nat) (blocks : List (List Byte)) : List Byte :=
  (List.range n).flatMap fun i => blocks.filterMap fun blk => blk[i]?

/-- The final codeword sequence F of the data codewords `d` (42_rs_ecc.md R180, R181, R183). -/
def finalSequence (v : Nat) (l : Level) (d : List Byte) : List Byte :=
  let blocks := cutBlocks (blockSizes v l) d
  let e := eccPerBlock v l
  roundRobin (shortBlock v l + (if 0 < longBlocks v l then 1 else 0)) blocks
    ++ roundRobin e (blocks.map fun blk => rsParity blk e)

/-! ## The commands -/

/-- The ECC body at the ENGINE completion step (42_rs_ecc.md R186). -/
def eccBody (s : State) : Except CommandError State :=
  let v := s.symbol.version.toNat
  let l := Level.ofCode s.symbol.level
  if isVersion v then
    let d := dataCodewords v l
    let t := s.writeBuf .finalcw 0 (finalSequence v l (s.bufBytes .datacw 0 d))
    .ok
      { t with
        cwCount := BitVec.ofNat 12 (totalCw v)
        dataCount := BitVec.ofNat 12 d
        status := s.status.eccCompletes }
  else .error { code := errBadParam, stage := 2#3 }

/-- The RS parameter check (42_rs_ecc.md R190). -/
def rsParamOk (k e : Nat) : Bool :=
  decide (1 ≤ k) && decide (k ≤ 254) && decide (1 ≤ e) && decide (k + e ≤ 255)

/-- The RS body at the ENGINE completion step (42_rs_ecc.md R191). -/
def rsBody (s : State) : Except CommandError State :=
  let k := s.rsParam.k.toNat
  let e := s.rsParam.e.toNat
  if rsParamOk k e then .ok (s.writeBuf .rsout 0 (rsParity (s.bufBytes .datacw 0 k) e))
  else .error { code := errBadParam, stage := 6#3 }

end Sys2Proof.Machine
end

