-- ==== Sys2Proof/Machine/Engine.lean ====
section
/-! DEFINITION. The ENGINE's completion step (40_host_bus.md R137), the ENCODE chain (45_encode_render.md
R280), the reset step (70_reset_and_hazards.md R340) and how a step's instruction is fetched. -/

namespace Sys2Proof.Machine

/-- The ENCODE body: the four bodies in order, each reading what the previous one wrote; the first error
ends it (45_encode_render.md R280). -/
def encodeBody (s : State) : Except CommandError State :=
  match packBody s with
  | .error e => .error e
  | .ok s1 =>
    match eccBody s1 with
    | .error e => .error e
    | .ok s2 =>
      match placeBody s2 with
      | .error e => .error e
      | .ok s3 => maskBody s3

/-- Exec(op, state): the outputs and the stage-valid row written, or one error (40_host_bus.md R137).  No
other opcode is ever pending (assumption log 9). -/
def commandBody (op : BitVec 4) (s : State) : Except CommandError State :=
  match op.toNat with
  | 1 => packBody s
  | 2 => eccBody s
  | 3 => placeBody s
  | 4 => maskBody s
  | 5 => encodeBody s
  | 6 => vectorBody s
  | 7 => rsBody s
  | _ => .error { code := errIllegalCommand, stage := 0#3 }

/-- The ENGINE completion step, when enabled (40_host_bus.md R137): all outputs at once, or the error end
of the state from before the command (60_exceptions.md R314, R315). -/
def State.engineComplete (s : State) : State :=
  match commandBody s.pendingOp s with
  | .ok t => t.complete
  | .error e => s.errorEnd e

/-- The ENGINE's turn: its one step, which is enabled iff BUSY (40_host_bus.md R137). -/
def State.engineTurn (s : State) : State := if s.status.busy then s.engineComplete else s

/-- Draw the contents of every buffer anew, by draw `d` (70_reset_and_hazards.md R341). -/
def State.redrawBuffers (s : State) (d : Nat) : State :=
  { s with
    inbuf := Buffer.unspecified d, datacw := Buffer.unspecified d, finalcw := Buffer.unspecified d
    rsout := Buffer.unspecified d, funcmap := Buffer.unspecified d, placed := Buffer.unspecified d
    matrix := Buffer.unspecified d, vecbuf := Buffer.unspecified d }

/-- The reset input (70_reset_and_hazards.md R340, R341, R360): every register as after reset, every buffer
drawn anew, a pending command dropped.  The coming turns are the outside's and stay. -/
def State.resetTurn (s : State) : State :=
  { State.reset.redrawBuffers s.nextDraw with turns := s.turns, nextDraw := s.nextDraw + 1 }

/-- The next turn and the state with it taken from the schedule. -/
def State.nextTurn (s : State) : Option (Turn × State) :=
  match s.turns with
  | [] => none
  | t :: ts => some (t, { s with turns := ts })

end Sys2Proof.Machine
end

