-- ==== Sys2Proof/Machine/Step.lean ====
section
/-! DEFINITION. One step of the run (00_scope.md R9, R17): the next scheduled turn, HOST, ENGINE or reset.
With no turn scheduled the ENGINE completes a pending command, and an idle QRE waits
(70_reset_and_hazards.md R342, R361; assumption log 4). -/

namespace Sys2Proof.Machine

/-- One step. -/
def step (s : State) : Host.Outcome State Fault Refusal :=
  match s.nextTurn with
  | none => .next s.engineTurn
  | some (.engine, t) => .next t.engineTurn
  | some (.reset, t) => .next t.resetTurn
  | some (.host bytes, t) =>
    match decode bytes with
    | some i => exec i t
    | none => .refused .notATransaction

/-- The state whose next turn is the HOST step of the instruction word `w` of an opcode-table row of `nbits`
bits: its bytes stand first in the schedule, where step takes its next instruction. -/
def State.withFetchWord (s : State) (nbits w : Nat) : State :=
  { s with turns := .host (tableBytes nbits w) :: s.turns }

end Sys2Proof.Machine
end

