-- ==== Sys2Proof/Safety.lean ====
section
/-! DEFINITION. The terms claims about runs are stated in: the invariants of the machine, and the state a
command's end leaves besides its outputs, written from 10_state.md and 40_host_bus.md alone. -/

namespace Sys2Proof.Machine

/-! ## Invariants -/

/-- The stored bytes of every buffer are in canonical form and inside the buffer, and the draw that gives
the others has been taken. -/
structure MemoryInv (s : State) : Prop where
  canonical : ∀ b : BufId, Memory.wf (s.buf b).cells
  inside : ∀ b : BufId, ∀ c ∈ (s.buf b).cells, c.1 < b.storedSize
  drawn : ∀ b : BufId, (s.buf b).draw < s.nextDraw

/-- 10_state.md R24: at most one of DONE, ERROR and ABORTED is 1 and none while BUSY; the pending command of
a busy QRE is a stage command; an error is recorded by a code and a stage that exist, and no error by 0
(60_exceptions.md R310, R311). -/
structure OutcomeInv (s : State) : Prop where
  exclusive : (s.status.busy.toNat + s.status.done.toNat + s.status.error.toNat + s.status.aborted.toNat) ≤ 1
  pending : s.status.busy = true → 1 ≤ s.pendingOp.toNat ∧ s.pendingOp.toNat ≤ 7
  noError : s.status.error = false → s.status.errcode = 0#4 ∧ s.status.errstage = 0#3
  anError : s.status.error = true →
    1 ≤ s.status.errcode.toNat ∧ s.status.errcode.toNat ≤ 5 ∧ s.status.errstage.toNat ≤ 6

/-- The WARL fields hold legal values (10_state.md R29, R42). -/
structure LegalFieldsInv (s : State) : Prop where
  quietZone : 4 ≤ s.config.qz.toNat
  rasterMin : 1 ≤ s.rasterSize.toNat
  rasterMax : s.rasterSize.toNat ≤ 4096

/-- What a stage-valid flag vouches for (10_state.md R57, 44_mask.md R258, 45_encode_render.md R290): a placed
symbol has a version and its side, a finished one was placed, a vector form is of a finished one. -/
structure StageInv (s : State) : Prop where
  version : s.status.vPlace = true → 1 ≤ s.symbol.version.toNat ∧ s.symbol.version.toNat ≤ 40
  mside : s.status.vPlace = true → s.mside.toNat = 4 * s.symbol.version.toNat + 17
  maskPlaced : s.status.vMask = true → s.status.vPlace = true
  vecMasked : s.status.vVec = true → s.status.vMask = true

/-- What the registers say of a finished symbol (44_mask.md R257, R259): FORMAT_BITS and VERSION_BITS are
those of SYMBOL, and PENALTY[SYMBOL.MASK] is the sum of its four terms. -/
structure SymbolInv (s : State) : Prop where
  format : s.status.vMask = true →
    s.formatBits = BitVec.ofNat 15 (formatWord (Level.ofCode s.symbol.level) s.symbol.mask.toNat)
  versionBits : s.status.vMask = true →
    s.versionBits = if 7 ≤ s.symbol.version.toNat then BitVec.ofNat 18 (versionWord s.symbol.version.toNat) else 0#18
  penaltySum : s.status.vMask = true →
    s.penalty.get s.symbol.mask.toNat = s.penTerms.n1 + s.penTerms.n2 + s.penTerms.n3 + s.penTerms.n4

/-- FUNCMAP after a PLACE is a function of the version alone (43_assembler.md R229, R231), as long as V_PLACE
vouches for it. -/
structure FunctionMapInv (s : State) : Prop where
  version : s.status.vPlace = true → isVersion s.symbol.version.toNat = true
  layout : s.status.vPlace = true → ∀ r c, r < sideMax → c < sideMax →
    s.module .funcmap r c =
      (decide (r < side s.symbol.version.toNat) && decide (c < side s.symbol.version.toNat)
        && isFunction s.symbol.version.toNat r c)

/-! ## The end of a command -/

/-- A state that differs from `s` only as every command `op` accepted while idle, with the ENGINE's turn
next, ends without error: the record of acceptance (40_host_bus.md R133), then of completion (R137).
`ts` are the turns still to come. -/
def State.afterOk (s : State) (op : BitVec 4) (ts : List Turn) : State :=
  { s with
    lastOp := op, pendingOp := op, pendingTag := s.jobTag, resultTag := s.jobTag
    irqPend := { doneP := true, errP := s.irqPend.errP }
    status :=
      { s.status with
        busy := false, done := true, error := false, aborted := false, errcode := 0#4, errstage := 0#3
        wrIgnored := false }
    turns := ts
    resp := { err := false, data := 0#32 } }

/-- The same for a command that ends in error `code` at `stage` (60_exceptions.md R314), but for the row of
the stage-valid flags. -/
def State.afterError (s : State) (op : BitVec 4) (code : BitVec 4) (stage : BitVec 3) (ts : List Turn) : State :=
  { s with
    lastOp := op, pendingOp := op, pendingTag := s.jobTag, resultTag := s.jobTag
    irqPend := { doneP := s.irqPend.doneP, errP := true }
    status :=
      { s.status with
        busy := false, done := false, error := true, aborted := false, errcode := code, errstage := stage
        wrIgnored := false }
    turns := ts
    resp := { err := false, data := 0#32 } }

/-- Set the stage-valid flags V_PACK, V_ECC, V_PLACE, V_MASK, V_VEC (10_state.md R57). -/
def State.withStages (s : State) (pack ecc place mask vec : Bool) : State :=
  { s with
    status := { s.status with vPack := pack, vEcc := ecc, vPlace := place, vMask := mask, vVec := vec } }

/-- `s` and `t` hold the same bytes in buffer `b` as a read sees them. -/
def sameWindow (b : BufId) (s t : State) : Prop := ∀ k, k < b.windowSize → s.windowByte b k = t.windowByte b k

/-- Word `j` of VECBUF, little-endian (30_encoding.md R112). -/
def State.vecWord (s : State) (j : Nat) : Word :=
  wordOfBytes (s.bufByte .vecbuf (4 * j)) (s.bufByte .vecbuf (4 * j + 1)) (s.bufByte .vecbuf (4 * j + 2))
    (s.bufByte .vecbuf (4 * j + 3))

/-- The value at `x` of the polynomial `p` over GF(256), highest degree first (42_rs_ecc.md R179). -/
def gfEval (p : List Byte) (x : Byte) : Byte := p.foldl (fun acc c => gfMul acc x ^^^ c) 0x00#8

end Sys2Proof.Machine
end

