-- ==== Sys2Proof/Certificates/Slice0/Obligations.lean ====
section
/-! DEFINITION. The statements for the provers.  Each is a Prop; OBLIGATIONS.json lists them with the rules
they rest on.  A statement about a stage command says of one command what a host sees of it: issued while
idle, with the ENGINE's turn next, it is accepted by the HOST step and completed by the next step.  In all of
them the field `turns` is the model's form of the free schedule (assumption log 4) and the field `resp` its
record of the bus response, whose data is 0 for a write (assumption log 6). -/

open Sys2Proof Sys2Proof.Machine

/-! ## Decoding, encoding, and the step -/

/-- For every well-formed instruction, with every operand at every value, decoding its encoding gives it
back: no bit of an encoding is dropped (30_encoding.md R100, R101, R103).  The layout of the bytes is the
model's own (assumption log 5). -/
def Obligations.DecodeOfEncodeIsTheInstruction : Prop :=
  ∀ i : Instr, i.wf = true → decode (encode i) = some i

/-- 30_encoding.md R114: decoding a command word is total, by its low four bits alone, and a word with a
reserved opcode has the ILLEGAL_COMMAND behaviour. -/
def Obligations.EveryCommandWordDecodesByItsOpcode : Prop :=
  ∀ w : Word,
    (∃ i, decode (bytesOfWord w) = some i ∧
      [Instr.nop, .pack, .ecc, .place, .mask, .encode, .vector, .rs, .reserved8, .reserved9, .reservedA,
        .reservedB, .reservedC, .reservedD, .reservedE, .abort][w.toNat % 16]? = some i) ∧
    (8 ≤ w.toNat % 16 → w.toNat % 16 ≤ 14 → ∀ s : State, s.status.busy = false →
      ∃ i t, decode (bytesOfWord w) = some i ∧ exec i s = .next t ∧ t.status.error = true ∧
        t.status.errcode = 3#4 ∧ t.status.errstage = 0#3)

/-- 30_encoding.md R103: the six descriptors, and no other, are transactions; the step refuses the others.
How a descriptor is laid out as bytes is the model's own choice (assumption log 5). -/
def Obligations.BusDescriptorsDecode : Prop :=
  ∀ (d : Byte) (addr wdata : Word),
    (decode (d :: (bytesOfWord addr ++ bytesOfWord wdata)) =
      if d = 0x00#8 then some (.r8 addr)
      else if d = 0x01#8 then some (.r16 addr)
      else if d = 0x02#8 then some (.r32 addr)
      else if d = 0x08#8 then some (.w8 addr (BitVec.ofNat 32 (wdata.toNat % 256)))
      else if d = 0x09#8 then some (.w16 addr (BitVec.ofNat 32 (wdata.toNat % 65536)))
      else if d = 0x0A#8 then some (.w32 addr wdata)
      else none) ∧
    (d ∉ [0x00#8, 0x01#8, 0x02#8, 0x08#8, 0x09#8, 0x0A#8] → ∀ (s : State) (ts : List Turn),
      s.turns = .host (d :: (bytesOfWord addr ++ bytesOfWord wdata)) :: ts →
        step s = .refused .notATransaction)

/-- Words written out from 30_encoding.md R101 and R103 decode to what they stand for. -/
def Obligations.WrittenOutWordsDecode : Prop :=
  decode [0x00#8, 0x00#8, 0x00#8, 0x00#8] = some .nop ∧
  decode [0xF0#8, 0xFF#8, 0xFF#8, 0xFF#8] = some .nop ∧
  decode [0x01#8, 0x00#8, 0x00#8, 0x00#8] = some .pack ∧
  decode [0x15#8, 0x00#8, 0x00#8, 0x00#8] = some .encode ∧
  decode [0x06#8, 0x00#8, 0x00#8, 0x00#8] = some .vector ∧
  decode [0x09#8, 0x00#8, 0x00#8, 0x00#8] = some .reserved9 ∧
  decode [0x0F#8, 0x00#8, 0x00#8, 0x00#8] = some .abort ∧
  decode [0x02#8, 0x00#8, 0xA0#8, 0x00#8, 0x00#8, 0x00#8, 0x00#8, 0x00#8, 0x00#8] = some (.r32 0x0000A000#32) ∧
  decode [0x09#8, 0x02#8, 0x20#8, 0x00#8, 0x00#8, 0xAA#8, 0xBB#8, 0x00#8, 0x00#8]
    = some (.w16 0x00002002#32 0x0000BBAA#32) ∧
  decode [0x0A#8, 0x18#8, 0x00#8, 0x00#8, 0x00#8, 0x13#8, 0x00#8, 0x00#8, 0x00#8]
    = some (.w32 0x00000018#32 0x00000013#32) ∧
  decode [0x03#8, 0x00#8, 0x00#8, 0x00#8, 0x00#8, 0x00#8, 0x00#8, 0x00#8, 0x00#8] = none

/-- A step runs the scheduled turn: a HOST turn whose bytes decode runs exactly that instruction, bytes that
are no instruction are refused, and the ENGINE's turn does nothing while idle (00_scope.md R9, 40_host_bus.md
R137).  That an idle QRE with no turn scheduled waits, and that a busy one completes, is the model's choice of
schedule (assumption log 4). -/
def Obligations.StepTakesTheNextTurn : Prop :=
  ∀ (s : State) (ts : List Turn),
    (∀ bytes i, s.turns = .host bytes :: ts → decode bytes = some i →
      step s = exec i { s with turns := ts }) ∧
    (∀ bytes, s.turns = .host bytes :: ts → decode bytes = none → step s = .refused .notATransaction) ∧
    (s.turns = .engine :: ts → s.status.busy = false → step s = .next { s with turns := ts }) ∧
    (s.turns = [] → s.status.busy = false → step s = .next s) ∧
    (s.turns = [] → s.status.busy = true → step s = step { s with turns := [.engine] })

/-- 30_encoding.md R100: a command is a 32-bit write to CMD, whose only field is OPCODE: bits [31:4] select
nothing, and no bus error results. -/
def Obligations.CommandIsTheWriteToCmd : Prop :=
  ∀ (w : Word) (s : State),
    exec (.w32 0x00000004#32 w) s = exec (commandOf (w.extractLsb' 0 4)) s ∧
    (∀ v : Word, w.toNat % 16 = v.toNat % 16 → exec (.w32 0x00000004#32 w) s = exec (.w32 0x00000004#32 v) s) ∧
    ∃ t, exec (.w32 0x00000004#32 w) s = .next t ∧ t.resp = { err := false, data := 0#32 }

/-! ## Commands: NOP, acceptance, dropping, ABORT -/

/-- 40_host_bus.md R138: NOP changes no state, idle or BUSY, whatever its ignored bits. -/
def Obligations.NopChangesNoState : Prop :=
  ∀ (s : State) (w : Word),
    exec .nop s = .next { s with resp := { err := false, data := 0#32 } } ∧
    (w.toNat % 16 = 0 →
      exec (.w32 0x00000004#32 w) s = .next { s with resp := { err := false, data := 0#32 } })

/-- 40_host_bus.md R133 and R139: while idle each stage command is accepted, with exactly these changes, and a
reserved opcode ends at once in ILLEGAL_COMMAND, BUSY never 1; while BUSY a reserved opcode is dropped. -/
def Obligations.IdleCommandIsAccepted : Prop :=
  ∀ s : State,
    (s.status.busy = false →
      (∀ i op, (i, op) ∈ [(Instr.pack, 1#4), (.ecc, 2#4), (.place, 3#4), (.mask, 4#4), (.encode, 5#4),
          (.vector, 6#4), (.rs, 7#4)] →
        exec i s = .next
          { s with
            lastOp := op, pendingOp := op, pendingTag := s.jobTag
            status :=
              { s.status with
                busy := true, done := false, error := false, aborted := false, errcode := 0#4, errstage := 0#3
                wrIgnored := false }
            resp := { err := false, data := 0#32 } }) ∧
      (∀ i op, (i, op) ∈ [(Instr.reserved8, 8#4), (.reserved9, 9#4), (.reservedA, 10#4), (.reservedB, 11#4),
          (.reservedC, 12#4), (.reservedD, 13#4), (.reservedE, 14#4)] →
        exec i s = .next
          { s with
            lastOp := op, pendingTag := s.jobTag, resultTag := s.jobTag
            irqPend := { doneP := s.irqPend.doneP, errP := true }
            status :=
              { s.status with
                busy := false, done := false, error := true, aborted := false, errcode := 3#4, errstage := 0#3
                wrIgnored := false }
            resp := { err := false, data := 0#32 } })) ∧
    (s.status.busy = true →
      ∀ i, i ∈ [Instr.reserved8, .reserved9, .reservedA, .reservedB, .reservedC, .reservedD, .reservedE] →
        exec i s = .next
          { s with status := { s.status with wrIgnored := true }, resp := { err := false, data := 0#32 } })

/-- 40_host_bus.md R134: a CMD write while BUSY: NOP has no effect, ABORT is acted on, any other opcode is
dropped with WR_IGNORED and the pending command goes on unchanged. -/
def Obligations.CommandWriteWhileBusy : Prop :=
  ∀ s : State, s.status.busy = true →
    (∀ i, i ∈ [Instr.pack, .ecc, .place, .mask, .encode, .vector, .rs, .reserved8, .reserved9, .reservedA,
        .reservedB, .reservedC, .reservedD, .reservedE] →
      exec i s = .next
        { s with status := { s.status with wrIgnored := true }, resp := { err := false, data := 0#32 } }) ∧
    exec .nop s = .next { s with resp := { err := false, data := 0#32 } } ∧
    ∃ t, exec .abort s = .next t ∧ t.status.busy = false ∧ t.status.aborted = true

/-- 40_host_bus.md R135: ABORT while idle changes nothing.  While BUSY it ends the pending command: the STATUS
fields and the error row of the pending command (for ENCODE, PACK's), LAST_OP, and every location of the
command's WriteSet (R136) left at a free value, one fresh draw; IRQ_PEND, RESULT_TAG and all else kept.  That
the free values of one ABORT share one draw is the model's form (assumption logs 1, 2), and that the hidden
PENDING_OP and PENDING_TAG stay is its inference (log 13). -/
def Obligations.AbortEndsThePendingCommand : Prop :=
  ∀ s : State,
    (s.status.busy = false → exec .abort s = .next { s with resp := { err := false, data := 0#32 } }) ∧
    (s.status.busy = true → ∃ t, exec .abort s = .next t ∧
      (let p := s.pendingOp.toNat
       let d := s.nextDraw
       t.status =
        { busy := false, done := false, error := false, aborted := true, errcode := 0#4, errstage := 0#3
          vPack := s.status.vPack && !decide (p ∈ [1, 5])
          vEcc := s.status.vEcc && !decide (p ∈ [1, 2, 5])
          vPlace := s.status.vPlace && !decide (p ∈ [1, 2, 3, 5])
          vMask := s.status.vMask && !decide (p ∈ [1, 2, 3, 4, 5])
          vVec := s.status.vVec && !decide (p ∈ [1, 2, 3, 4, 5, 6])
          wrIgnored := s.status.wrIgnored } ∧
       t.lastOp = 0xF#4 ∧ t.irqPend = s.irqPend ∧ t.resultTag = s.resultTag ∧ t.irqEn = s.irqEn ∧
       t.config = s.config ∧ t.inLen = s.inLen ∧ t.jobTag = s.jobTag ∧ t.rsParam = s.rsParam ∧
       t.rasterSize = s.rasterSize ∧ t.colorDark = s.colorDark ∧ t.colorLight = s.colorLight ∧
       t.turns = s.turns ∧ t.pendingOp = s.pendingOp ∧ t.pendingTag = s.pendingTag ∧
       t.resp = { err := false, data := 0#32 } ∧
       t.symbol.version = (if p ∈ [1, 5] then drawnField d 0x024 0 6 else s.symbol.version) ∧
       t.symbol.level = (if p ∈ [1, 5] then drawnField d 0x024 8 2 else s.symbol.level) ∧
       t.symbol.mask = (if p ∈ [4, 5] then drawnField d 0x024 12 3 else s.symbol.mask) ∧
       t.dataCount = (if p ∈ [1, 2, 5] then drawnField d 0x028 0 12 else s.dataCount) ∧
       t.cwCount = (if p ∈ [2, 5] then drawnField d 0x02C 0 12 else s.cwCount) ∧
       t.mside = (if p ∈ [3, 5] then drawnField d 0x030 0 8 else s.mside) ∧
       t.formatBits = (if p ∈ [4, 5] then drawnField d 0x034 0 15 else s.formatBits) ∧
       t.versionBits = (if p ∈ [4, 5] then drawnField d 0x038 0 18 else s.versionBits) ∧
       t.vecCount = (if p ∈ [6] then drawnField d 0x040 0 16 else s.vecCount) ∧
       t.vecExtent = (if p ∈ [6] then drawnField d 0x044 0 8 else s.vecExtent) ∧
       (∀ m, m < 8 →
         t.penalty.get m = if p ∈ [4, 5] then drawnField d (0x060 + 4 * m) 0 32 else s.penalty.get m) ∧
       t.penTerms = (if p ∈ [4, 5] then
         { n1 := drawnField d 0x080 0 32, n2 := drawnField d 0x084 0 32, n3 := drawnField d 0x088 0 32
           n4 := drawnField d 0x08C 0 32 } else s.penTerms) ∧
       ∀ b ops, (b, ops) ∈ [(BufId.inbuf, []), (.datacw, [1, 5]), (.finalcw, [2, 5]), (.rsout, [7]),
           (.funcmap, [3, 5]), (.placed, [3, 5]), (.matrix, [4, 5]), (.vecbuf, [6])] →
         ∀ k, t.bufByte b k = if p ∈ ops then Config.unspecifiedByte d (b.base + k) else s.bufByte b k))

/-! ## The ENGINE's turn -/

/-- 40_host_bus.md R137, 70_reset_and_hazards.md R361: the ENGINE's turn ends the pending command, whatever it
is, by completion or by an error, with its tag in RESULT_TAG and its pending bit set. -/
def Obligations.EngineTurnEndsThePendingCommand : Prop :=
  ∀ (s : State) (ts : List Turn), s.turns = .engine :: ts → s.status.busy = true →
    ∃ u, step s = .next u ∧ u.status.busy = false ∧ u.turns = ts ∧ u.resultTag = s.pendingTag ∧
      u.lastOp = s.lastOp ∧ u.irqEn = s.irqEn ∧ u.resp = s.resp ∧
      ((u.status.done = true ∧ u.irqPend = { doneP := true, errP := s.irqPend.errP }) ∨
        (u.status.done = false ∧ u.status.error = true ∧
          u.irqPend = { doneP := s.irqPend.doneP, errP := true }))

/-- 60_exceptions.md R315: a command that ends in an error writes none of its outputs: only STATUS, IRQ_PEND
and RESULT_TAG change.  The premise that ERROR is 0 while BUSY is part of `OutcomeInv`. -/
def Obligations.ErrorEndWritesNoOutput : Prop :=
  ∀ (s u : State) (ts : List Turn), s.turns = .engine :: ts → s.status.busy = true → s.status.error = false →
    step s = .next u → u.status.error = true →
      u = { s with
            turns := ts
            status := u.status
            resultTag := s.pendingTag
            irqPend := { doneP := s.irqPend.doneP, errP := true } } ∧
      u.status.busy = false ∧ u.status.done = false ∧ u.status.aborted = false ∧
      u.status.wrIgnored = s.status.wrIgnored

/-- 60_exceptions.md R310, R311, R316 and 41_packer.md R162: when each pending command ends in an error, and
with which code and stage; otherwise it completes.  PLACE checks the version first.  The premise that ERROR is
0 while BUSY is part of `OutcomeInv`. -/
def Obligations.EngineErrsExactlyWhen : Prop :=
  ∀ (s u : State) (ts : List Turn), s.turns = .engine :: ts → s.status.busy = true → s.status.error = false →
    step s = .next u →
      let errs := fun (c : BitVec 4) (g : BitVec 3) =>
        u.status.error = true ∧ u.status.errcode = c ∧ u.status.errstage = g
      let completes := u.status.done = true ∧ u.status.error = false
      let p := s.pendingOp.toNat
      let v := s.symbol.version.toNat
      (p = 1 ∨ p = 5 →
        if [2953, 2331, 1663, 1273].getD s.config.level.toNat 0 < s.inLen.toNat then errs 1#4 1#3 else completes) ∧
      (p = 2 → if 1 ≤ v ∧ v ≤ 40 then completes else errs 5#4 2#3) ∧
      (p = 3 →
        if 1 ≤ v ∧ v ≤ 40 then (if s.cwCount.toNat = totalCw v then completes else errs 2#4 3#3)
        else errs 5#4 3#3) ∧
      (p = 4 → if s.status.vPlace = true then completes else errs 4#4 4#3) ∧
      (p = 6 → if s.status.vMask = true then completes else errs 4#4 5#3) ∧
      (p = 7 →
        if 1 ≤ s.rsParam.k.toNat ∧ s.rsParam.k.toNat ≤ 254 ∧ 1 ≤ s.rsParam.e.toNat
            ∧ s.rsParam.k.toNat + s.rsParam.e.toNat ≤ 255 then completes
        else errs 5#4 6#3)

/-! ## PACK -/

/-- 41_packer.md R157, R159: PACK chooses the least version that fits at CONFIG.LEVEL, writes the stream (mode
indicator, count, payload, terminator, pad bytes) to DATACW, and nothing else but SYMBOL.VERSION, SYMBOL.LEVEL
and DATA_COUNT; a payload above the capacity of version 40 ends in PAYLOAD_TOO_LARGE with nothing written. -/
def Obligations.PackCommandWritesTheStream : Prop :=
  ∀ (s : State) (ts : List Turn), s.status.busy = false → s.turns = .engine :: ts →
    let n := s.inLen.toNat
    let l := Level.ofCode s.config.level
    let cap := [2953, 2331, 1663, 1273].getD s.config.level.toNat 0
    ∃ t u, exec .pack s = .next t ∧ step t = .next u ∧
      (n ≤ cap → ∃ v, 1 ≤ v ∧ v ≤ 40 ∧
        let d := dataCodewords v l
        let cc := if v ≤ 9 then 8 else 16
        4 + cc + 8 * n ≤ 8 * d ∧
        (∀ w, 1 ≤ w → w < v → 8 * dataCodewords w l < 4 + (if w ≤ 9 then 8 else 16) + 8 * n) ∧
        u = { (s.afterOk 1#4 ts).withStages true false false false false with
              symbol := { version := BitVec.ofNat 6 v, level := s.config.level, mask := s.symbol.mask }
              dataCount := BitVec.ofNat 12 d
              datacw := u.datacw } ∧
        (u.bufBytes .datacw 0 d).flatMap bitsOfByte =
          [false, true, false, false] ++ putBits n cc ++ (s.bufBytes .inbuf 0 n).flatMap bitsOfByte
            ++ [false, false, false, false]
            ++ (List.range (d - (4 + cc + 8 * n + 4) / 8)).flatMap
                (fun i => bitsOfByte (if i % 2 = 0 then 0xEC#8 else 0x11#8)) ∧
        ∀ k, d ≤ k → u.bufByte .datacw k = s.bufByte .datacw k) ∧
      (cap < n → u = (s.afterError 1#4 1#4 1#3 ts).withStages false false false false false)

/-! ## ECC and RS -/

/-- 42_rs_ecc.md R180, R181, R183, R186: ECC cuts DATACW into blocks, short ones first, and writes to FINALCW
the data codewords round-robin, then the parity codewords of the blocks round-robin, given here codeword by
codeword; a version outside 1..40 ends in BAD_PARAM. -/
def Obligations.EccCommandInterleavesTheBlocks : Prop :=
  ∀ (s : State) (ts : List Turn), s.status.busy = false → s.turns = .engine :: ts →
    let v := s.symbol.version.toNat
    let l := Level.ofCode s.symbol.level
    let e := eccPerBlock v l
    let b := blockCount v l
    let total := totalCw v
    let kshort := total / b - e
    let nshort := b - total % b
    let size := fun i => if i < nshort then kshort else kshort + 1
    let start := fun i => i * kshort + (i - nshort)
    ∃ t u, exec .ecc s = .next t ∧ step t = .next u ∧
      (1 ≤ v → v ≤ 40 →
        u = { (s.afterOk 2#4 ts).withStages s.status.vPack true false false false with
              finalcw := u.finalcw
              cwCount := BitVec.ofNat 12 total
              dataCount := BitVec.ofNat 12 (total - b * e) } ∧
        (∀ i j, i < b → j < size i →
          u.bufByte .finalcw (if j < kshort then j * b + i else kshort * b + (i - nshort))
            = s.bufByte .datacw (start i + j)) ∧
        (∀ i j, i < b → j < e →
          u.bufByte .finalcw (total - b * e + j * b + i)
            = (rsParity (s.bufBytes .datacw (start i) (size i)) e).getD j 0#8) ∧
        ∀ k, total ≤ k → u.bufByte .finalcw k = s.bufByte .finalcw k) ∧
      (¬ (1 ≤ v ∧ v ≤ 40) → u = (s.afterError 2#4 5#4 2#3 ts).withStages s.status.vPack false false false false)

/-- 42_rs_ecc.md R190, R191: RS writes the parity of DATACW[0..K−1] to RSOUT[0..E−1] and nothing else, stage-valid
flags included; parameters outside their ranges end in BAD_PARAM. -/
def Obligations.RsCommandWritesTheParity : Prop :=
  ∀ (s : State) (ts : List Turn), s.status.busy = false → s.turns = .engine :: ts →
    let k := s.rsParam.k.toNat
    let e := s.rsParam.e.toNat
    ∃ t u, exec .rs s = .next t ∧ step t = .next u ∧
      (1 ≤ k ∧ k ≤ 254 ∧ 1 ≤ e ∧ k + e ≤ 255 →
        u = { s.afterOk 7#4 ts with rsout := u.rsout } ∧
        (rsParity (s.bufBytes .datacw 0 k) e).length = e ∧
        (∀ j, j < e → u.bufByte .rsout j = (rsParity (s.bufBytes .datacw 0 k) e).getD j 0#8) ∧
        ∀ j, e ≤ j → u.bufByte .rsout j = s.bufByte .rsout j) ∧
      (¬ (1 ≤ k ∧ k ≤ 254 ∧ 1 ≤ e ∧ k + e ≤ 255) → u = s.afterError 7#4 5#4 6#3 ts)

/-- 42_rs_ecc.md R179: the codeword made of the data and its parity is 0 at α⁰, …, α^(e−1). -/
def Obligations.RsCodewordHasTheGeneratorRoots : Prop :=
  ∀ (d : List Byte) (e i : Nat), i < e → gfEval (d ++ rsParity d e) (gfExp i) = 0x00#8

/-- 42_rs_ecc.md R191: one parity codeword is the ⊕ of all data codewords, because Gen(1) = x + 1. -/
def Obligations.OneParityCodewordIsTheXor : Prop :=
  ∀ d : List Byte, rsParity d 1 = [d.foldl (fun x y => x ^^^ y) 0x00#8]

/-- 42_rs_ecc.md R170-R172: ⊗ multiplies powers of α by adding exponents, α has order 255, its powers are the
nonzero bytes, and 0 ⊗ a = 0. -/
def Obligations.PowersOfAlphaMultiplyByAddingExponents : Prop :=
  (∀ i j, gfMul (gfExp i) (gfExp j) = gfExp (i + j)) ∧
  (∀ i, gfExp (i + 255) = gfExp i) ∧
  (∀ a : Byte, a ≠ 0x00#8 → ∃ i, i < 255 ∧ gfExp i = a) ∧
  (∀ a : Byte, gfMul 0x00#8 a = 0x00#8 ∧ gfMul a 0x00#8 = 0x00#8)

/-! ## PLACE -/

/-- 43_assembler.md R222, R224, R225, R226, R229, R230, 42_rs_ecc.md R175: PLACE checks the version, then
CW_COUNT = T(V), and then writes FUNCMAP, PLACED and MSIDE and nothing else: the layout's modules, the codeword
bits along ZigZag(V) most significant first, 0 in the remainder modules and in every stored bit outside N×N.
ZigZag(V) is written out from R224, column pairs from the right edge, the odd column 6 skipped, even pairs upward,
right column first; it holds every data module once, raw(V) of them, and T(V) = raw(V) div 8. -/
def Obligations.PlaceCommandAssemblesTheSymbol : Prop :=
  ∀ (s : State) (ts : List Turn), s.status.busy = false → s.turns = .engine :: ts →
    let v := s.symbol.version.toNat
    let n := 4 * v + 17
    let na := v / 7 + 2
    let raw := (16 * v + 128) * v + 64 - (if 2 ≤ v then (25 * na - 10) * na - 55 else 0) - (if 7 ≤ v then 36 else 0)
    let total := raw / 8
    let right := fun p => if 8 ≤ n - 1 - 2 * p then n - 1 - 2 * p else n - 2 - 2 * p
    let scan := (List.range ((n - 1) / 2)).flatMap fun p => (List.range n).flatMap fun k =>
      let r := if p % 2 = 0 then n - 1 - k else k
      [(r, right p), (r, right p - 1)]
    ∃ t u, exec .place s = .next t ∧ step t = .next u ∧
      (1 ≤ v → v ≤ 40 → s.cwCount.toNat = total →
        let seq := scan.filter fun m => !u.module .funcmap m.1 m.2
        u = { (s.afterOk 3#4 ts).withStages s.status.vPack s.status.vEcc true false false with
              funcmap := u.funcmap
              placed := u.placed
              mside := BitVec.ofNat 8 n } ∧
        (∀ r c, r < 177 → c < 177 →
          u.module .funcmap r c = (decide (r < n) && decide (c < n) && isFunction v r c)) ∧
        (∀ r c, r < 177 → c < 192 → ¬ (r < n ∧ c < n) →
          u.storedBit .funcmap r c = false ∧ u.storedBit .placed r c = false) ∧
        (∀ r c x, r < n → c < n → layout v r c = some x → u.module .placed r c = x) ∧
        seq.length = raw ∧ seq.Nodup ∧
        (∀ r c, (r, c) ∈ seq ↔ r < n ∧ c < n ∧ u.module .funcmap r c = false) ∧
        total = totalCw v ∧
        ∀ i r c, seq[i]? = some (r, c) →
          u.module .placed r c =
            if i < 8 * total then (s.bufByte .finalcw (i / 8)).getLsbD (7 - i % 8) else false) ∧
      (¬ (1 ≤ v ∧ v ≤ 40) →
        u = (s.afterError 3#4 5#4 3#3 ts).withStages s.status.vPack s.status.vEcc false false false) ∧
      (1 ≤ v → v ≤ 40 → s.cwCount.toNat ≠ total →
        u = (s.afterError 3#4 2#4 3#3 ts).withStages s.status.vPack s.status.vEcc false false false)

/-- 43_assembler.md R212-R214, R217-R219: after PLACE the finder patterns, separators, timing patterns, format
placeholders, dark module and version placeholders stand where the rules put them, and FUNCMAP marks them. -/
def Obligations.PlaceLaysTheFunctionPatterns : Prop :=
  ∀ (s : State) (ts : List Turn), s.status.busy = false → s.turns = .engine :: ts →
    let v := s.symbol.version.toNat
    let n := 4 * v + 17
    1 ≤ v → v ≤ 40 → s.cwCount.toNat = totalCw v →
    ∃ t u, exec .place s = .next t ∧ step t = .next u ∧
      (let laid := fun (r c : Nat) (x : Bool) => u.module .funcmap r c = true ∧ u.module .placed r c = x
       (∀ corner ∈ [(0, 0), (0, n - 7), (n - 7, 0)], ∀ y x, y ≤ 6 → x ≤ 6 →
          laid (corner.1 + y) (corner.2 + x)
            (decide (y ∈ [0, 6] ∨ x ∈ [0, 6] ∨ (2 ≤ y ∧ y ≤ 4 ∧ 2 ≤ x ∧ x ≤ 4)))) ∧
       (∀ j, j ≤ 7 → laid 7 j false ∧ laid j 7 false ∧ laid 7 (n - 8 + j) false ∧ laid j (n - 8) false ∧
          laid (n - 8) j false ∧ laid (n - 8 + j) 7 false) ∧
       (∀ j, 8 ≤ j → j ≤ n - 9 → laid 6 j (decide (j % 2 = 0)) ∧ laid j 6 (decide (j % 2 = 0))) ∧
       (∀ r ∈ [0, 1, 2, 3, 4, 5, 7, 8], laid r 8 false) ∧
       (∀ c ∈ [0, 1, 2, 3, 4, 5, 7], laid 8 c false) ∧
       (∀ j, j ≤ 7 → laid 8 (n - 8 + j) false) ∧
       (∀ j, j ≤ 6 → laid (n - 7 + j) 8 false) ∧
       laid (n - 8) 8 true ∧
       (7 ≤ v → ∀ i j, i ≤ 5 → j ≤ 2 → laid i (n - 11 + j) false ∧ laid (n - 11 + j) i false) ∧
       (v < 7 → ∀ i j, i ≤ 5 → j ≤ 2 →
          u.module .funcmap i (n - 11 + j) = false ∧ u.module .funcmap (n - 11 + j) i = false))

/-- 43_assembler.md R216: after PLACE a 5×5 alignment pattern stands at every pair of coordinates of
ALIGN_TABLE(V) but the three that coincide with finder patterns; they number k² − 3, and 0 for version 1. -/
def Obligations.PlaceLaysTheAlignmentPatterns : Prop :=
  ∀ (s : State) (ts : List Turn), s.status.busy = false → s.turns = .engine :: ts →
    let v := s.symbol.version.toNat
    let n := 4 * v + 17
    1 ≤ v → v ≤ 40 → s.cwCount.toNat = totalCw v →
    ∃ t u, exec .place s = .next t ∧ step t = .next u ∧
      (alignPairs v).length = (if v = 1 then 0 else (alignCentres v).length ^ 2 - 3) ∧
      ∀ a ∈ alignCentres v, ∀ b ∈ alignCentres v, (a, b) ∉ [(6, 6), (6, n - 7), (n - 7, 6)] →
        ∀ y x, y ≤ 4 → x ≤ 4 →
          u.module .funcmap (a + y - 2) (b + x - 2) = true ∧
          u.module .placed (a + y - 2) (b + x - 2) =
            decide ((y = 0 ∨ y = 4 ∨ x = 0 ∨ x = 4) ∨ (y = 2 ∧ x = 2))

/-! ## MASK -/

/-- 44_mask.md R250, R257, R259: MASK scores the eight candidates, selects the least index with the minimal
penalty, writes that candidate to MATRIX, its terms and all eight scores to the penalty registers, and nothing
but its own outputs; without V_PLACE it ends in STAGE_ORDER.  The version premise holds whenever V_PLACE does
(`StageInv`). -/
def Obligations.MaskCommandSelectsTheMinimum : Prop :=
  ∀ (s : State) (ts : List Turn), s.status.busy = false → s.turns = .engine :: ts →
    let v := s.symbol.version.toNat
    let l := Level.ofCode s.symbol.level
    let n := 4 * v + 17
    let cand := candidate v l (s.readMatrix .funcmap n) (s.readMatrix .placed n)
    ∃ t u, exec .mask s = .next t ∧ step t = .next u ∧
      (s.status.vPlace = true → 1 ≤ v → v ≤ 40 →
        (let best := u.symbol.mask.toNat
         u = { (s.afterOk 4#4 ts).withStages s.status.vPack s.status.vEcc true true false with
               symbol := { version := s.symbol.version, level := s.symbol.level, mask := u.symbol.mask }
               formatBits := BitVec.ofNat 15 (formatWord l best)
               versionBits := if 7 ≤ v then BitVec.ofNat 18 (versionWord v) else 0#18
               penalty := u.penalty, penTerms := u.penTerms, matrix := u.matrix } ∧
         (∀ m, m < 8 → (u.penalty.get m).toNat = penaltyOf n (cand m)) ∧
         (∀ m, m < 8 →
           (u.penalty.get best).toNat ≤ (u.penalty.get m).toNat ∧
           (m < best → (u.penalty.get best).toNat < (u.penalty.get m).toNat)) ∧
         u.penTerms.n1.toNat = penaltyN1 n (cand best) ∧ u.penTerms.n2.toNat = penaltyN2 (cand best) ∧
         u.penTerms.n3.toNat = penaltyN3 n (cand best) ∧ u.penTerms.n4.toNat = penaltyN4 n (cand best) ∧
         (u.penalty.get best).toNat =
           u.penTerms.n1.toNat + u.penTerms.n2.toNat + u.penTerms.n3.toNat + u.penTerms.n4.toNat ∧
         ∀ r c, r < 177 → c < 192 →
           u.storedBit .matrix r c = (decide (r < n) && decide (c < n) && (cand best).at r c))) ∧
      (s.status.vPlace = false →
        u = (s.afterError 4#4 4#4 4#3 ts).withStages s.status.vPack s.status.vEcc false false false)

/-- 44_mask.md R241, R243, R256: in MATRIX every module outside the format and version areas is the PLACED module,
inverted iff FUNCMAP says data module and the selected mask's condition, one of the eight written out here, holds;
every stored bit outside N×N, the padding columns included, is 0.  The same eight conditions are MASK_FN for every
candidate. -/
def Obligations.MaskInvertsDataModulesOnly : Prop :=
  let condition : Nat → Nat → Nat → Bool := fun m i j =>
    [decide ((i + j) % 2 = 0), decide (i % 2 = 0), decide (j % 3 = 0), decide ((i + j) % 3 = 0),
      decide ((i / 2 + j / 3) % 2 = 0), decide ((i * j) % 2 + (i * j) % 3 = 0),
      decide (((i * j) % 2 + (i * j) % 3) % 2 = 0), decide (((i + j) % 2 + (i * j) % 3) % 2 = 0)].getD m false
  (∀ m i j, m < 8 → maskFn m i j = condition m i j) ∧
  ∀ (s : State) (ts : List Turn), s.status.busy = false → s.turns = .engine :: ts →
    let v := s.symbol.version.toNat
    let n := 4 * v + 17
    s.status.vPlace = true → 1 ≤ v → v ≤ 40 →
    ∃ t u, exec .mask s = .next t ∧ step t = .next u ∧
      (∀ r c, r < n → c < n →
        ¬ (c = 8 ∧ ((r ≤ 8 ∧ r ≠ 6) ∨ n - 8 ≤ r)) → ¬ (r = 8 ∧ ((c ≤ 8 ∧ c ≠ 6) ∨ n - 8 ≤ c)) →
        ¬ (7 ≤ v ∧ ((r ≤ 5 ∧ n - 11 ≤ c ∧ c ≤ n - 9) ∨ (c ≤ 5 ∧ n - 11 ≤ r ∧ r ≤ n - 9))) →
        u.module .matrix r c =
          (s.module .placed r c ^^ (!s.module .funcmap r c && condition u.symbol.mask.toNat r c))) ∧
      ∀ r c, r < 177 → c < 192 → ¬ (r < n ∧ c < n) → u.storedBit .matrix r c = false

/-- 44_mask.md R252, R253: FORMAT_BITS is the format word of the level and the selected mask, as the rule's table
gives it, and MATRIX holds it twice, most significant bit at (8, 0) and at (N−1, 8), beside the dark module. -/
def Obligations.MaskWritesTheFormatInformation : Prop :=
  ∀ (s : State) (ts : List Turn), s.status.busy = false → s.turns = .engine :: ts →
    let v := s.symbol.version.toNat
    let n := 4 * v + 17
    s.status.vPlace = true → 1 ≤ v → v ≤ 40 →
    ∃ t u, exec .mask s = .next t ∧ step t = .next u ∧
      u.formatBits.toNat =
        ([[0x77C4, 0x72F3, 0x7DAA, 0x789D, 0x662F, 0x6318, 0x6C41, 0x6976],
          [0x5412, 0x5125, 0x5E7C, 0x5B4B, 0x45F9, 0x40CE, 0x4F97, 0x4AA0],
          [0x355F, 0x3068, 0x3F31, 0x3A06, 0x24B4, 0x2183, 0x2EDA, 0x2BED],
          [0x1689, 0x13BE, 0x1CE7, 0x19D0, 0x0762, 0x0255, 0x0D0C, 0x083B]].getD s.symbol.level.toNat []).getD
            u.symbol.mask.toNat 0 ∧
      (let bit := fun i => u.formatBits.getLsbD i
       (∀ i, i ≤ 5 → u.module .matrix i 8 = bit i) ∧
       u.module .matrix 7 8 = bit 6 ∧ u.module .matrix 8 8 = bit 7 ∧ u.module .matrix 8 7 = bit 8 ∧
       (∀ i, 9 ≤ i → i ≤ 14 → u.module .matrix 8 (14 - i) = bit i) ∧
       (∀ i, i ≤ 7 → u.module .matrix 8 (n - 1 - i) = bit i) ∧
       (∀ i, 8 ≤ i → i ≤ 14 → u.module .matrix (n - 15 + i) 8 = bit i) ∧
       u.module .matrix (n - 8) 8 = true)

/-- 44_mask.md R254, R255: VERSION_BITS is 0 below version 7; from version 7 up it is the version word, a
multiple of the generator 0x1F25 with the version in its top six bits, written to both areas of MATRIX. -/
def Obligations.MaskWritesTheVersionInformation : Prop :=
  ∀ (s : State) (ts : List Turn), s.status.busy = false → s.turns = .engine :: ts →
    let v := s.symbol.version.toNat
    let n := 4 * v + 17
    s.status.vPlace = true → 1 ≤ v → v ≤ 40 →
    ∃ t u, exec .mask s = .next t ∧ step t = .next u ∧
      (v < 7 → u.versionBits = 0#18) ∧
      (7 ≤ v →
        u.versionBits.toNat / 4096 = v ∧
        [17, 16, 15, 14, 13, 12].foldl (bchStep 0x1F25 12) u.versionBits.toNat = 0 ∧
        ∀ i, i < 18 →
          u.module .matrix (i / 3) (n - 11 + i % 3) = u.versionBits.getLsbD i ∧
          u.module .matrix (n - 11 + i % 3) (i / 3) = u.versionBits.getLsbD i)

/-- 44_mask.md R246: P1 is the sum, over the N rows and the N columns, of 3 + (len − 5) for every maximal run of
len ≥ 5 equal modules. -/
def Obligations.RunPenaltyCountsMaximalRuns : Prop :=
  ∀ (n : Nat) (f : Nat → Nat → Bool),
    let score := fun (line : List Bool) =>
      ((line.splitBy (fun x y => x == y)).map fun run => if 5 ≤ run.length then 3 + (run.length - 5) else 0).sum
    penaltyN1 n (Matrix.build n f) =
      ((List.range n).map fun r => score ((List.range n).map fun c => f r c)).sum
        + ((List.range n).map fun c => score ((List.range n).map fun r => f r c)).sum

/-- 44_mask.md R247: P2 is 3 for every monochrome 2×2 window, overlapping windows each counted. -/
def Obligations.BlockPenaltyCountsTwoByTwoWindows : Prop :=
  ∀ (n : Nat) (f : Nat → Nat → Bool),
    penaltyN2 (Matrix.build n f) =
      3 * ((List.range (n - 1)).map fun r =>
        (List.range (n - 1)).countP fun c =>
          decide (f r c = f r (c + 1) ∧ f r c = f (r + 1) c ∧ f r c = f (r + 1) (c + 1))).sum

/-- 44_mask.md R248: P3 is 40 for every window of eleven modules of a row or a column, fully inside the symbol,
that is 1011101 followed or preceded by four light modules. -/
def Obligations.FinderLikePenaltyCountsWindows : Prop :=
  ∀ (n : Nat) (f : Nat → Nat → Bool),
    let a := [true, false, true, true, true, false, true, false, false, false, false]
    let b := [false, false, false, false, true, false, true, true, true, false, true]
    let hits := fun (line : Nat → Bool) =>
      (List.range (n + 1 - 11)).countP (fun p => (List.range 11).map (fun i => line (p + i)) == a)
        + (List.range (n + 1 - 11)).countP (fun p => (List.range 11).map (fun i => line (p + i)) == b)
    penaltyN3 n (Matrix.build n f) =
      40 * (((List.range n).map fun r => hits fun c => f r c).sum
        + ((List.range n).map fun c => hits fun r => f r c).sum)

/-- 44_mask.md R249, 10_state.md R45: the penalty of a symbol is the sum of its four terms, P4 is ten times the
whole 5 % steps away from half dark, and the total is below 2²². -/
def Obligations.PenaltyTotalFitsItsRegister : Prop :=
  ∀ (n : Nat) (f : Nat → Nat → Bool), 1 ≤ n → n ≤ 177 →
    let c := Matrix.build n f
    let dark := ((List.range n).map fun r => (List.range n).countP fun col => f r col).sum
    penaltyN4 n c = 10 * ((20 * (dark : Int) - 10 * (n * n : Int)).natAbs / (n * n)) ∧
    penaltyOf n c = penaltyN1 n c + penaltyN2 c + penaltyN3 n c + penaltyN4 n c ∧
    penaltyOf n c < 2 ^ 22

/-! ## ENCODE -/

/-- 45_encode_render.md R281 and 10_state.md R57: inside ENCODE only PACK can fail; then nothing is written and
all stage-valid flags are 0; otherwise all four stages complete, and what is not an output of theirs is kept. -/
def Obligations.EncodeCommandFailsOnlyInPack : Prop :=
  ∀ (s : State) (ts : List Turn), s.status.busy = false → s.turns = .engine :: ts →
    let n := s.inLen.toNat
    let cap := [2953, 2331, 1663, 1273].getD s.config.level.toNat 0
    ∃ t u, exec .encode s = .next t ∧ step t = .next u ∧
      (n ≤ cap →
        u = { (s.afterOk 5#4 ts).withStages true true true true false with
              symbol := u.symbol, dataCount := u.dataCount, cwCount := u.cwCount, mside := u.mside
              formatBits := u.formatBits, versionBits := u.versionBits
              penalty := u.penalty, penTerms := u.penTerms
              datacw := u.datacw, finalcw := u.finalcw, funcmap := u.funcmap, placed := u.placed
              matrix := u.matrix } ∧
        u.symbol.level = s.config.level ∧
        1 ≤ u.symbol.version.toNat ∧ u.symbol.version.toNat ≤ 40 ∧
        u.mside.toNat = 4 * u.symbol.version.toNat + 17 ∧
        u.cwCount.toNat = totalCw u.symbol.version.toNat ∧
        u.dataCount.toNat = dataCodewords u.symbol.version.toNat (Level.ofCode s.config.level)) ∧
      (cap < n → u = (s.afterError 5#4 1#4 1#3 ts).withStages false false false false false)

/-- 45_encode_render.md R280: ENCODE leaves what PACK, ECC, PLACE and MASK leave, issued one after another with no
host access between them, with V_PACK, V_ECC, V_PLACE and V_MASK 1 and V_VEC 0; where PACK errs, it leaves what
PACK leaves, all five flags 0.  Only the opcode of the last command differs.  That a step with no turn scheduled
is the completion is the model's choice of schedule (assumption log 4). -/
def Obligations.EncodeEqualsTheFourStages : Prop :=
  ∀ s : State, s.status.busy = false → s.turns = [] →
    let n := s.inLen.toNat
    let cap := [2953, 2331, 1663, 1273].getD s.config.level.toNat 0
    ∃ t1 u1 t u, exec .pack s = .next t1 ∧ step t1 = .next u1 ∧ exec .encode s = .next t ∧ step t = .next u ∧
      (n ≤ cap →
        (∃ t2 u2 t3 u3 t4 u4,
          exec .ecc u1 = .next t2 ∧ step t2 = .next u2 ∧
          exec .place u2 = .next t3 ∧ step t3 = .next u3 ∧
          exec .mask u3 = .next t4 ∧ step t4 = .next u4 ∧
          u4 = { u with lastOp := 4#4, pendingOp := 4#4 }) ∧
        u.status.done = true ∧ u.status.error = false ∧
        u.status = { u.status with vPack := true, vEcc := true, vPlace := true, vMask := true, vVec := false }) ∧
      (cap < n →
        u1 = { u with lastOp := 1#4, pendingOp := 1#4 } ∧
        u.status.error = true ∧ u.status.errcode = 1#4 ∧ u.status.errstage = 1#3 ∧
        u.status = { u.status with vPack := false, vEcc := false, vPlace := false, vMask := false, vVec := false })

/-- 45_encode_render.md R283, 00_scope.md R18: two ENCODEs on equal payload bytes, IN_LEN and CONFIG.LEVEL write
equal outputs, whatever else the two states hold.  That a step with no turn scheduled is the completion is the
model's choice of schedule (assumption log 4). -/
def Obligations.EncodeDependsOnlyOnPayloadAndLevel : Prop :=
  ∀ s s' : State, s.status.busy = false → s'.status.busy = false → s.turns = [] → s'.turns = [] →
    s.inLen = s'.inLen → s.config.level = s'.config.level →
    (∀ k, k < s.inLen.toNat → s.bufByte .inbuf k = s'.bufByte .inbuf k) →
    s.inLen.toNat ≤ [2953, 2331, 1663, 1273].getD s.config.level.toNat 0 →
    ∃ t u t' u', exec .encode s = .next t ∧ step t = .next u ∧ exec .encode s' = .next t' ∧ step t' = .next u' ∧
      u.symbol = u'.symbol ∧ u.dataCount = u'.dataCount ∧ u.cwCount = u'.cwCount ∧ u.mside = u'.mside ∧
      u.formatBits = u'.formatBits ∧ u.versionBits = u'.versionBits ∧ u.penalty = u'.penalty ∧
      u.penTerms = u'.penTerms ∧
      (∀ k, k < u.dataCount.toNat → u.bufByte .datacw k = u'.bufByte .datacw k) ∧
      (∀ k, k < u.cwCount.toNat → u.bufByte .finalcw k = u'.bufByte .finalcw k) ∧
      sameWindow .funcmap u u' ∧ sameWindow .placed u u' ∧ sameWindow .matrix u u'

/-! ## VECTOR and the raster window -/

/-- 45_encode_render.md R290, R291: VECTOR writes one record per dark module of MATRIX, row-major, its count and
its extent, and nothing else; without V_MASK it ends in STAGE_ORDER. -/
def Obligations.VectorCommandListsTheDarkModules : Prop :=
  ∀ (s : State) (ts : List Turn), s.status.busy = false → s.turns = .engine :: ts →
    let n := s.mside.toNat
    let q := s.config.qz.toNat
    let dark := ((List.range n).flatMap fun r => (List.range n).map fun c => (r, c)).filter
      fun m => s.module .matrix m.1 m.2
    ∃ t u, exec .vector s = .next t ∧ step t = .next u ∧
      (s.status.vMask = true →
        u = { (s.afterOk 6#4 ts).withStages s.status.vPack s.status.vEcc s.status.vPlace true true with
              vecbuf := u.vecbuf
              vecCount := u.vecCount
              vecExtent := BitVec.ofNat 8 (n + 2 * q) } ∧
        u.vecCount.toNat = dark.length ∧
        (∀ j r c, dark[j]? = some (r, c) → u.vecWord j = BitVec.ofNat 32 ((r + q) * 65536 + (c + q))) ∧
        ∀ k, 4 * dark.length ≤ k → u.bufByte .vecbuf k = s.bufByte .vecbuf k) ∧
      (s.status.vMask = false →
        u = (s.afterError 6#4 4#4 5#3 ts).withStages s.status.vPack s.status.vEcc s.status.vPlace false false)

/-- 45_encode_render.md R299: after VECTOR, when the raster side is k times the canvas side, pixel (x, y) has the
dark colour exactly when VECBUF holds the record (x div k, y div k); else it has the light colour. -/
def Obligations.VectorAgreesWithRaster : Prop :=
  ∀ (s : State) (ts : List Turn) (k : Nat), s.status.busy = false → s.turns = .engine :: ts →
    s.status.vMask = true → 1 ≤ k →
    let m := s.mside.toNat + 2 * s.config.qz.toNat
    s.rasterSize.toNat = k * m →
    ∃ t u, exec .vector s = .next t ∧ step t = .next u ∧
      ∀ x y, x < k * m → y < k * m →
        let held := ∃ j, j < u.vecCount.toNat ∧ u.vecWord j = BitVec.ofNat 32 ((y / k) * 65536 + x / k)
        (held → u.pixel (y * (k * m) + x) = s.colorDark.setWidth 32) ∧
        (¬ held → u.pixel (y * (k * m) + x) = s.colorLight.setWidth 32)

/-- 45_encode_render.md R296, R113, 20_memory.md R80: an aligned read of the raster window returns the addressed bytes
of the pixel, computed from the current registers, and changes nothing; with a command pending that writes MATRIX
or MSIDE its data is free. -/
def Obligations.RasterWindowReadsThePixel : Prop :=
  ∀ (s : State) (addr : Word), 0x04000000 ≤ addr.toNat → addr.toNat < 0x08000000 →
    let p := (addr.toNat - 0x04000000) / 4
    let lane := addr.toNat % 4
    let sz := s.rasterSize.toNat
    let q := s.config.qz.toNat
    let n := s.mside.toNat
    let m := n + 2 * q
    let c : Int := (p % sz * m / sz : Nat) - (q : Int)
    let r : Int := (p / sz * m / sz : Nat) - (q : Int)
    let isDark := 0 ≤ r ∧ r < n ∧ 0 ≤ c ∧ c < n ∧ s.module .matrix r.toNat c.toNat = true
    let free := s.status.busy = true ∧ s.pendingOp.toNat ∈ [3, 4, 5]
    ∃ px : Word,
      (sz * sz ≤ p → px = 0#32) ∧
      (p < sz * sz → s.status.vMask = false → px = s.colorLight.setWidth 32) ∧
      (p < sz * sz → s.status.vMask = true → isDark → px = s.colorDark.setWidth 32) ∧
      (p < sz * sz → s.status.vMask = true → ¬ isDark → px = s.colorLight.setWidth 32) ∧
      ∀ i n, (i, n) ∈ [(Instr.r8 addr, 1), (.r16 addr, 2), (.r32 addr, 4)] → lane % n = 0 →
        (¬ free → exec i s =
          .next { s with resp := { err := false, data := BitVec.ofNat 32 (px.toNat / 256 ^ lane % 256 ^ n) } }) ∧
        (free → ∃ t, exec i s = .next t ∧ t.resp.err = false ∧ t = { s with resp := t.resp, nextDraw := t.nextDraw })

/-! ## The bus -/

/-- 20_memory.md R81: a read of any size at any offset changes no state of QRE (only the response, and the model's
count of draws); unless it drew an unspecified value, a second read returns the same. -/
def Obligations.ReadsHaveNoSideEffect : Prop :=
  ∀ (s : State) (addr : Word) (i : Instr), i ∈ [Instr.r8 addr, .r16 addr, .r32 addr] →
    ∃ t, exec i s = .next t ∧ t = { s with resp := t.resp, nextDraw := t.nextDraw } ∧
      (t.nextDraw = s.nextDraw → exec i t = .next t) ∧
      (s.status.busy = false → t.nextDraw = s.nextDraw)

/-- 20_memory.md R73-R75: exactly which transactions are bus errors; a bus error answers err = 1 with data 0 and
changes nothing, and every other transaction answers err = 0. -/
def Obligations.BusErrorsExactlyWhen : Prop :=
  ∀ (s : State) (addr w : Word) (i : Instr) (n : Nat) (we : Bool),
    (i, n, we) ∈ [(Instr.r8 addr, 1, false), (.r16 addr, 2, false), (.r32 addr, 4, false),
      (.w8 addr w, 1, true), (.w16 addr w, 2, true), (.w32 addr w, 4, true)] →
    let a := addr.toNat
    let readable := a ≤ 0x050 ∨ (0x060 ≤ a ∧ a ≤ 0x08F)
    let writable := a ∈ [0x004, 0x00C, 0x010, 0x014, 0x018, 0x01C, 0x024, 0x02C, 0x03C, 0x048, 0x04C, 0x050]
    let legal := a % n = 0 ∧
      ((a < 0x1000 ∧ n = 4 ∧ (if we then writable else readable)) ∨
        (0x1000 ≤ a ∧ a < 0x4000) ∨
        (we = false ∧ ((0x4000 ≤ a ∧ a < 0x4100) ∨ (0x6000 ≤ a ∧ a < 0xC000) ∨ (0x10000 ≤ a ∧ a < 0x30000)
          ∨ (0x4000000 ≤ a ∧ a < 0x8000000))))
    (¬ legal → exec i s = .next { s with resp := { err := true, data := 0#32 } }) ∧
    (legal → ∃ t, exec i s = .next t ∧ t.resp.err = false)

/-- 10_state.md R24 and 70_reset_and_hazards.md R350: a read of STATUS is exact at any time and shows each field in
its bits, reserved bits 0. -/
def Obligations.StatusReadShowsEveryField : Prop :=
  ∀ s : State, ∃ w : Word,
    exec (.r32 0x00000008#32) s = .next { s with resp := { err := false, data := w } } ∧
    w.getLsbD 0 = s.status.busy ∧ w.getLsbD 1 = s.status.done ∧ w.getLsbD 2 = s.status.error ∧
    w.getLsbD 3 = s.status.aborted ∧ w.extractLsb' 4 4 = 0#4 ∧ w.extractLsb' 8 4 = s.status.errcode ∧
    w.extractLsb' 12 3 = s.status.errstage ∧ w.getLsbD 15 = false ∧ w.getLsbD 16 = s.status.vPack ∧
    w.getLsbD 17 = s.status.vEcc ∧ w.getLsbD 18 = s.status.vPlace ∧ w.getLsbD 19 = s.status.vMask ∧
    w.getLsbD 20 = s.status.vVec ∧ w.extractLsb' 21 3 = 0#3 ∧ w.getLsbD 24 = s.status.wrIgnored ∧
    w.extractLsb' 25 7 = 0#7

/-- 10_state.md R47: a reserved bit of a register reads 0, a write to it is ignored, and a reserved offset of the
register page is a bus error for every access. -/
def Obligations.ReservedBitsAndOffsets : Prop :=
  (∀ (s : State) (o m : Word),
    (o, m) ∈ [(0x000#32, 0xFFFFFFFF#32), (0x004#32, 0x0000000F#32), (0x008#32, 0x011F7F0F#32),
      (0x00C#32, 0x00000003#32), (0x010#32, 0x00000003#32), (0x014#32, 0x000000F3#32), (0x018#32, 0x00000FFF#32),
      (0x01C#32, 0xFFFFFFFF#32), (0x020#32, 0xFFFFFFFF#32), (0x024#32, 0x0000733F#32), (0x028#32, 0x00000FFF#32),
      (0x02C#32, 0x00000FFF#32), (0x030#32, 0x000000FF#32), (0x034#32, 0x00007FFF#32), (0x038#32, 0x0003FFFF#32),
      (0x03C#32, 0x0000FFFF#32), (0x040#32, 0x0000FFFF#32), (0x044#32, 0x000000FF#32), (0x048#32, 0x00001FFF#32),
      (0x04C#32, 0x00FFFFFF#32), (0x050#32, 0x00FFFFFF#32)] →
    s.status.busy = false →
    ∃ t, exec (.r32 o) s = .next t ∧ t.resp.err = false ∧ t.resp.data &&& ~~~m = 0#32) ∧
  (∀ (s : State) (o m w : Word),
    (o, m) ∈ [(0x004#32, 0x0000000F#32), (0x00C#32, 0x00000003#32), (0x010#32, 0x00000003#32),
      (0x014#32, 0x000000F3#32), (0x018#32, 0x00000FFF#32), (0x01C#32, 0xFFFFFFFF#32), (0x024#32, 0x0000033F#32),
      (0x02C#32, 0x00000FFF#32), (0x03C#32, 0x0000FFFF#32), (0x048#32, 0x00001FFF#32), (0x04C#32, 0x00FFFFFF#32),
      (0x050#32, 0x00FFFFFF#32)] →
    exec (.w32 o w) s = exec (.w32 o (w &&& m)) s) ∧
  (∀ (s : State) (o w : Word),
    (0x054 ≤ o.toNat ∧ o.toNat < 0x060) ∨ (0x090 ≤ o.toNat ∧ o.toNat < 0x1000) →
    ∀ i ∈ [Instr.r8 o, .r16 o, .r32 o, .w8 o w, .w16 o w, .w32 o w],
      exec i s = .next { s with resp := { err := true, data := 0#32 } })

/-- 20_memory.md R76, R78, R79: an aligned idle read of a buffer window returns the bytes from its offset up, the
first in the low lane; and at offsets 4248..8191 of the windows of FUNCMAP, PLACED and MATRIX, which hold no
storage, every aligned read returns 0, idle or BUSY. -/
def Obligations.BufferReadIsLittleEndian : Prop :=
  ∀ (s : State) (b : BufId) (k : Nat),
    let noStorage := fun j => b ∈ [BufId.funcmap, .placed, .matrix] ∧ 4248 ≤ j
    let addr := BitVec.ofNat 32 (b.base + k)
    let byte := fun i => if noStorage (k + i) then 0 else (s.bufByte b (k + i)).toNat
    let answer := fun n => .next { s with resp := { err := false, data := BitVec.ofNat 32 n } }
    (s.status.busy = false → k < b.windowSize →
      exec (.r8 addr) s = answer (byte 0) ∧
      (k % 2 = 0 → exec (.r16 addr) s = answer (byte 0 + 256 * byte 1)) ∧
      (k % 4 = 0 → exec (.r32 addr) s = answer (byte 0 + 256 * byte 1 + 65536 * byte 2 + 16777216 * byte 3))) ∧
    (noStorage k → k < 8192 →
      exec (.r8 addr) s = answer 0 ∧
      (k % 2 = 0 → exec (.r16 addr) s = answer 0) ∧
      (k % 4 = 0 → exec (.r32 addr) s = answer 0))

/-- 40_host_bus.md R131, 20_memory.md R76, R78: an aligned idle write to INBUF, DATACW or FINALCW stores exactly the
low n bytes of its data at its offset, and changes no register and no other byte of any buffer. -/
def Obligations.BufferWriteStoresItsBytes : Prop :=
  ∀ (s : State) (b : BufId) (k : Nat) (w : Word) (i : Instr) (n : Nat),
    s.status.busy = false → b ∈ [BufId.inbuf, .datacw, .finalcw] → k < 4096 → k % n = 0 →
    let addr := BitVec.ofNat 32 (b.base + k)
    (i, n) ∈ [(Instr.w8 addr w, 1), (.w16 addr w, 2), (.w32 addr w, 4)] →
    ∃ t, exec i s = .next t ∧
      t = { s with
            inbuf := t.inbuf, datacw := t.datacw, finalcw := t.finalcw
            resp := { err := false, data := 0#32 } } ∧
      ∀ c j, t.bufByte c j =
        if c = b ∧ k ≤ j ∧ j < k + n then BitVec.ofNat 8 (w.toNat / 256 ^ (j - k)) else s.bufByte c j

/-- 20_memory.md R84: in an idle QRE a read returns the value the latest write left: a word written to INBUF, DATACW
or FINALCW reads back, and after a write to one offset a read at another returns what it returned before. -/
def Obligations.ReadReturnsTheLatestWrite : Prop :=
  ∀ (s : State) (a a' w : Word), s.status.busy = false → a.toNat % 4 = 0 → a'.toNat % 4 = 0 →
    0x1000 ≤ a.toNat → a.toNat < 0x4000 → 0x1000 ≤ a'.toNat → a'.toNat < 0x4000 →
    ∃ t u v, exec (.w32 a w) s = .next t ∧ exec (.r32 a') t = .next u ∧ exec (.r32 a') s = .next v ∧
      u.resp.data = if a' = a then w else v.resp.data

/-- 10_state.md R29-R31, R35, R39, R42-R44: what an idle write stores in each configuration register, WARL fields
clamped, and nothing else. -/
def Obligations.ConfigurationWritesStoreTheirFields : Prop :=
  ∀ (s : State) (w : Word), s.status.busy = false →
    let ok : Response := { err := false, data := 0#32 }
    exec (.w32 0x014#32 w) s = .next
      { s with
        config := { level := BitVec.ofNat 2 (w.toNat % 4), qz := BitVec.ofNat 4 (max 4 (w.toNat / 16 % 16)) }
        resp := ok } ∧
    exec (.w32 0x018#32 w) s = .next { s with inLen := BitVec.ofNat 12 (w.toNat % 4096), resp := ok } ∧
    exec (.w32 0x01C#32 w) s = .next { s with jobTag := w, resp := ok } ∧
    exec (.w32 0x02C#32 w) s = .next { s with cwCount := BitVec.ofNat 12 (w.toNat % 4096), resp := ok } ∧
    exec (.w32 0x03C#32 w) s = .next
      { s with
        rsParam := { k := BitVec.ofNat 8 (w.toNat % 256), e := BitVec.ofNat 8 (w.toNat / 256 % 256) }
        resp := ok } ∧
    exec (.w32 0x048#32 w) s = .next
      { s with rasterSize := BitVec.ofNat 13 (max 1 (min (w.toNat % 8192) 4096)), resp := ok } ∧
    exec (.w32 0x04C#32 w) s = .next { s with colorDark := BitVec.ofNat 24 (w.toNat % 16777216), resp := ok } ∧
    exec (.w32 0x050#32 w) s = .next { s with colorLight := BitVec.ofNat 24 (w.toNat % 16777216), resp := ok }

/-- 10_state.md R33, R57: an accepted host write to SYMBOL stores VERSION and LEVEL, leaves MASK, and clears all five
stage-valid flags and nothing else. -/
def Obligations.SymbolWriteClearsTheStageFlags : Prop :=
  ∀ (s : State) (w : Word), s.status.busy = false →
    exec (.w32 0x024#32 w) s = .next
      { s.withStages false false false false false with
        symbol :=
          { version := BitVec.ofNat 6 (w.toNat % 64), level := BitVec.ofNat 2 (w.toNat / 256 % 4)
            mask := s.symbol.mask }
        resp := { err := false, data := 0#32 } }

/-- 10_state.md R27, R28, 60_exceptions.md R318, R319: writes to IRQ_EN and IRQ_PEND are performed whether BUSY or
not; a 1 clears a pending bit and a 0 leaves it; irq is high exactly when a pending bit meets its enable, so that
enabling later asserts it for an event already pending and clearing the pending bits drops it. -/
def Obligations.InterruptRegisterWrites : Prop :=
  ∀ (s : State) (w : Word),
    (s.irq = true ↔
      (s.irqPend.doneP = true ∧ s.irqEn.doneIE = true) ∨ (s.irqPend.errP = true ∧ s.irqEn.errIE = true)) ∧
    ∃ t u, exec (.w32 0x00C#32 w) s = .next t ∧ exec (.w32 0x010#32 w) s = .next u ∧
      t = { s with
            irqEn := { doneIE := decide (w.toNat % 2 = 1), errIE := decide (w.toNat / 2 % 2 = 1) }
            resp := { err := false, data := 0#32 } } ∧
      u = { s with
            irqPend :=
              { doneP := s.irqPend.doneP && decide (w.toNat % 2 = 0)
                errP := s.irqPend.errP && decide (w.toNat / 2 % 2 = 0) }
            resp := { err := false, data := 0#32 } } ∧
      (t.irq = true ↔
        (s.irqPend.doneP = true ∧ w.toNat % 2 = 1) ∨ (s.irqPend.errP = true ∧ w.toNat / 2 % 2 = 1)) ∧
      (w.toNat % 4 = 3 → u.irq = false)

/-- 70_reset_and_hazards.md R351: while BUSY a write that is no bus error is dropped with WR_IGNORED, but for CMD,
which R134 handles, and IRQ_EN and IRQ_PEND, which are written as when idle.  WR_IGNORED then stays 1 until a
command is accepted, or until reset. -/
def Obligations.WriteWhileBusyIsDropped : Prop :=
  (∀ (s : State) (addr w : Word) (i : Instr) (n : Nat), s.status.busy = true →
    (i, n) ∈ [(Instr.w8 addr w, 1), (.w16 addr w, 2), (.w32 addr w, 4)] → busError addr.toNat n true = false →
    (addr.toNat ∉ [0x004, 0x00C, 0x010] →
      exec i s = .next
        { s with status := { s.status with wrIgnored := true }, resp := { err := false, data := 0#32 } }) ∧
    (addr.toNat = 0x004 → exec i s = exec (commandOf (w.extractLsb' 0 4)) s) ∧
    (addr.toNat = 0x00C → ∃ t, exec i s = .next t ∧
      t = { s with irqEn := t.irqEn, resp := { err := false, data := 0#32 } } ∧
      t.irqEn = { doneIE := w.getLsbD 0, errIE := w.getLsbD 1 }) ∧
    (addr.toNat = 0x010 → ∃ t, exec i s = .next t ∧
      t = { s with irqPend := t.irqPend, resp := { err := false, data := 0#32 } } ∧
      t.irqPend = { doneP := s.irqPend.doneP && !w.getLsbD 0, errP := s.irqPend.errP && !w.getLsbD 1 })) ∧
  ∀ s t : State, step s = .next t → s.status.wrIgnored = true → t.status.wrIgnored = false →
    (∃ ts, s.turns = .reset :: ts) ∨
    (s.status.busy = false ∧ (∃ bytes ts, s.turns = .host bytes :: ts) ∧
      1 ≤ t.lastOp.toNat ∧ t.lastOp.toNat ≤ 14 ∧ t.pendingTag = s.jobTag)

/-- 70_reset_and_hazards.md R350, 40_host_bus.md R136, 10_state.md R24-R46: a read of a register returns its fields and
a read of a buffer byte that byte, exactly, BUSY or not, unless the pending command's WriteSet holds the location;
then, as for the raster window when MATRIX or MSIDE is in the WriteSet, the data is free, a fresh draw for every
read.  Offsets of a matrix window past its storage read 0 always (20_memory.md R79).  That a free register read is
one free word, its reserved bits and other fields included, and that each read is one draw, are the model's choices
(assumption log 3). -/
def Obligations.ReadsAreExactOutsideTheWriteSet : Prop :=
  ∀ s : State,
    let free : Nat → State := fun n =>
      { s with
        resp := { err := false, data := lowBytes n (Config.unspecifiedReadData s.nextDraw) }
        nextDraw := s.nextDraw + 1 }
    let exact : Nat → State := fun w => { s with resp := { err := false, data := BitVec.ofNat 32 w } }
    let pending : List Nat → Prop := fun ops => s.status.busy = true ∧ s.pendingOp.toNat ∈ ops
    let read : Instr → Nat → Nat → List Nat → Prop := fun i n w ops =>
      (pending ops → exec i s = .next (free n)) ∧ (¬ pending ops → exec i s = .next (exact w))
    (∀ (o : Word) (w : Nat) (ops : List Nat), (o, w, ops) ∈
        [(0x000#32, 0x51524543, []), (0x004#32, s.lastOp.toNat, []), (0x008#32, s.status.word.toNat, []),
          (0x00C#32, s.irqEn.doneIE.toNat + 2 * s.irqEn.errIE.toNat, []),
          (0x010#32, s.irqPend.doneP.toNat + 2 * s.irqPend.errP.toNat, []),
          (0x014#32, s.config.level.toNat + 16 * s.config.qz.toNat, []),
          (0x018#32, s.inLen.toNat, []), (0x01C#32, s.jobTag.toNat, []), (0x020#32, s.resultTag.toNat, [])]
        ++ [(0x024#32, s.symbol.version.toNat + 256 * s.symbol.level.toNat + 4096 * s.symbol.mask.toNat, [1, 4, 5]),
          (0x028#32, s.dataCount.toNat, [1, 2, 5]), (0x02C#32, s.cwCount.toNat, [2, 5]),
          (0x030#32, s.mside.toNat, [3, 5]), (0x034#32, s.formatBits.toNat, [4, 5]),
          (0x038#32, s.versionBits.toNat, [4, 5]), (0x03C#32, s.rsParam.k.toNat + 256 * s.rsParam.e.toNat, []),
          (0x040#32, s.vecCount.toNat, [6]), (0x044#32, s.vecExtent.toNat, [6]),
          (0x048#32, s.rasterSize.toNat, []), (0x04C#32, s.colorDark.toNat, []),
          (0x050#32, s.colorLight.toNat, [])]
        ++ (List.range 8).map (fun m => (BitVec.ofNat 32 (0x060 + 4 * m), (s.penalty.get m).toNat, [4, 5]))
        ++ [(0x080#32, s.penTerms.n1.toNat, [4, 5]), (0x084#32, s.penTerms.n2.toNat, [4, 5]),
          (0x088#32, s.penTerms.n3.toNat, [4, 5]), (0x08C#32, s.penTerms.n4.toNat, [4, 5])] →
      read (.r32 o) 4 w ops) ∧
    (∀ (b : BufId) (ops : List Nat) (k : Nat), (b, ops) ∈ [(BufId.inbuf, []), (.datacw, [1, 5]), (.finalcw, [2, 5]),
        (.rsout, [7]), (.funcmap, [3, 5]), (.placed, [3, 5]), (.matrix, [4, 5]), (.vecbuf, [6])] →
      (k < b.storedSize → read (.r8 (BitVec.ofNat 32 (b.base + k))) 1 (s.bufByte b k).toNat ops) ∧
      (b.storedSize ≤ k → k < b.windowSize → read (.r8 (BitVec.ofNat 32 (b.base + k))) 1 0 [])) ∧
    ∀ addr : Word, 0x04000000 ≤ addr.toNat → addr.toNat < 0x08000000 → addr.toNat % 4 = 0 →
      read (.r32 addr) 4 (s.pixel ((addr.toNat - 0x04000000) / 4)).toNat [3, 4, 5]

/-! ## Whole-machine rules -/

/-- 10_state.md R61: a HOST step of an idle QRE writes no location that only the ENGINE writes. -/
def Obligations.HostStepsLeaveEngineOutputs : Prop :=
  ∀ (i : Instr) (s t : State), s.status.busy = false → exec i s = .next t →
    t.rsout = s.rsout ∧ t.funcmap = s.funcmap ∧ t.placed = s.placed ∧ t.matrix = s.matrix ∧ t.vecbuf = s.vecbuf ∧
    t.dataCount = s.dataCount ∧ t.mside = s.mside ∧ t.formatBits = s.formatBits ∧ t.versionBits = s.versionBits ∧
    t.vecCount = s.vecCount ∧ t.vecExtent = s.vecExtent ∧ t.penalty = s.penalty ∧ t.penTerms = s.penTerms ∧
    t.symbol.mask = s.symbol.mask ∧ t.turns = s.turns

/-- 20_memory.md R87: while a command is pending no HOST step but ABORT changes anything a command reads: such a step
changes at most IRQ_EN, IRQ_PEND, WR_IGNORED and the response. -/
def Obligations.PendingCommandKeepsItsInputs : Prop :=
  ∀ (i : Instr) (s t : State), s.status.busy = true → exec i s = .next t → t.status.busy = true →
    t = { s with
          irqEn := t.irqEn, irqPend := t.irqPend, resp := t.resp, nextDraw := t.nextDraw
          status := { s.status with wrIgnored := t.status.wrIgnored } }

/-- 10_state.md R24: BUSY is set by command acceptance alone: a step that makes QRE busy is the HOST step of a
stage command, whose opcode and tag are then pending. -/
def Obligations.OnlyAcceptanceSetsBusy : Prop :=
  ∀ s t : State, step s = .next t → s.status.busy = false → t.status.busy = true →
    ∃ bytes ts i, s.turns = .host bytes :: ts ∧ decode bytes = some i ∧
      1 ≤ t.pendingOp.toNat ∧ t.pendingOp.toNat ≤ 7 ∧ t.lastOp = t.pendingOp ∧ t.pendingTag = s.jobTag ∧
      (i = commandOf t.pendingOp ∨ ∃ w : Word, i = .w32 0x00000004#32 w ∧ w.extractLsb' 0 4 = t.pendingOp)

/-- 60_exceptions.md R319: a pending bit is cleared only by a host write of 1 to it, or by reset. -/
def Obligations.PendingBitsAreClearedOnlyByTheHost : Prop :=
  ∀ s t : State, step s = .next t →
    (s.irqPend.doneP = true → t.irqPend.doneP = false →
      (∃ ts, s.turns = .reset :: ts) ∨
      ∃ bytes ts w, s.turns = .host bytes :: ts ∧ decode bytes = some (.w32 0x00000010#32 w) ∧ w.getLsbD 0 = true) ∧
    (s.irqPend.errP = true → t.irqPend.errP = false →
      (∃ ts, s.turns = .reset :: ts) ∨
      ∃ bytes ts w, s.turns = .host bytes :: ts ∧ decode bytes = some (.w32 0x00000010#32 w) ∧ w.getLsbD 1 = true)

/-- 70_reset_and_hazards.md R340, R341: reset, in any state and whatever is pending, leaves every register at the value
of the rule's table, QRE idle, irq low and every buffer byte free; so does power-on (`State.reset`).  That one
reset's free bytes share one draw (assumption log 1), and that the coming turns stay (log 12), are the model's
choices. -/
def Obligations.ResetGivesEveryRegisterItsValue : Prop :=
  ∀ (s : State) (ts : List Turn), s.turns = .reset :: ts →
    ∃ t, step s = .next t ∧ t.turns = ts ∧
      (∀ b k, t.bufByte b k = Config.unspecifiedByte s.nextDraw (b.base + k)) ∧
      ∀ u ∈ [t, State.reset],
        u.status.busy = false ∧ u.pendingOp = 0#4 ∧ u.pendingTag = 0#32 ∧ u.irq = false ∧
        ∀ (o w : Word),
          (o, w) ∈ [(0x000#32, 0x51524543#32), (0x004#32, 0#32), (0x008#32, 0#32), (0x00C#32, 0#32), (0x010#32, 0#32),
            (0x014#32, 0x41#32), (0x018#32, 0#32), (0x01C#32, 0#32), (0x020#32, 0#32), (0x024#32, 0x100#32),
            (0x028#32, 0#32), (0x02C#32, 0#32), (0x030#32, 0#32), (0x034#32, 0#32), (0x038#32, 0#32), (0x03C#32, 0#32),
            (0x040#32, 0#32), (0x044#32, 0#32), (0x048#32, 0x100#32), (0x04C#32, 0#32), (0x050#32, 0x00FFFFFF#32),
            (0x060#32, 0#32), (0x064#32, 0#32), (0x068#32, 0#32), (0x06C#32, 0#32), (0x070#32, 0#32), (0x074#32, 0#32),
            (0x078#32, 0#32), (0x07C#32, 0#32), (0x080#32, 0#32), (0x084#32, 0#32), (0x088#32, 0#32),
            (0x08C#32, 0#32)] →
          exec (.r32 o) u = .next { u with resp := { err := false, data := w } }

/-! ## Invariants -/

/-- The state after reset meets every invariant. -/
def Obligations.ResetMeetsTheInvariants : Prop :=
  MemoryInv State.reset ∧ OutcomeInv State.reset ∧ LegalFieldsInv State.reset ∧ StageInv State.reset ∧
    SymbolInv State.reset ∧ FunctionMapInv State.reset

/-- Every step keeps the stored bytes in canonical form and inside their buffers. -/
def Obligations.StepKeepsMemoryCanonical : Prop :=
  ∀ s t : State, MemoryInv s → step s = .next t → MemoryInv t

/-- 10_state.md R24: every step keeps DONE, ERROR and ABORTED exclusive and 0 while BUSY, a stage command pending
while BUSY, and the error record legal. -/
def Obligations.StepKeepsOutcomeFlagsExclusive : Prop :=
  ∀ s t : State, OutcomeInv s → step s = .next t → OutcomeInv t

/-- 10_state.md R29, R42: every step keeps the WARL fields legal. -/
def Obligations.StepKeepsWarlFieldsLegal : Prop :=
  ∀ s t : State, LegalFieldsInv s → step s = .next t → LegalFieldsInv t

/-- 44_mask.md R258, 45_encode_render.md R290: every step keeps what the stage-valid flags vouch for: V_PLACE a version
in 1..40 and its side in MSIDE, V_MASK a placed symbol, V_VEC a finished one. -/
def Obligations.StepKeepsStageFlagsTruthful : Prop :=
  ∀ s t : State, StageInv s → step s = .next t → StageInv t

/-- 44_mask.md R257, R259: every step keeps, while V_MASK is 1, FORMAT_BITS and VERSION_BITS those of SYMBOL and
PENALTY[SYMBOL.MASK] the sum of its four terms. -/
def Obligations.StepKeepsFinishedSymbolRecord : Prop :=
  ∀ s t : State, SymbolInv s → step s = .next t → SymbolInv t

/-- 43_assembler.md R229: every step keeps, while V_PLACE is 1, FUNCMAP the function layout of SYMBOL.VERSION. -/
def Obligations.StepKeepsFunctionMapTheLayout : Prop :=
  ∀ s t : State, FunctionMapInv s → step s = .next t → FunctionMapInv t
end

