-- ==== Sys2Proof/Laws/Assembler.lean ====
section
/-! SUPPORT. The function layout as one condition on row and column, and ZigZag(V): its column pairs and their
directions, and that it lists every data module once (43_assembler.md R211-R224). -/

namespace Sys2Proof.Machine

/-! ## The function layout -/

/-- Is `x` within two of a coordinate of ALIGN_TABLE(V) (43_assembler.md R216)? -/
def nearCentre (v x : Nat) : Bool := (alignCentres v).any fun a => decide (gap x a ≤ 2)

theorem alignPart_isSome (v r c : Nat) :
    (alignPart v r c).isSome = true ↔ ∃ p ∈ alignPairs v, gap r p.1 ≤ 2 ∧ gap c p.2 ≤ 2 := by
  unfold alignPart
  rw [List.findSome?_isSome_iff]
  constructor
  · rintro ⟨p, hp, h⟩
    refine ⟨p, hp, ?_⟩
    by_contra hn
    rw [if_neg hn] at h; simp at h
  · rintro ⟨p, hp, h⟩
    exact ⟨p, hp, by rw [if_pos h]; rfl⟩

theorem mem_alignPairs (v a b : Nat) : (a, b) ∈ alignPairs v ↔
    a ∈ alignCentres v ∧ b ∈ alignCentres v ∧
      ¬ ((a = 6 ∧ b = 6) ∨ (a = 6 ∧ b = side v - 7) ∨ (a = side v - 7 ∧ b = 6)) := by
  simp only [alignPairs, List.mem_filter, List.mem_flatMap, List.mem_map, Prod.mk.injEq]
  constructor
  · rintro ⟨⟨x, hx, y, hy, rfl, rfl⟩, h⟩
    refine ⟨hx, hy, ?_⟩
    simp only [Bool.not_eq_true', Bool.or_eq_false_iff, beq_eq_false_iff_ne, ne_eq, Prod.mk.injEq] at h
    tauto
  · rintro ⟨hx, hy, h⟩
    refine ⟨⟨a, hx, b, hy, rfl, rfl⟩, ?_⟩
    simp only [Bool.not_eq_true', Bool.or_eq_false_iff, beq_eq_false_iff_ne, ne_eq, Prod.mk.injEq]
    tauto

/-- The first coordinate is 6 and the last N − 7, and the others keep clear of both ends (43_assembler.md R215). -/
theorem alignCentres_range {v : Nat} (h1 : 1 ≤ v) (h2 : v ≤ 40) :
    ∀ a ∈ alignCentres v, (a = 6 ∨ 18 ≤ a) ∧ (a = side v - 7 ∨ a + 19 ≤ side v) := by
  have h : ∀ w ∈ List.range 40, ∀ a ∈ alignCentres (w + 1),
      (a = 6 ∨ 18 ≤ a) ∧ (a = side (w + 1) - 7 ∨ a + 19 ≤ side (w + 1)) := by decide +kernel
  have := h (v - 1) (List.mem_range.2 (by omega))
  rwa [show v - 1 + 1 = v by omega] at this

/-- The function modules, all parts of the layout at once (43_assembler.md R211-R219): the three corners with
finder, separator, format area and dark module, the two timing lines, the version areas, and the alignment
patterns. -/
theorem isFunction_iff {v r c : Nat} (h1 : 1 ≤ v) (h2 : v ≤ 40) (hr : r < side v) (hc : c < side v) :
    isFunction v r c = true ↔
      (r ≤ 8 ∧ c ≤ 8) ∨ (r ≤ 8 ∧ side v ≤ c + 8) ∨ (side v ≤ r + 8 ∧ c ≤ 8) ∨ r = 6 ∨ c = 6 ∨
      (7 ≤ v ∧ ((r ≤ 5 ∧ side v ≤ c + 11 ∧ c + 9 ≤ side v) ∨ (side v ≤ r + 11 ∧ r + 9 ≤ side v ∧ c ≤ 5))) ∨
      (nearCentre v r = true ∧ nearCentre v c = true ∧
        ¬ (r ≤ 8 ∧ side v ≤ c + 9) ∧ ¬ (side v ≤ r + 9 ∧ c ≤ 8)) := by
  have hn : 21 ≤ side v := by unfold side; omega
  have hparts : isFunction v r c = true ↔
      (finderAt 0 0 r c).isSome ∨ (finderAt 0 (side v - 7) r c).isSome ∨ (finderAt (side v - 7) 0 r c).isSome ∨
      (separatorPart (side v) r c).isSome ∨ (timingPart (side v) r c).isSome ∨ (alignPart v r c).isSome ∨
      (formatPart (side v) r c).isSome ∨ (darkPart (side v) r c).isSome ∨ (versionPart v r c).isSome := by
    simp only [isFunction, layout, List.findSome?_isSome_iff, List.mem_cons, List.not_mem_nil, or_false, id,
      exists_eq_or_imp, exists_eq_left]
  have hsome : ∀ (p : Prop) [Decidable p] (x : Bool), (if p then some x else none).isSome = true ↔ p := by
    intro p _ x; split <;> simp_all
  have hfind : ∀ a b, (finderAt a b r c).isSome = true ↔ a ≤ r ∧ r < a + 7 ∧ b ≤ c ∧ c < b + 7 := fun a b => hsome _ _
  have htime : (timingPart (side v) r c).isSome = true ↔
      (r = 6 ∧ 8 ≤ c ∧ c ≤ side v - 9) ∨ (c = 6 ∧ 8 ≤ r ∧ r ≤ side v - 9) := by
    unfold timingPart; split
    · simp_all
    · rw [hsome]; tauto
  rw [hparts, hfind, hfind, hfind, htime, alignPart_isSome, separatorPart, hsome, formatPart, hsome, darkPart, hsome,
    versionPart, hsome]
  have hrange := alignCentres_range h1 h2
  have halign : (∃ p ∈ alignPairs v, gap r p.1 ≤ 2 ∧ gap c p.2 ≤ 2) →
      ((r ≤ 8 ∧ c ≤ 8) ∨ (r ≤ 8 ∧ side v ≤ c + 8) ∨ (side v ≤ r + 8 ∧ c ≤ 8)) ∨
      (nearCentre v r = true ∧ nearCentre v c = true ∧
        ¬ (r ≤ 8 ∧ side v ≤ c + 9) ∧ ¬ (side v ≤ r + 9 ∧ c ≤ 8)) := by
    rintro ⟨⟨a, b⟩, hp, ha, hb⟩
    obtain ⟨hma, hmb, hno⟩ := (mem_alignPairs v a b).1 hp
    have h3 := hrange a hma
    have h4 := hrange b hmb
    refine .inr ⟨List.any_eq_true.2 ⟨a, hma, by simpa using ha⟩, List.any_eq_true.2 ⟨b, hmb, by simpa using hb⟩, ?_⟩
    simp only [gap] at ha hb
    omega
  have halign' : nearCentre v r = true → nearCentre v c = true →
      ¬ (r ≤ 8 ∧ side v ≤ c + 9) → ¬ (side v ≤ r + 9 ∧ c ≤ 8) → ¬ (r ≤ 8 ∧ c ≤ 8) →
      ∃ p ∈ alignPairs v, gap r p.1 ≤ 2 ∧ gap c p.2 ≤ 2 := by
    intro h5 h6 h7 h8 h9
    obtain ⟨a, hma, ha⟩ := List.any_eq_true.1 h5
    obtain ⟨b, hmb, hb⟩ := List.any_eq_true.1 h6
    simp only [decide_eq_true_eq] at ha hb
    refine ⟨(a, b), (mem_alignPairs v a b).2 ⟨hma, hmb, ?_⟩, ha, hb⟩
    simp only [gap] at ha hb
    omega
  generalize (∃ p ∈ alignPairs v, gap r p.1 ≤ 2 ∧ gap c p.2 ≤ 2) = hit at halign halign'
  generalize nearCentre v r = nr at halign halign'
  generalize nearCentre v c = nc at halign halign'
  clear hrange hparts hsome hfind htime
  generalize side v = n at *
  constructor
  · rintro (h | h | h | h | h | h | h | h | h)
    · exact .inl (by omega)
    · exact .inr (.inl (by omega))
    · exact .inr (.inr (.inl (by omega)))
    · clear halign halign'
      rcases h with h | h | h | h | h | h
      · exact .inl (by omega)
      · exact .inl (by omega)
      · exact .inr (.inl (by omega))
      · exact .inr (.inl (by omega))
      · exact .inr (.inr (.inl (by omega)))
      · exact .inr (.inr (.inl (by omega)))
    · rcases h with h | h
      · exact .inr (.inr (.inr (.inl h.1)))
      · exact .inr (.inr (.inr (.inr (.inl h.1))))
    · rcases halign h with (h | h | h) | h
      · exact .inl h
      · exact .inr (.inl h)
      · exact .inr (.inr (.inl h))
      · exact .inr (.inr (.inr (.inr (.inr (.inr h)))))
    · clear halign halign'
      rcases h with h | h | h | h
      · exact .inl (by omega)
      · exact .inl (by omega)
      · exact .inr (.inl (by omega))
      · exact .inr (.inr (.inl (by omega)))
    · exact .inr (.inr (.inl (by omega)))
    · refine .inr (.inr (.inr (.inr (.inr (.inl ⟨h.1, ?_⟩)))))
      clear halign halign'
      rcases h.2 with h | h
      · exact .inl (by omega)
      · exact .inr (by omega)
  · intro h
    by_cases h9 : r ≤ 8 ∧ c ≤ 8
    · clear h halign halign'
      rcases (by omega : (r ≤ 6 ∧ c ≤ 6) ∨ (r = 7 ∧ c ≤ 7) ∨ (c = 7 ∧ r ≤ 7) ∨ (r = 8 ∧ c ≤ 7 ∧ c ≠ 6) ∨
        (r = 8 ∧ c = 6) ∨ (c = 8 ∧ r ≤ 8 ∧ r ≠ 6) ∨ (c = 8 ∧ r = 6)) with h | h | h | h | h | h | h
      · exact .inl (by omega)
      · exact .inr (.inr (.inr (.inl (.inl (by omega)))))
      · exact .inr (.inr (.inr (.inl (.inr (.inl (by omega))))))
      · exact .inr (.inr (.inr (.inr (.inr (.inr (.inl (.inr (.inl (by omega)))))))))
      · exact .inr (.inr (.inr (.inr (.inl (.inr (by omega))))))
      · exact .inr (.inr (.inr (.inr (.inr (.inr (.inl (.inl (by omega))))))))
      · exact .inr (.inr (.inr (.inr (.inl (.inl (by omega))))))
    · rcases h with h | h | h | h | h | h | h
      · exact absurd h h9
      · clear halign halign'
        rcases (by omega : (r ≤ 6 ∧ n ≤ c + 7) ∨ (r = 7 ∧ n ≤ c + 8) ∨ (c + 8 = n ∧ r ≤ 7) ∨ (r = 8 ∧ n ≤ c + 8))
          with h | h | h | h
        · exact .inr (.inl (by omega))
        · exact .inr (.inr (.inr (.inl (.inr (.inr (.inl (by omega)))))))
        · exact .inr (.inr (.inr (.inl (.inr (.inr (.inr (.inl (by omega))))))))
        · exact .inr (.inr (.inr (.inr (.inr (.inr (.inl (.inr (.inr (.inl (by omega))))))))))
      · clear halign halign'
        rcases (by omega : (n ≤ r + 7 ∧ c ≤ 6) ∨ (r + 8 = n ∧ c ≤ 7) ∨ (c = 7 ∧ n ≤ r + 8) ∨ (c = 8 ∧ n ≤ r + 7) ∨
          (r + 8 = n ∧ c = 8)) with h | h | h | h | h
        · exact .inr (.inr (.inl (by omega)))
        · exact .inr (.inr (.inr (.inl (.inr (.inr (.inr (.inr (.inl (by omega)))))))))
        · exact .inr (.inr (.inr (.inl (.inr (.inr (.inr (.inr (.inr (by omega)))))))))
        · exact .inr (.inr (.inr (.inr (.inr (.inr (.inl (.inr (.inr (.inr (by omega))))))))))
        · exact .inr (.inr (.inr (.inr (.inr (.inr (.inr (.inl (by omega))))))))
      · clear halign halign'
        rcases (by omega : c ≤ 6 ∨ c = 7 ∨ (8 ≤ c ∧ c + 9 ≤ n) ∨ c + 8 = n ∨ n ≤ c + 7) with h' | h' | h' | h' | h'
        · exact .inl (by omega)
        · exact .inr (.inr (.inr (.inl (.inr (.inl (by omega))))))
        · exact .inr (.inr (.inr (.inr (.inl (.inl (by omega))))))
        · exact .inr (.inr (.inr (.inl (.inr (.inr (.inr (.inl (by omega))))))))
        · exact .inr (.inl (by omega))
      · clear halign halign'
        rcases (by omega : r ≤ 6 ∨ r = 7 ∨ (8 ≤ r ∧ r + 9 ≤ n) ∨ r + 8 = n ∨ n ≤ r + 7) with h' | h' | h' | h' | h'
        · exact .inl (by omega)
        · exact .inr (.inr (.inr (.inl (.inl (by omega)))))
        · exact .inr (.inr (.inr (.inr (.inl (.inr (by omega))))))
        · exact .inr (.inr (.inr (.inl (.inr (.inr (.inr (.inr (.inl (by omega)))))))))
        · exact .inr (.inr (.inl (by omega)))
      · refine .inr (.inr (.inr (.inr (.inr (.inr (.inr (.inr ⟨h.1, ?_⟩)))))))
        clear halign halign'
        rcases h.2 with h | h
        · exact .inl (by omega)
        · exact .inr (by omega)
      · exact .inr (.inr (.inr (.inr (.inr (.inl (halign' h.1 h.2.1 h.2.2.1 h.2.2.2 h9))))))

/-- The timing column holds function modules alone (43_assembler.md R214). -/
theorem isFunction_column_six {v r : Nat} (h1 : 1 ≤ v) (h2 : v ≤ 40) (hr : r < side v) : isFunction v r 6 = true :=
  (isFunction_iff h1 h2 hr (by unfold side; omega)).2 (.inr (.inr (.inr (.inr (.inl rfl)))))

/-! ## ZigZag(V) -/

/-- The right columns N − 1, N − 3, …, 8, then 5, 3, 1 (43_assembler.md R224). -/
theorem pairRight_eq (v p : Nat) :
    pairRight (side v) p = if 8 ≤ side v - 1 - 2 * p then side v - 1 - 2 * p else side v - 2 - 2 * p := by
  unfold pairRight side
  split <;> split <;> omega

/-- Pair p runs upward iff p is even, across the skipped column too (43_assembler.md R224). -/
theorem pair_upward {v p : Nat} (hp : p < (side v - 1) / 2) :
    ((pairRight (side v) p + 1) &&& 2 == 0) = decide (p % 2 = 0) := by
  have h2 : ∀ x : Nat, (x &&& 2 == 0) = decide (x / 2 % 2 = 0) := by
    intro x
    have h := Nat.and_two_pow x 1
    rw [show (2 : Nat) ^ 1 = 2 from rfl] at h
    rw [h, Nat.testBit_eq_decide_div_mod_eq, show (2 : Nat) ^ 1 = 2 from rfl]
    rcases Nat.mod_two_eq_zero_or_one (x / 2) with e | e <;> rw [e] <;> rfl
  rw [h2, pairRight_eq]
  unfold side at *
  congr 1
  split <;> exact propext (by omega)

/-- A column pair in scan order (43_assembler.md R224). -/
theorem pairModules_eq {v p : Nat} (hp : p < (side v - 1) / 2) :
    pairModules (side v) p = (List.range (side v)).flatMap fun k =>
      let r := if p % 2 = 0 then side v - 1 - k else k
      [(r, pairRight (side v) p), (r, pairRight (side v) p - 1)] := by
  unfold pairModules
  simp only [pair_upward hp, decide_eq_true_eq]

theorem mem_pairModules {v p r c : Nat} (hp : p < (side v - 1) / 2) :
    (r, c) ∈ pairModules (side v) p ↔
      r < side v ∧ (c = pairRight (side v) p ∨ c = pairRight (side v) p - 1) := by
  rw [pairModules_eq hp]
  simp only [List.mem_flatMap, List.mem_range, List.mem_cons, Prod.mk.injEq, List.not_mem_nil, or_false]
  constructor
  · rintro ⟨k, hk, h⟩
    split at h <;> omega
  · rintro ⟨hr, h⟩
    by_cases he : p % 2 = 0
    · refine ⟨side v - 1 - r, by omega, ?_⟩
      rw [if_pos he]; omega
    · exact ⟨r, hr, by rw [if_neg he]; omega⟩

theorem pairModules_nodup {v p : Nat} (hp : p < (side v - 1) / 2) : (pairModules (side v) p).Nodup := by
  have hright : 1 ≤ pairRight (side v) p := by rw [pairRight_eq]; unfold side at *; split <;> omega
  rw [pairModules_eq hp, List.nodup_flatMap]
  refine ⟨fun k _ => by simp; omega, ?_⟩
  refine List.Pairwise.imp_of_mem ?_ (List.nodup_range (n := side v))
  intro a b ha hb hab x hx hy
  simp only [List.mem_range, List.mem_cons, List.not_mem_nil, or_false] at ha hb hx hy
  have hxy : x.1 = (if p % 2 = 0 then side v - 1 - a else a) ∧ x.1 = (if p % 2 = 0 then side v - 1 - b else b) := by
    constructor
    · rcases hx with rfl | rfl <;> rfl
    · rcases hy with rfl | rfl <;> rfl
  split at hxy <;> omega

/-- The scan before the function modules are left out. -/
theorem mem_scan (v r c : Nat) :
    (r, c) ∈ (List.range ((side v - 1) / 2)).flatMap (pairModules (side v)) ↔ r < side v ∧ c < side v ∧ c ≠ 6 := by
  simp only [List.mem_flatMap, List.mem_range]
  constructor
  · rintro ⟨p, hp, h⟩
    have := (mem_pairModules hp).1 h
    rw [pairRight_eq] at this
    unfold side at *
    split at this <;> omega
  · rintro ⟨hr, hc, h6⟩
    refine ⟨if 6 < c then (side v - 1 - c) / 2 else (side v - 2 - c) / 2, ?_, ?_⟩
    · unfold side at *; split <;> omega
    · rw [mem_pairModules (by unfold side at *; split <;> omega), pairRight_eq]
      refine ⟨hr, ?_⟩
      unfold side at *
      split <;> split <;> omega

theorem scan_nodup (v : Nat) : ((List.range ((side v - 1) / 2)).flatMap (pairModules (side v))).Nodup := by
  rw [List.nodup_flatMap]
  refine ⟨fun p hp => pairModules_nodup (List.mem_range.1 hp), ?_⟩
  refine List.Pairwise.imp_of_mem ?_ (List.nodup_range (n := (side v - 1) / 2))
  rintro a b ha hb hab ⟨r, c⟩ hx hy
  have hx := ((mem_pairModules (List.mem_range.1 ha)).1 hx).2
  have hy := ((mem_pairModules (List.mem_range.1 hb)).1 hy).2
  rw [List.mem_range] at ha hb
  rw [pairRight_eq] at hx hy
  unfold side at *
  split at hx <;> split at hy <;> omega

/-- ZigZag(V) lists no module twice (43_assembler.md R224). -/
theorem zigzag_nodup (v : Nat) : (zigzag v).Nodup := (scan_nodup v).filter _

/-- ZigZag(V) lists the data modules (43_assembler.md R222, R224). -/
theorem mem_zigzag {v r c : Nat} (h1 : 1 ≤ v) (h2 : v ≤ 40) :
    (r, c) ∈ zigzag v ↔ r < side v ∧ c < side v ∧ isFunction v r c = false := by
  unfold zigzag
  rw [List.mem_filter, mem_scan]
  constructor
  · rintro ⟨⟨hr, hc, -⟩, h⟩
    exact ⟨hr, hc, by simpa using h⟩
  · rintro ⟨hr, hc, h⟩
    refine ⟨⟨hr, hc, ?_⟩, by simpa using h⟩
    rintro rfl
    rw [isFunction_column_six h1 h2 hr] at h
    cases h

/-! ## The number of data modules -/

/-- ZigZag(V) is as long as there are data modules, counted row by row. -/
theorem zigzag_length_rows {v : Nat} (h1 : 1 ≤ v) (h2 : v ≤ 40) :
    (zigzag v).length =
      ((List.range (side v)).map fun r => (List.range (side v)).countP fun c => !isFunction v r c).sum := by
  have hperm : (zigzag v).Perm
      ((List.range (side v)).flatMap fun r => ((List.range (side v)).filter fun c => !isFunction v r c).map (Prod.mk r)) := by
    refine (List.perm_ext_iff_of_nodup (zigzag_nodup v) ?_).2 ?_
    · rw [List.nodup_flatMap]
      refine ⟨fun r _ => (List.nodup_range.filter _).map fun _ _ h => (Prod.mk.inj h).2, ?_⟩
      refine List.Pairwise.imp_of_mem ?_ (List.nodup_range (n := side v))
      rintro a b - - hab ⟨r, c⟩ hx hy
      simp only [List.mem_map, Prod.mk.injEq] at hx hy
      obtain ⟨_, _, rfl, _⟩ := hx
      obtain ⟨_, _, rfl, _⟩ := hy
      exact hab rfl
    · rintro ⟨r, c⟩
      rw [mem_zigzag h1 h2]
      simp only [List.mem_flatMap, List.mem_range, List.mem_map, List.mem_filter, Prod.mk.injEq, Bool.not_eq_true']
      constructor
      · rintro ⟨hr, hc, h⟩; exact ⟨r, hr, c, ⟨hc, h⟩, rfl, rfl⟩
      · rintro ⟨_, hr, _, ⟨hc, h⟩, rfl, rfl⟩; exact ⟨hr, hc, h⟩
  rw [hperm.length_eq, List.length_flatMap]
  congr 1
  refine List.map_congr_left fun r _ => ?_
  rw [List.length_map, List.countP_eq_length_filter]

/-- The rows and columns within two of a coordinate of ALIGN_TABLE(V), as the bits of a number. -/
def nearMask (v : Nat) : Nat := (alignCentres v).foldl (fun m a => m ||| (31 <<< (a - 2))) 0

theorem nearCentre_eq {v x : Nat} (h1 : 1 ≤ v) (h2 : v ≤ 40) (hx : x < side v) :
    nearCentre v x = (nearMask v).testBit x := by
  have h : ∀ w ∈ List.range 40, ∀ y ∈ List.range (side (w + 1)),
      nearCentre (w + 1) y = (nearMask (w + 1)).testBit y := by decide +kernel
  have := h (v - 1) (List.mem_range.2 (by omega)) x
  rw [show v - 1 + 1 = v by omega] at this
  exact this (List.mem_range.2 hx)

/-- `f b`, with `b` evaluated first. -/
def evaluated (b : Bool) (f : Bool → Nat) : Nat :=
  match b with
  | true => f true
  | false => f false

theorem evaluated_eq (b : Bool) (f : Bool → Nat) : evaluated b f = f b := by cases b <;> rfl

/-- How many of 0, …, n − 1 satisfy `p`. -/
def countBelow (p : Nat → Bool) : Nat → Nat
  | 0 => 0
  | n + 1 => bif p n then countBelow p n + 1 else countBelow p n

theorem countBelow_eq (p : Nat → Bool) (n : Nat) : countBelow p n = (List.range n).countP p := by
  induction n with
  | zero => rfl
  | succ n ih =>
    rw [countBelow, ih, List.range_succ, List.countP_append, List.countP_singleton]
    cases p n <;> rfl

/-- Is column `c` of a row a data module?  The row is given by what decides it: among the top or the bottom nine
rows, beside a version area, near an alignment coordinate, and from N − 9 down. -/
def dataColumn (n v : Nat) (top bottom topVersion leftVersion near low : Bool) (c : Nat) : Bool :=
  bif Nat.beq c 6 then false
  else bif Nat.ble c 8 then
    bif top then false
    else bif bottom then false
    else bif leftVersion && Nat.ble c 5 then false
    else bif near && !low then !(nearMask v).testBit c
    else true
  else bif top then
    bif Nat.ble n (c + 8) then false
    else bif topVersion && Nat.ble n (c + 11) && Nat.ble (c + 9) n then false
    else bif near && !Nat.ble n (c + 9) then !(nearMask v).testBit c
    else true
  else bif near then !(nearMask v).testBit c
  else true

theorem dataColumn_eq {v r c : Nat} (h1 : 1 ≤ v) (h2 : v ≤ 40) (hr : r < side v) (hc : c < side v) (h6 : r ≠ 6) :
    dataColumn (side v) v (Nat.ble r 8) (Nat.ble (side v) (r + 8)) (Nat.ble 7 v && Nat.ble r 5)
      (Nat.ble 7 v && Nat.ble (side v) (r + 11) && Nat.ble (r + 9) (side v)) ((nearMask v).testBit r)
      (Nat.ble (side v) (r + 9)) c = !isFunction v r c := by
  have hble : ∀ a b, Nat.ble a b = decide (a ≤ b) := fun a b => by rw [Bool.eq_iff_iff]; simp
  have hbeq : Nat.beq c 6 = decide (c = 6) := by rw [Bool.eq_iff_iff]; simp
  have hn : 21 ≤ side v := by unfold side; omega
  have hf := isFunction_iff h1 h2 hr hc
  rw [nearCentre_eq h1 h2 hr, nearCentre_eq h1 h2 hc] at hf
  unfold dataColumn
  simp only [hble, hbeq, Bool.cond_eq_ite, Bool.and_eq_true, decide_eq_true_eq, Bool.not_eq_true', decide_eq_false_iff_not]
  generalize isFunction v r c = f at *
  generalize (nearMask v).testBit r = nr at *
  generalize (nearMask v).testBit c = nc at *
  generalize side v = n at *
  rw [Bool.eq_iff_iff]
  cases f <;> cases nr <;> cases nc <;> simp at hf ⊢ <;> (try split_ifs) <;> (try simp) <;> (intros; omega)

/-- The data modules of version `v`, row by row. -/
def dataModules (v : Nat) : Nat :=
  ((List.range (side v)).map fun r =>
    bif Nat.beq r 6 then 0
    else
      evaluated (Nat.ble r 8) fun top => evaluated (Nat.ble (side v) (r + 8)) fun bottom =>
      evaluated (Nat.ble 7 v && Nat.ble r 5) fun topVersion =>
      evaluated (Nat.ble 7 v && Nat.ble (side v) (r + 11) && Nat.ble (r + 9) (side v)) fun leftVersion =>
      evaluated ((nearMask v).testBit r) fun near => evaluated (Nat.ble (side v) (r + 9)) fun low =>
        countBelow (dataColumn (side v) v top bottom topVersion leftVersion near low) (side v)).sum

/-- |ZigZag(V)| = raw(V) (43_assembler.md R222, R224). -/
theorem zigzag_length {v : Nat} (h1 : 1 ≤ v) (h2 : v ≤ 40) : (zigzag v).length = rawModules v := by
  have h : ∀ w ∈ List.range 40, dataModules (w + 1) = rawModules (w + 1) := by decide +kernel
  have hraw := h (v - 1) (List.mem_range.2 (by omega))
  rw [show v - 1 + 1 = v by omega] at hraw
  rw [zigzag_length_rows h1 h2, ← hraw, dataModules]
  congr 1
  refine List.map_congr_left fun r hr => ?_
  rw [List.mem_range] at hr
  simp only [evaluated_eq, countBelow_eq]
  by_cases h6 : r = 6
  · subst h6
    rw [show Nat.beq 6 6 = true from rfl, cond_true, List.countP_eq_zero]
    intro c hc
    rw [List.mem_range] at hc
    simp [(isFunction_iff h1 h2 hr hc).2 (.inr (.inr (.inr (.inl rfl))))]
  · rw [show Nat.beq r 6 = false by rw [Bool.eq_false_iff]; simpa [Nat.beq_eq] using h6, cond_false]
    refine List.countP_congr fun c hc => ?_
    rw [dataColumn_eq h1 h2 hr (List.mem_range.1 hc) h6]

end Sys2Proof.Machine
end

