-- ==== Sys2Proof/Laws/State.lean ====
section
/-! SUPPORT. One lemma per field per update of the state, so that no later proof unfolds a record update
or an accessor.  The updates are the named operations of Machine/Ops.lean. -/

namespace Sys2Proof.Machine

/-! ## The buffer accessors -/

@[simp] theorem buf_inbuf (s : State) : s.buf .inbuf = s.inbuf := rfl
@[simp] theorem buf_datacw (s : State) : s.buf .datacw = s.datacw := rfl
@[simp] theorem buf_finalcw (s : State) : s.buf .finalcw = s.finalcw := rfl
@[simp] theorem buf_rsout (s : State) : s.buf .rsout = s.rsout := rfl
@[simp] theorem buf_funcmap (s : State) : s.buf .funcmap = s.funcmap := rfl
@[simp] theorem buf_placed (s : State) : s.buf .placed = s.placed := rfl
@[simp] theorem buf_matrix (s : State) : s.buf .matrix = s.matrix := rfl
@[simp] theorem buf_vecbuf (s : State) : s.buf .vecbuf = s.vecbuf := rfl

@[simp] theorem buf_setBuf_same (s : State) (b : BufId) (v : Buffer) : (s.setBuf b v).buf b = v := by
  cases b <;> rfl

theorem buf_setBuf_other (s : State) {b c : BufId} (v : Buffer) (h : c ≠ b) :
    (s.setBuf b v).buf c = s.buf c := by
  cases b <;> cases c <;> first | rfl | exact absurd rfl h

theorem buf_setBuf (s : State) (b c : BufId) (v : Buffer) :
    (s.setBuf b v).buf c = if c = b then v else s.buf c := by
  cases b <;> cases c <;> rfl

/-! ## setBuf, writeBuf and writeMatrix leave every register -/

@[simp] theorem setBuf_lastOp (s : State) (b : BufId) (v : Buffer) : (s.setBuf b v).lastOp = s.lastOp := by
  cases b <;> rfl
@[simp] theorem setBuf_status (s : State) (b : BufId) (v : Buffer) : (s.setBuf b v).status = s.status := by
  cases b <;> rfl
@[simp] theorem setBuf_irqEn (s : State) (b : BufId) (v : Buffer) : (s.setBuf b v).irqEn = s.irqEn := by
  cases b <;> rfl
@[simp] theorem setBuf_irqPend (s : State) (b : BufId) (v : Buffer) : (s.setBuf b v).irqPend = s.irqPend := by
  cases b <;> rfl
@[simp] theorem setBuf_config (s : State) (b : BufId) (v : Buffer) : (s.setBuf b v).config = s.config := by
  cases b <;> rfl
@[simp] theorem setBuf_inLen (s : State) (b : BufId) (v : Buffer) : (s.setBuf b v).inLen = s.inLen := by
  cases b <;> rfl
@[simp] theorem setBuf_jobTag (s : State) (b : BufId) (v : Buffer) : (s.setBuf b v).jobTag = s.jobTag := by
  cases b <;> rfl
@[simp] theorem setBuf_resultTag (s : State) (b : BufId) (v : Buffer) : (s.setBuf b v).resultTag = s.resultTag := by
  cases b <;> rfl
@[simp] theorem setBuf_symbol (s : State) (b : BufId) (v : Buffer) : (s.setBuf b v).symbol = s.symbol := by
  cases b <;> rfl
@[simp] theorem setBuf_dataCount (s : State) (b : BufId) (v : Buffer) : (s.setBuf b v).dataCount = s.dataCount := by
  cases b <;> rfl
@[simp] theorem setBuf_cwCount (s : State) (b : BufId) (v : Buffer) : (s.setBuf b v).cwCount = s.cwCount := by
  cases b <;> rfl
@[simp] theorem setBuf_mside (s : State) (b : BufId) (v : Buffer) : (s.setBuf b v).mside = s.mside := by
  cases b <;> rfl
@[simp] theorem setBuf_formatBits (s : State) (b : BufId) (v : Buffer) : (s.setBuf b v).formatBits = s.formatBits := by
  cases b <;> rfl
@[simp] theorem setBuf_versionBits (s : State) (b : BufId) (v : Buffer) : (s.setBuf b v).versionBits = s.versionBits := by
  cases b <;> rfl
@[simp] theorem setBuf_rsParam (s : State) (b : BufId) (v : Buffer) : (s.setBuf b v).rsParam = s.rsParam := by
  cases b <;> rfl
@[simp] theorem setBuf_vecCount (s : State) (b : BufId) (v : Buffer) : (s.setBuf b v).vecCount = s.vecCount := by
  cases b <;> rfl
@[simp] theorem setBuf_vecExtent (s : State) (b : BufId) (v : Buffer) : (s.setBuf b v).vecExtent = s.vecExtent := by
  cases b <;> rfl
@[simp] theorem setBuf_rasterSize (s : State) (b : BufId) (v : Buffer) : (s.setBuf b v).rasterSize = s.rasterSize := by
  cases b <;> rfl
@[simp] theorem setBuf_colorDark (s : State) (b : BufId) (v : Buffer) : (s.setBuf b v).colorDark = s.colorDark := by
  cases b <;> rfl
@[simp] theorem setBuf_colorLight (s : State) (b : BufId) (v : Buffer) : (s.setBuf b v).colorLight = s.colorLight := by
  cases b <;> rfl
@[simp] theorem setBuf_penalty (s : State) (b : BufId) (v : Buffer) : (s.setBuf b v).penalty = s.penalty := by
  cases b <;> rfl
@[simp] theorem setBuf_penTerms (s : State) (b : BufId) (v : Buffer) : (s.setBuf b v).penTerms = s.penTerms := by
  cases b <;> rfl
@[simp] theorem setBuf_pendingOp (s : State) (b : BufId) (v : Buffer) : (s.setBuf b v).pendingOp = s.pendingOp := by
  cases b <;> rfl
@[simp] theorem setBuf_pendingTag (s : State) (b : BufId) (v : Buffer) : (s.setBuf b v).pendingTag = s.pendingTag := by
  cases b <;> rfl
@[simp] theorem setBuf_turns (s : State) (b : BufId) (v : Buffer) : (s.setBuf b v).turns = s.turns := by
  cases b <;> rfl
@[simp] theorem setBuf_resp (s : State) (b : BufId) (v : Buffer) : (s.setBuf b v).resp = s.resp := by
  cases b <;> rfl
@[simp] theorem setBuf_nextDraw (s : State) (b : BufId) (v : Buffer) : (s.setBuf b v).nextDraw = s.nextDraw := by
  cases b <;> rfl
@[simp] theorem writeBuf_lastOp (s : State) (b : BufId) (k : Nat) (bs : List Byte) :
    (s.writeBuf b k bs).lastOp = s.lastOp := setBuf_lastOp ..
@[simp] theorem writeBuf_status (s : State) (b : BufId) (k : Nat) (bs : List Byte) :
    (s.writeBuf b k bs).status = s.status := setBuf_status ..
@[simp] theorem writeBuf_irqEn (s : State) (b : BufId) (k : Nat) (bs : List Byte) :
    (s.writeBuf b k bs).irqEn = s.irqEn := setBuf_irqEn ..
@[simp] theorem writeBuf_irqPend (s : State) (b : BufId) (k : Nat) (bs : List Byte) :
    (s.writeBuf b k bs).irqPend = s.irqPend := setBuf_irqPend ..
@[simp] theorem writeBuf_config (s : State) (b : BufId) (k : Nat) (bs : List Byte) :
    (s.writeBuf b k bs).config = s.config := setBuf_config ..
@[simp] theorem writeBuf_inLen (s : State) (b : BufId) (k : Nat) (bs : List Byte) :
    (s.writeBuf b k bs).inLen = s.inLen := setBuf_inLen ..
@[simp] theorem writeBuf_jobTag (s : State) (b : BufId) (k : Nat) (bs : List Byte) :
    (s.writeBuf b k bs).jobTag = s.jobTag := setBuf_jobTag ..
@[simp] theorem writeBuf_resultTag (s : State) (b : BufId) (k : Nat) (bs : List Byte) :
    (s.writeBuf b k bs).resultTag = s.resultTag := setBuf_resultTag ..
@[simp] theorem writeBuf_symbol (s : State) (b : BufId) (k : Nat) (bs : List Byte) :
    (s.writeBuf b k bs).symbol = s.symbol := setBuf_symbol ..
@[simp] theorem writeBuf_dataCount (s : State) (b : BufId) (k : Nat) (bs : List Byte) :
    (s.writeBuf b k bs).dataCount = s.dataCount := setBuf_dataCount ..
@[simp] theorem writeBuf_cwCount (s : State) (b : BufId) (k : Nat) (bs : List Byte) :
    (s.writeBuf b k bs).cwCount = s.cwCount := setBuf_cwCount ..
@[simp] theorem writeBuf_mside (s : State) (b : BufId) (k : Nat) (bs : List Byte) :
    (s.writeBuf b k bs).mside = s.mside := setBuf_mside ..
@[simp] theorem writeBuf_formatBits (s : State) (b : BufId) (k : Nat) (bs : List Byte) :
    (s.writeBuf b k bs).formatBits = s.formatBits := setBuf_formatBits ..
@[simp] theorem writeBuf_versionBits (s : State) (b : BufId) (k : Nat) (bs : List Byte) :
    (s.writeBuf b k bs).versionBits = s.versionBits := setBuf_versionBits ..
@[simp] theorem writeBuf_rsParam (s : State) (b : BufId) (k : Nat) (bs : List Byte) :
    (s.writeBuf b k bs).rsParam = s.rsParam := setBuf_rsParam ..
@[simp] theorem writeBuf_vecCount (s : State) (b : BufId) (k : Nat) (bs : List Byte) :
    (s.writeBuf b k bs).vecCount = s.vecCount := setBuf_vecCount ..
@[simp] theorem writeBuf_vecExtent (s : State) (b : BufId) (k : Nat) (bs : List Byte) :
    (s.writeBuf b k bs).vecExtent = s.vecExtent := setBuf_vecExtent ..
@[simp] theorem writeBuf_rasterSize (s : State) (b : BufId) (k : Nat) (bs : List Byte) :
    (s.writeBuf b k bs).rasterSize = s.rasterSize := setBuf_rasterSize ..
@[simp] theorem writeBuf_colorDark (s : State) (b : BufId) (k : Nat) (bs : List Byte) :
    (s.writeBuf b k bs).colorDark = s.colorDark := setBuf_colorDark ..
@[simp] theorem writeBuf_colorLight (s : State) (b : BufId) (k : Nat) (bs : List Byte) :
    (s.writeBuf b k bs).colorLight = s.colorLight := setBuf_colorLight ..
@[simp] theorem writeBuf_penalty (s : State) (b : BufId) (k : Nat) (bs : List Byte) :
    (s.writeBuf b k bs).penalty = s.penalty := setBuf_penalty ..
@[simp] theorem writeBuf_penTerms (s : State) (b : BufId) (k : Nat) (bs : List Byte) :
    (s.writeBuf b k bs).penTerms = s.penTerms := setBuf_penTerms ..
@[simp] theorem writeBuf_pendingOp (s : State) (b : BufId) (k : Nat) (bs : List Byte) :
    (s.writeBuf b k bs).pendingOp = s.pendingOp := setBuf_pendingOp ..
@[simp] theorem writeBuf_pendingTag (s : State) (b : BufId) (k : Nat) (bs : List Byte) :
    (s.writeBuf b k bs).pendingTag = s.pendingTag := setBuf_pendingTag ..
@[simp] theorem writeBuf_turns (s : State) (b : BufId) (k : Nat) (bs : List Byte) :
    (s.writeBuf b k bs).turns = s.turns := setBuf_turns ..
@[simp] theorem writeBuf_resp (s : State) (b : BufId) (k : Nat) (bs : List Byte) :
    (s.writeBuf b k bs).resp = s.resp := setBuf_resp ..
@[simp] theorem writeBuf_nextDraw (s : State) (b : BufId) (k : Nat) (bs : List Byte) :
    (s.writeBuf b k bs).nextDraw = s.nextDraw := setBuf_nextDraw ..
@[simp] theorem writeMatrix_lastOp (s : State) (b : BufId) (m : Matrix) :
    (s.writeMatrix b m).lastOp = s.lastOp := writeBuf_lastOp ..
@[simp] theorem writeMatrix_status (s : State) (b : BufId) (m : Matrix) :
    (s.writeMatrix b m).status = s.status := writeBuf_status ..
@[simp] theorem writeMatrix_irqEn (s : State) (b : BufId) (m : Matrix) :
    (s.writeMatrix b m).irqEn = s.irqEn := writeBuf_irqEn ..
@[simp] theorem writeMatrix_irqPend (s : State) (b : BufId) (m : Matrix) :
    (s.writeMatrix b m).irqPend = s.irqPend := writeBuf_irqPend ..
@[simp] theorem writeMatrix_config (s : State) (b : BufId) (m : Matrix) :
    (s.writeMatrix b m).config = s.config := writeBuf_config ..
@[simp] theorem writeMatrix_inLen (s : State) (b : BufId) (m : Matrix) :
    (s.writeMatrix b m).inLen = s.inLen := writeBuf_inLen ..
@[simp] theorem writeMatrix_jobTag (s : State) (b : BufId) (m : Matrix) :
    (s.writeMatrix b m).jobTag = s.jobTag := writeBuf_jobTag ..
@[simp] theorem writeMatrix_resultTag (s : State) (b : BufId) (m : Matrix) :
    (s.writeMatrix b m).resultTag = s.resultTag := writeBuf_resultTag ..
@[simp] theorem writeMatrix_symbol (s : State) (b : BufId) (m : Matrix) :
    (s.writeMatrix b m).symbol = s.symbol := writeBuf_symbol ..
@[simp] theorem writeMatrix_dataCount (s : State) (b : BufId) (m : Matrix) :
    (s.writeMatrix b m).dataCount = s.dataCount := writeBuf_dataCount ..
@[simp] theorem writeMatrix_cwCount (s : State) (b : BufId) (m : Matrix) :
    (s.writeMatrix b m).cwCount = s.cwCount := writeBuf_cwCount ..
@[simp] theorem writeMatrix_mside (s : State) (b : BufId) (m : Matrix) :
    (s.writeMatrix b m).mside = s.mside := writeBuf_mside ..
@[simp] theorem writeMatrix_formatBits (s : State) (b : BufId) (m : Matrix) :
    (s.writeMatrix b m).formatBits = s.formatBits := writeBuf_formatBits ..
@[simp] theorem writeMatrix_versionBits (s : State) (b : BufId) (m : Matrix) :
    (s.writeMatrix b m).versionBits = s.versionBits := writeBuf_versionBits ..
@[simp] theorem writeMatrix_rsParam (s : State) (b : BufId) (m : Matrix) :
    (s.writeMatrix b m).rsParam = s.rsParam := writeBuf_rsParam ..
@[simp] theorem writeMatrix_vecCount (s : State) (b : BufId) (m : Matrix) :
    (s.writeMatrix b m).vecCount = s.vecCount := writeBuf_vecCount ..
@[simp] theorem writeMatrix_vecExtent (s : State) (b : BufId) (m : Matrix) :
    (s.writeMatrix b m).vecExtent = s.vecExtent := writeBuf_vecExtent ..
@[simp] theorem writeMatrix_rasterSize (s : State) (b : BufId) (m : Matrix) :
    (s.writeMatrix b m).rasterSize = s.rasterSize := writeBuf_rasterSize ..
@[simp] theorem writeMatrix_colorDark (s : State) (b : BufId) (m : Matrix) :
    (s.writeMatrix b m).colorDark = s.colorDark := writeBuf_colorDark ..
@[simp] theorem writeMatrix_colorLight (s : State) (b : BufId) (m : Matrix) :
    (s.writeMatrix b m).colorLight = s.colorLight := writeBuf_colorLight ..
@[simp] theorem writeMatrix_penalty (s : State) (b : BufId) (m : Matrix) :
    (s.writeMatrix b m).penalty = s.penalty := writeBuf_penalty ..
@[simp] theorem writeMatrix_penTerms (s : State) (b : BufId) (m : Matrix) :
    (s.writeMatrix b m).penTerms = s.penTerms := writeBuf_penTerms ..
@[simp] theorem writeMatrix_pendingOp (s : State) (b : BufId) (m : Matrix) :
    (s.writeMatrix b m).pendingOp = s.pendingOp := writeBuf_pendingOp ..
@[simp] theorem writeMatrix_pendingTag (s : State) (b : BufId) (m : Matrix) :
    (s.writeMatrix b m).pendingTag = s.pendingTag := writeBuf_pendingTag ..
@[simp] theorem writeMatrix_turns (s : State) (b : BufId) (m : Matrix) :
    (s.writeMatrix b m).turns = s.turns := writeBuf_turns ..
@[simp] theorem writeMatrix_resp (s : State) (b : BufId) (m : Matrix) :
    (s.writeMatrix b m).resp = s.resp := writeBuf_resp ..
@[simp] theorem writeMatrix_nextDraw (s : State) (b : BufId) (m : Matrix) :
    (s.writeMatrix b m).nextDraw = s.nextDraw := writeBuf_nextDraw ..

/-! ## respond -/

@[simp] theorem respond_lastOp (s : State) (d : Word) : (s.respond d).lastOp = s.lastOp := rfl
@[simp] theorem respond_status (s : State) (d : Word) : (s.respond d).status = s.status := rfl
@[simp] theorem respond_irqEn (s : State) (d : Word) : (s.respond d).irqEn = s.irqEn := rfl
@[simp] theorem respond_irqPend (s : State) (d : Word) : (s.respond d).irqPend = s.irqPend := rfl
@[simp] theorem respond_config (s : State) (d : Word) : (s.respond d).config = s.config := rfl
@[simp] theorem respond_inLen (s : State) (d : Word) : (s.respond d).inLen = s.inLen := rfl
@[simp] theorem respond_jobTag (s : State) (d : Word) : (s.respond d).jobTag = s.jobTag := rfl
@[simp] theorem respond_resultTag (s : State) (d : Word) : (s.respond d).resultTag = s.resultTag := rfl
@[simp] theorem respond_symbol (s : State) (d : Word) : (s.respond d).symbol = s.symbol := rfl
@[simp] theorem respond_dataCount (s : State) (d : Word) : (s.respond d).dataCount = s.dataCount := rfl
@[simp] theorem respond_cwCount (s : State) (d : Word) : (s.respond d).cwCount = s.cwCount := rfl
@[simp] theorem respond_mside (s : State) (d : Word) : (s.respond d).mside = s.mside := rfl
@[simp] theorem respond_formatBits (s : State) (d : Word) : (s.respond d).formatBits = s.formatBits := rfl
@[simp] theorem respond_versionBits (s : State) (d : Word) : (s.respond d).versionBits = s.versionBits := rfl
@[simp] theorem respond_rsParam (s : State) (d : Word) : (s.respond d).rsParam = s.rsParam := rfl
@[simp] theorem respond_vecCount (s : State) (d : Word) : (s.respond d).vecCount = s.vecCount := rfl
@[simp] theorem respond_vecExtent (s : State) (d : Word) : (s.respond d).vecExtent = s.vecExtent := rfl
@[simp] theorem respond_rasterSize (s : State) (d : Word) : (s.respond d).rasterSize = s.rasterSize := rfl
@[simp] theorem respond_colorDark (s : State) (d : Word) : (s.respond d).colorDark = s.colorDark := rfl
@[simp] theorem respond_colorLight (s : State) (d : Word) : (s.respond d).colorLight = s.colorLight := rfl
@[simp] theorem respond_penalty (s : State) (d : Word) : (s.respond d).penalty = s.penalty := rfl
@[simp] theorem respond_penTerms (s : State) (d : Word) : (s.respond d).penTerms = s.penTerms := rfl
@[simp] theorem respond_pendingOp (s : State) (d : Word) : (s.respond d).pendingOp = s.pendingOp := rfl
@[simp] theorem respond_pendingTag (s : State) (d : Word) : (s.respond d).pendingTag = s.pendingTag := rfl
@[simp] theorem respond_turns (s : State) (d : Word) : (s.respond d).turns = s.turns := rfl
@[simp] theorem respond_nextDraw (s : State) (d : Word) : (s.respond d).nextDraw = s.nextDraw := rfl
@[simp] theorem respond_inbuf (s : State) (d : Word) : (s.respond d).inbuf = s.inbuf := rfl
@[simp] theorem respond_datacw (s : State) (d : Word) : (s.respond d).datacw = s.datacw := rfl
@[simp] theorem respond_finalcw (s : State) (d : Word) : (s.respond d).finalcw = s.finalcw := rfl
@[simp] theorem respond_rsout (s : State) (d : Word) : (s.respond d).rsout = s.rsout := rfl
@[simp] theorem respond_funcmap (s : State) (d : Word) : (s.respond d).funcmap = s.funcmap := rfl
@[simp] theorem respond_placed (s : State) (d : Word) : (s.respond d).placed = s.placed := rfl
@[simp] theorem respond_matrix (s : State) (d : Word) : (s.respond d).matrix = s.matrix := rfl
@[simp] theorem respond_vecbuf (s : State) (d : Word) : (s.respond d).vecbuf = s.vecbuf := rfl
@[simp] theorem respond_buf (s : State) (d : Word) (b : BufId) : (s.respond d).buf b = s.buf b := by
  cases b <;> rfl

/-! ## respondError -/

@[simp] theorem respondError_lastOp (s : State) : (s.respondError).lastOp = s.lastOp := rfl
@[simp] theorem respondError_status (s : State) : (s.respondError).status = s.status := rfl
@[simp] theorem respondError_irqEn (s : State) : (s.respondError).irqEn = s.irqEn := rfl
@[simp] theorem respondError_irqPend (s : State) : (s.respondError).irqPend = s.irqPend := rfl
@[simp] theorem respondError_config (s : State) : (s.respondError).config = s.config := rfl
@[simp] theorem respondError_inLen (s : State) : (s.respondError).inLen = s.inLen := rfl
@[simp] theorem respondError_jobTag (s : State) : (s.respondError).jobTag = s.jobTag := rfl
@[simp] theorem respondError_resultTag (s : State) : (s.respondError).resultTag = s.resultTag := rfl
@[simp] theorem respondError_symbol (s : State) : (s.respondError).symbol = s.symbol := rfl
@[simp] theorem respondError_dataCount (s : State) : (s.respondError).dataCount = s.dataCount := rfl
@[simp] theorem respondError_cwCount (s : State) : (s.respondError).cwCount = s.cwCount := rfl
@[simp] theorem respondError_mside (s : State) : (s.respondError).mside = s.mside := rfl
@[simp] theorem respondError_formatBits (s : State) : (s.respondError).formatBits = s.formatBits := rfl
@[simp] theorem respondError_versionBits (s : State) : (s.respondError).versionBits = s.versionBits := rfl
@[simp] theorem respondError_rsParam (s : State) : (s.respondError).rsParam = s.rsParam := rfl
@[simp] theorem respondError_vecCount (s : State) : (s.respondError).vecCount = s.vecCount := rfl
@[simp] theorem respondError_vecExtent (s : State) : (s.respondError).vecExtent = s.vecExtent := rfl
@[simp] theorem respondError_rasterSize (s : State) : (s.respondError).rasterSize = s.rasterSize := rfl
@[simp] theorem respondError_colorDark (s : State) : (s.respondError).colorDark = s.colorDark := rfl
@[simp] theorem respondError_colorLight (s : State) : (s.respondError).colorLight = s.colorLight := rfl
@[simp] theorem respondError_penalty (s : State) : (s.respondError).penalty = s.penalty := rfl
@[simp] theorem respondError_penTerms (s : State) : (s.respondError).penTerms = s.penTerms := rfl
@[simp] theorem respondError_pendingOp (s : State) : (s.respondError).pendingOp = s.pendingOp := rfl
@[simp] theorem respondError_pendingTag (s : State) : (s.respondError).pendingTag = s.pendingTag := rfl
@[simp] theorem respondError_turns (s : State) : (s.respondError).turns = s.turns := rfl
@[simp] theorem respondError_nextDraw (s : State) : (s.respondError).nextDraw = s.nextDraw := rfl
@[simp] theorem respondError_inbuf (s : State) : (s.respondError).inbuf = s.inbuf := rfl
@[simp] theorem respondError_datacw (s : State) : (s.respondError).datacw = s.datacw := rfl
@[simp] theorem respondError_finalcw (s : State) : (s.respondError).finalcw = s.finalcw := rfl
@[simp] theorem respondError_rsout (s : State) : (s.respondError).rsout = s.rsout := rfl
@[simp] theorem respondError_funcmap (s : State) : (s.respondError).funcmap = s.funcmap := rfl
@[simp] theorem respondError_placed (s : State) : (s.respondError).placed = s.placed := rfl
@[simp] theorem respondError_matrix (s : State) : (s.respondError).matrix = s.matrix := rfl
@[simp] theorem respondError_vecbuf (s : State) : (s.respondError).vecbuf = s.vecbuf := rfl
@[simp] theorem respondError_buf (s : State) (b : BufId) : (s.respondError).buf b = s.buf b := by
  cases b <;> rfl

/-! ## dropWrite -/

@[simp] theorem dropWrite_lastOp (s : State) : (s.dropWrite).lastOp = s.lastOp := rfl
@[simp] theorem dropWrite_irqEn (s : State) : (s.dropWrite).irqEn = s.irqEn := rfl
@[simp] theorem dropWrite_irqPend (s : State) : (s.dropWrite).irqPend = s.irqPend := rfl
@[simp] theorem dropWrite_config (s : State) : (s.dropWrite).config = s.config := rfl
@[simp] theorem dropWrite_inLen (s : State) : (s.dropWrite).inLen = s.inLen := rfl
@[simp] theorem dropWrite_jobTag (s : State) : (s.dropWrite).jobTag = s.jobTag := rfl
@[simp] theorem dropWrite_resultTag (s : State) : (s.dropWrite).resultTag = s.resultTag := rfl
@[simp] theorem dropWrite_symbol (s : State) : (s.dropWrite).symbol = s.symbol := rfl
@[simp] theorem dropWrite_dataCount (s : State) : (s.dropWrite).dataCount = s.dataCount := rfl
@[simp] theorem dropWrite_cwCount (s : State) : (s.dropWrite).cwCount = s.cwCount := rfl
@[simp] theorem dropWrite_mside (s : State) : (s.dropWrite).mside = s.mside := rfl
@[simp] theorem dropWrite_formatBits (s : State) : (s.dropWrite).formatBits = s.formatBits := rfl
@[simp] theorem dropWrite_versionBits (s : State) : (s.dropWrite).versionBits = s.versionBits := rfl
@[simp] theorem dropWrite_rsParam (s : State) : (s.dropWrite).rsParam = s.rsParam := rfl
@[simp] theorem dropWrite_vecCount (s : State) : (s.dropWrite).vecCount = s.vecCount := rfl
@[simp] theorem dropWrite_vecExtent (s : State) : (s.dropWrite).vecExtent = s.vecExtent := rfl
@[simp] theorem dropWrite_rasterSize (s : State) : (s.dropWrite).rasterSize = s.rasterSize := rfl
@[simp] theorem dropWrite_colorDark (s : State) : (s.dropWrite).colorDark = s.colorDark := rfl
@[simp] theorem dropWrite_colorLight (s : State) : (s.dropWrite).colorLight = s.colorLight := rfl
@[simp] theorem dropWrite_penalty (s : State) : (s.dropWrite).penalty = s.penalty := rfl
@[simp] theorem dropWrite_penTerms (s : State) : (s.dropWrite).penTerms = s.penTerms := rfl
@[simp] theorem dropWrite_pendingOp (s : State) : (s.dropWrite).pendingOp = s.pendingOp := rfl
@[simp] theorem dropWrite_pendingTag (s : State) : (s.dropWrite).pendingTag = s.pendingTag := rfl
@[simp] theorem dropWrite_turns (s : State) : (s.dropWrite).turns = s.turns := rfl
@[simp] theorem dropWrite_resp (s : State) : (s.dropWrite).resp = s.resp := rfl
@[simp] theorem dropWrite_nextDraw (s : State) : (s.dropWrite).nextDraw = s.nextDraw := rfl
@[simp] theorem dropWrite_inbuf (s : State) : (s.dropWrite).inbuf = s.inbuf := rfl
@[simp] theorem dropWrite_datacw (s : State) : (s.dropWrite).datacw = s.datacw := rfl
@[simp] theorem dropWrite_finalcw (s : State) : (s.dropWrite).finalcw = s.finalcw := rfl
@[simp] theorem dropWrite_rsout (s : State) : (s.dropWrite).rsout = s.rsout := rfl
@[simp] theorem dropWrite_funcmap (s : State) : (s.dropWrite).funcmap = s.funcmap := rfl
@[simp] theorem dropWrite_placed (s : State) : (s.dropWrite).placed = s.placed := rfl
@[simp] theorem dropWrite_matrix (s : State) : (s.dropWrite).matrix = s.matrix := rfl
@[simp] theorem dropWrite_vecbuf (s : State) : (s.dropWrite).vecbuf = s.vecbuf := rfl
@[simp] theorem dropWrite_buf (s : State) (b : BufId) : (s.dropWrite).buf b = s.buf b := by
  cases b <;> rfl

/-! ## clearPending -/

@[simp] theorem clearPending_lastOp (s : State) (w : Word) : (s.clearPending w).lastOp = s.lastOp := rfl
@[simp] theorem clearPending_status (s : State) (w : Word) : (s.clearPending w).status = s.status := rfl
@[simp] theorem clearPending_irqEn (s : State) (w : Word) : (s.clearPending w).irqEn = s.irqEn := rfl
@[simp] theorem clearPending_config (s : State) (w : Word) : (s.clearPending w).config = s.config := rfl
@[simp] theorem clearPending_inLen (s : State) (w : Word) : (s.clearPending w).inLen = s.inLen := rfl
@[simp] theorem clearPending_jobTag (s : State) (w : Word) : (s.clearPending w).jobTag = s.jobTag := rfl
@[simp] theorem clearPending_resultTag (s : State) (w : Word) : (s.clearPending w).resultTag = s.resultTag := rfl
@[simp] theorem clearPending_symbol (s : State) (w : Word) : (s.clearPending w).symbol = s.symbol := rfl
@[simp] theorem clearPending_dataCount (s : State) (w : Word) : (s.clearPending w).dataCount = s.dataCount := rfl
@[simp] theorem clearPending_cwCount (s : State) (w : Word) : (s.clearPending w).cwCount = s.cwCount := rfl
@[simp] theorem clearPending_mside (s : State) (w : Word) : (s.clearPending w).mside = s.mside := rfl
@[simp] theorem clearPending_formatBits (s : State) (w : Word) : (s.clearPending w).formatBits = s.formatBits := rfl
@[simp] theorem clearPending_versionBits (s : State) (w : Word) : (s.clearPending w).versionBits = s.versionBits := rfl
@[simp] theorem clearPending_rsParam (s : State) (w : Word) : (s.clearPending w).rsParam = s.rsParam := rfl
@[simp] theorem clearPending_vecCount (s : State) (w : Word) : (s.clearPending w).vecCount = s.vecCount := rfl
@[simp] theorem clearPending_vecExtent (s : State) (w : Word) : (s.clearPending w).vecExtent = s.vecExtent := rfl
@[simp] theorem clearPending_rasterSize (s : State) (w : Word) : (s.clearPending w).rasterSize = s.rasterSize := rfl
@[simp] theorem clearPending_colorDark (s : State) (w : Word) : (s.clearPending w).colorDark = s.colorDark := rfl
@[simp] theorem clearPending_colorLight (s : State) (w : Word) : (s.clearPending w).colorLight = s.colorLight := rfl
@[simp] theorem clearPending_penalty (s : State) (w : Word) : (s.clearPending w).penalty = s.penalty := rfl
@[simp] theorem clearPending_penTerms (s : State) (w : Word) : (s.clearPending w).penTerms = s.penTerms := rfl
@[simp] theorem clearPending_pendingOp (s : State) (w : Word) : (s.clearPending w).pendingOp = s.pendingOp := rfl
@[simp] theorem clearPending_pendingTag (s : State) (w : Word) : (s.clearPending w).pendingTag = s.pendingTag := rfl
@[simp] theorem clearPending_turns (s : State) (w : Word) : (s.clearPending w).turns = s.turns := rfl
@[simp] theorem clearPending_resp (s : State) (w : Word) : (s.clearPending w).resp = s.resp := rfl
@[simp] theorem clearPending_nextDraw (s : State) (w : Word) : (s.clearPending w).nextDraw = s.nextDraw := rfl
@[simp] theorem clearPending_inbuf (s : State) (w : Word) : (s.clearPending w).inbuf = s.inbuf := rfl
@[simp] theorem clearPending_datacw (s : State) (w : Word) : (s.clearPending w).datacw = s.datacw := rfl
@[simp] theorem clearPending_finalcw (s : State) (w : Word) : (s.clearPending w).finalcw = s.finalcw := rfl
@[simp] theorem clearPending_rsout (s : State) (w : Word) : (s.clearPending w).rsout = s.rsout := rfl
@[simp] theorem clearPending_funcmap (s : State) (w : Word) : (s.clearPending w).funcmap = s.funcmap := rfl
@[simp] theorem clearPending_placed (s : State) (w : Word) : (s.clearPending w).placed = s.placed := rfl
@[simp] theorem clearPending_matrix (s : State) (w : Word) : (s.clearPending w).matrix = s.matrix := rfl
@[simp] theorem clearPending_vecbuf (s : State) (w : Word) : (s.clearPending w).vecbuf = s.vecbuf := rfl
@[simp] theorem clearPending_buf (s : State) (w : Word) (b : BufId) : (s.clearPending w).buf b = s.buf b := by
  cases b <;> rfl

/-! ## complete -/

@[simp] theorem complete_lastOp (s : State) : (s.complete).lastOp = s.lastOp := rfl
@[simp] theorem complete_irqEn (s : State) : (s.complete).irqEn = s.irqEn := rfl
@[simp] theorem complete_config (s : State) : (s.complete).config = s.config := rfl
@[simp] theorem complete_inLen (s : State) : (s.complete).inLen = s.inLen := rfl
@[simp] theorem complete_jobTag (s : State) : (s.complete).jobTag = s.jobTag := rfl
@[simp] theorem complete_symbol (s : State) : (s.complete).symbol = s.symbol := rfl
@[simp] theorem complete_dataCount (s : State) : (s.complete).dataCount = s.dataCount := rfl
@[simp] theorem complete_cwCount (s : State) : (s.complete).cwCount = s.cwCount := rfl
@[simp] theorem complete_mside (s : State) : (s.complete).mside = s.mside := rfl
@[simp] theorem complete_formatBits (s : State) : (s.complete).formatBits = s.formatBits := rfl
@[simp] theorem complete_versionBits (s : State) : (s.complete).versionBits = s.versionBits := rfl
@[simp] theorem complete_rsParam (s : State) : (s.complete).rsParam = s.rsParam := rfl
@[simp] theorem complete_vecCount (s : State) : (s.complete).vecCount = s.vecCount := rfl
@[simp] theorem complete_vecExtent (s : State) : (s.complete).vecExtent = s.vecExtent := rfl
@[simp] theorem complete_rasterSize (s : State) : (s.complete).rasterSize = s.rasterSize := rfl
@[simp] theorem complete_colorDark (s : State) : (s.complete).colorDark = s.colorDark := rfl
@[simp] theorem complete_colorLight (s : State) : (s.complete).colorLight = s.colorLight := rfl
@[simp] theorem complete_penalty (s : State) : (s.complete).penalty = s.penalty := rfl
@[simp] theorem complete_penTerms (s : State) : (s.complete).penTerms = s.penTerms := rfl
@[simp] theorem complete_pendingOp (s : State) : (s.complete).pendingOp = s.pendingOp := rfl
@[simp] theorem complete_pendingTag (s : State) : (s.complete).pendingTag = s.pendingTag := rfl
@[simp] theorem complete_turns (s : State) : (s.complete).turns = s.turns := rfl
@[simp] theorem complete_resp (s : State) : (s.complete).resp = s.resp := rfl
@[simp] theorem complete_nextDraw (s : State) : (s.complete).nextDraw = s.nextDraw := rfl
@[simp] theorem complete_inbuf (s : State) : (s.complete).inbuf = s.inbuf := rfl
@[simp] theorem complete_datacw (s : State) : (s.complete).datacw = s.datacw := rfl
@[simp] theorem complete_finalcw (s : State) : (s.complete).finalcw = s.finalcw := rfl
@[simp] theorem complete_rsout (s : State) : (s.complete).rsout = s.rsout := rfl
@[simp] theorem complete_funcmap (s : State) : (s.complete).funcmap = s.funcmap := rfl
@[simp] theorem complete_placed (s : State) : (s.complete).placed = s.placed := rfl
@[simp] theorem complete_matrix (s : State) : (s.complete).matrix = s.matrix := rfl
@[simp] theorem complete_vecbuf (s : State) : (s.complete).vecbuf = s.vecbuf := rfl
@[simp] theorem complete_buf (s : State) (b : BufId) : (s.complete).buf b = s.buf b := by
  cases b <;> rfl

/-! ## errorEnd -/

@[simp] theorem errorEnd_lastOp (s : State) (e : CommandError) : (s.errorEnd e).lastOp = s.lastOp := rfl
@[simp] theorem errorEnd_irqEn (s : State) (e : CommandError) : (s.errorEnd e).irqEn = s.irqEn := rfl
@[simp] theorem errorEnd_config (s : State) (e : CommandError) : (s.errorEnd e).config = s.config := rfl
@[simp] theorem errorEnd_inLen (s : State) (e : CommandError) : (s.errorEnd e).inLen = s.inLen := rfl
@[simp] theorem errorEnd_jobTag (s : State) (e : CommandError) : (s.errorEnd e).jobTag = s.jobTag := rfl
@[simp] theorem errorEnd_symbol (s : State) (e : CommandError) : (s.errorEnd e).symbol = s.symbol := rfl
@[simp] theorem errorEnd_dataCount (s : State) (e : CommandError) : (s.errorEnd e).dataCount = s.dataCount := rfl
@[simp] theorem errorEnd_cwCount (s : State) (e : CommandError) : (s.errorEnd e).cwCount = s.cwCount := rfl
@[simp] theorem errorEnd_mside (s : State) (e : CommandError) : (s.errorEnd e).mside = s.mside := rfl
@[simp] theorem errorEnd_formatBits (s : State) (e : CommandError) : (s.errorEnd e).formatBits = s.formatBits := rfl
@[simp] theorem errorEnd_versionBits (s : State) (e : CommandError) : (s.errorEnd e).versionBits = s.versionBits := rfl
@[simp] theorem errorEnd_rsParam (s : State) (e : CommandError) : (s.errorEnd e).rsParam = s.rsParam := rfl
@[simp] theorem errorEnd_vecCount (s : State) (e : CommandError) : (s.errorEnd e).vecCount = s.vecCount := rfl
@[simp] theorem errorEnd_vecExtent (s : State) (e : CommandError) : (s.errorEnd e).vecExtent = s.vecExtent := rfl
@[simp] theorem errorEnd_rasterSize (s : State) (e : CommandError) : (s.errorEnd e).rasterSize = s.rasterSize := rfl
@[simp] theorem errorEnd_colorDark (s : State) (e : CommandError) : (s.errorEnd e).colorDark = s.colorDark := rfl
@[simp] theorem errorEnd_colorLight (s : State) (e : CommandError) : (s.errorEnd e).colorLight = s.colorLight := rfl
@[simp] theorem errorEnd_penalty (s : State) (e : CommandError) : (s.errorEnd e).penalty = s.penalty := rfl
@[simp] theorem errorEnd_penTerms (s : State) (e : CommandError) : (s.errorEnd e).penTerms = s.penTerms := rfl
@[simp] theorem errorEnd_pendingOp (s : State) (e : CommandError) : (s.errorEnd e).pendingOp = s.pendingOp := rfl
@[simp] theorem errorEnd_pendingTag (s : State) (e : CommandError) : (s.errorEnd e).pendingTag = s.pendingTag := rfl
@[simp] theorem errorEnd_turns (s : State) (e : CommandError) : (s.errorEnd e).turns = s.turns := rfl
@[simp] theorem errorEnd_resp (s : State) (e : CommandError) : (s.errorEnd e).resp = s.resp := rfl
@[simp] theorem errorEnd_nextDraw (s : State) (e : CommandError) : (s.errorEnd e).nextDraw = s.nextDraw := rfl
@[simp] theorem errorEnd_inbuf (s : State) (e : CommandError) : (s.errorEnd e).inbuf = s.inbuf := rfl
@[simp] theorem errorEnd_datacw (s : State) (e : CommandError) : (s.errorEnd e).datacw = s.datacw := rfl
@[simp] theorem errorEnd_finalcw (s : State) (e : CommandError) : (s.errorEnd e).finalcw = s.finalcw := rfl
@[simp] theorem errorEnd_rsout (s : State) (e : CommandError) : (s.errorEnd e).rsout = s.rsout := rfl
@[simp] theorem errorEnd_funcmap (s : State) (e : CommandError) : (s.errorEnd e).funcmap = s.funcmap := rfl
@[simp] theorem errorEnd_placed (s : State) (e : CommandError) : (s.errorEnd e).placed = s.placed := rfl
@[simp] theorem errorEnd_matrix (s : State) (e : CommandError) : (s.errorEnd e).matrix = s.matrix := rfl
@[simp] theorem errorEnd_vecbuf (s : State) (e : CommandError) : (s.errorEnd e).vecbuf = s.vecbuf := rfl
@[simp] theorem errorEnd_buf (s : State) (e : CommandError) (b : BufId) : (s.errorEnd e).buf b = s.buf b := by
  cases b <;> rfl

/-! ## acceptOutcome -/

@[simp] theorem acceptOutcome_irqEn (s : State) (op : BitVec 4) : (s.acceptOutcome op).irqEn = s.irqEn := rfl
@[simp] theorem acceptOutcome_irqPend (s : State) (op : BitVec 4) : (s.acceptOutcome op).irqPend = s.irqPend := rfl
@[simp] theorem acceptOutcome_config (s : State) (op : BitVec 4) : (s.acceptOutcome op).config = s.config := rfl
@[simp] theorem acceptOutcome_inLen (s : State) (op : BitVec 4) : (s.acceptOutcome op).inLen = s.inLen := rfl
@[simp] theorem acceptOutcome_jobTag (s : State) (op : BitVec 4) : (s.acceptOutcome op).jobTag = s.jobTag := rfl
@[simp] theorem acceptOutcome_resultTag (s : State) (op : BitVec 4) : (s.acceptOutcome op).resultTag = s.resultTag := rfl
@[simp] theorem acceptOutcome_symbol (s : State) (op : BitVec 4) : (s.acceptOutcome op).symbol = s.symbol := rfl
@[simp] theorem acceptOutcome_dataCount (s : State) (op : BitVec 4) : (s.acceptOutcome op).dataCount = s.dataCount := rfl
@[simp] theorem acceptOutcome_cwCount (s : State) (op : BitVec 4) : (s.acceptOutcome op).cwCount = s.cwCount := rfl
@[simp] theorem acceptOutcome_mside (s : State) (op : BitVec 4) : (s.acceptOutcome op).mside = s.mside := rfl
@[simp] theorem acceptOutcome_formatBits (s : State) (op : BitVec 4) : (s.acceptOutcome op).formatBits = s.formatBits := rfl
@[simp] theorem acceptOutcome_versionBits (s : State) (op : BitVec 4) : (s.acceptOutcome op).versionBits = s.versionBits := rfl
@[simp] theorem acceptOutcome_rsParam (s : State) (op : BitVec 4) : (s.acceptOutcome op).rsParam = s.rsParam := rfl
@[simp] theorem acceptOutcome_vecCount (s : State) (op : BitVec 4) : (s.acceptOutcome op).vecCount = s.vecCount := rfl
@[simp] theorem acceptOutcome_vecExtent (s : State) (op : BitVec 4) : (s.acceptOutcome op).vecExtent = s.vecExtent := rfl
@[simp] theorem acceptOutcome_rasterSize (s : State) (op : BitVec 4) : (s.acceptOutcome op).rasterSize = s.rasterSize := rfl
@[simp] theorem acceptOutcome_colorDark (s : State) (op : BitVec 4) : (s.acceptOutcome op).colorDark = s.colorDark := rfl
@[simp] theorem acceptOutcome_colorLight (s : State) (op : BitVec 4) : (s.acceptOutcome op).colorLight = s.colorLight := rfl
@[simp] theorem acceptOutcome_penalty (s : State) (op : BitVec 4) : (s.acceptOutcome op).penalty = s.penalty := rfl
@[simp] theorem acceptOutcome_penTerms (s : State) (op : BitVec 4) : (s.acceptOutcome op).penTerms = s.penTerms := rfl
@[simp] theorem acceptOutcome_pendingOp (s : State) (op : BitVec 4) : (s.acceptOutcome op).pendingOp = s.pendingOp := rfl
@[simp] theorem acceptOutcome_turns (s : State) (op : BitVec 4) : (s.acceptOutcome op).turns = s.turns := rfl
@[simp] theorem acceptOutcome_resp (s : State) (op : BitVec 4) : (s.acceptOutcome op).resp = s.resp := rfl
@[simp] theorem acceptOutcome_nextDraw (s : State) (op : BitVec 4) : (s.acceptOutcome op).nextDraw = s.nextDraw := rfl
@[simp] theorem acceptOutcome_inbuf (s : State) (op : BitVec 4) : (s.acceptOutcome op).inbuf = s.inbuf := rfl
@[simp] theorem acceptOutcome_datacw (s : State) (op : BitVec 4) : (s.acceptOutcome op).datacw = s.datacw := rfl
@[simp] theorem acceptOutcome_finalcw (s : State) (op : BitVec 4) : (s.acceptOutcome op).finalcw = s.finalcw := rfl
@[simp] theorem acceptOutcome_rsout (s : State) (op : BitVec 4) : (s.acceptOutcome op).rsout = s.rsout := rfl
@[simp] theorem acceptOutcome_funcmap (s : State) (op : BitVec 4) : (s.acceptOutcome op).funcmap = s.funcmap := rfl
@[simp] theorem acceptOutcome_placed (s : State) (op : BitVec 4) : (s.acceptOutcome op).placed = s.placed := rfl
@[simp] theorem acceptOutcome_matrix (s : State) (op : BitVec 4) : (s.acceptOutcome op).matrix = s.matrix := rfl
@[simp] theorem acceptOutcome_vecbuf (s : State) (op : BitVec 4) : (s.acceptOutcome op).vecbuf = s.vecbuf := rfl
@[simp] theorem acceptOutcome_buf (s : State) (op : BitVec 4) (b : BufId) : (s.acceptOutcome op).buf b = s.buf b := by
  cases b <;> rfl

@[simp] theorem respond_resp (s : State) (d : Word) : (s.respond d).resp = { err := false, data := d } := rfl
@[simp] theorem respondError_resp (s : State) : s.respondError.resp = { err := true, data := 0#32 } := rfl
@[simp] theorem dropWrite_status (s : State) : s.dropWrite.status = { s.status with wrIgnored := true } := rfl
@[simp] theorem clearPending_irqPend (s : State) (w : Word) : (s.clearPending w).irqPend = s.irqPend.clear w := rfl
@[simp] theorem complete_status (s : State) :
    s.complete.status = { s.status with busy := false, done := true } := rfl
@[simp] theorem complete_resultTag (s : State) : s.complete.resultTag = s.pendingTag := rfl
@[simp] theorem complete_irqPend (s : State) : s.complete.irqPend = { s.irqPend with doneP := true } := rfl
@[simp] theorem errorEnd_resultTag (s : State) (e : CommandError) : (s.errorEnd e).resultTag = s.pendingTag := rfl
@[simp] theorem errorEnd_irqPend (s : State) (e : CommandError) :
    (s.errorEnd e).irqPend = { s.irqPend with errP := true } := rfl
@[simp] theorem errorEnd_busy (s : State) (e : CommandError) : (s.errorEnd e).status.busy = false := rfl
@[simp] theorem errorEnd_done (s : State) (e : CommandError) : (s.errorEnd e).status.done = false := rfl
@[simp] theorem errorEnd_error (s : State) (e : CommandError) : (s.errorEnd e).status.error = true := rfl
@[simp] theorem errorEnd_aborted (s : State) (e : CommandError) : (s.errorEnd e).status.aborted = false := rfl
@[simp] theorem errorEnd_errcode (s : State) (e : CommandError) : (s.errorEnd e).status.errcode = e.code := rfl
@[simp] theorem errorEnd_errstage (s : State) (e : CommandError) : (s.errorEnd e).status.errstage = e.stage := rfl
@[simp] theorem acceptOutcome_lastOp (s : State) (op : BitVec 4) : (s.acceptOutcome op).lastOp = op := rfl
@[simp] theorem acceptOutcome_pendingTag (s : State) (op : BitVec 4) :
    (s.acceptOutcome op).pendingTag = s.jobTag := rfl
@[simp] theorem acceptOutcome_status (s : State) (op : BitVec 4) :
    (s.acceptOutcome op).status =
      { s.status with
        done := false, error := false, aborted := false, errcode := 0#4, errstage := 0#3, wrIgnored := false } := rfl

/-! ## The error rows change stage-valid flags only (10_state.md R57) -/

@[simp] theorem errorRow_busy (stage : BitVec 3) (st : Status) : (st.errorRow stage).busy = st.busy := by
  unfold Status.errorRow; split <;> rfl
@[simp] theorem errorRow_done (stage : BitVec 3) (st : Status) : (st.errorRow stage).done = st.done := by
  unfold Status.errorRow; split <;> rfl
@[simp] theorem errorRow_error (stage : BitVec 3) (st : Status) : (st.errorRow stage).error = st.error := by
  unfold Status.errorRow; split <;> rfl
@[simp] theorem errorRow_aborted (stage : BitVec 3) (st : Status) : (st.errorRow stage).aborted = st.aborted := by
  unfold Status.errorRow; split <;> rfl
@[simp] theorem errorRow_errcode (stage : BitVec 3) (st : Status) : (st.errorRow stage).errcode = st.errcode := by
  unfold Status.errorRow; split <;> rfl
@[simp] theorem errorRow_errstage (stage : BitVec 3) (st : Status) : (st.errorRow stage).errstage = st.errstage := by
  unfold Status.errorRow; split <;> rfl
@[simp] theorem errorRow_wrIgnored (stage : BitVec 3) (st : Status) : (st.errorRow stage).wrIgnored = st.wrIgnored := by
  unfold Status.errorRow; split <;> rfl

end Sys2Proof.Machine
end

