-- ==== Sys2Proof/Laws/Memory.lean ====
section
/-! SUPPORT. The laws of memory and buffers: a read after a write to the same place gives the value written,
a write leaves every other place alone, and every memory operation keeps the canonical form. -/

namespace Sys2Proof.Machine

/-! ## Reading a concatenation and a filtered memory -/

theorem get?_append (m n : Memory) (k : Nat) :
    Memory.get? (m ++ n) k = (Memory.get? m k).or (Memory.get? n k) := by
  induction m with
  | nil => simp [Memory.get?]
  | cons c m ih =>
    simp only [List.cons_append, Memory.get?, ih]
    split <;> simp

theorem get?_filter_keep (m : Memory) (p : Nat → Bool) (k : Nat) (h : p k = true) :
    Memory.get? (m.filter fun c => p c.1) k = Memory.get? m k := by
  induction m with
  | nil => rfl
  | cons c m ih =>
    by_cases hk : c.1 = k
    · subst hk; simp [h, Memory.get?]
    · by_cases hp : p c.1 = true <;> simp [hp, Memory.get?, hk, ih]

theorem get?_filter_drop (m : Memory) (p : Nat → Bool) (k : Nat) (h : p k = false) :
    Memory.get? (m.filter fun c => p c.1) k = none := by
  induction m with
  | nil => rfl
  | cons c m ih =>
    by_cases hp : p c.1 = true
    · have hk : c.1 ≠ k := fun e => by simp [e, h] at hp
      simp [hp, Memory.get?, hk, ih]
    · simp [hp, ih]

theorem get?_cellsFrom (a : Nat) (bs : List Byte) (k : Nat) :
    Memory.get? (Memory.cellsFrom a bs) k = if a ≤ k then bs[k - a]? else none := by
  induction bs generalizing a with
  | nil => simp [Memory.cellsFrom, Memory.get?]
  | cons b bs ih =>
    simp only [Memory.cellsFrom, Memory.get?, ih]
    by_cases h : a = k
    · simp [h]
    · by_cases h2 : a ≤ k
      · have h3 : a + 1 ≤ k := by omega
        have h4 : k - a = (k - (a + 1)) + 1 := by omega
        simp [h, h2, h3, h4]
      · have h3 : ¬ a + 1 ≤ k := by omega
        simp [h, h2, h3]

/-! ## Read after write -/

/-- Everything a write does to a read. -/
theorem get?_write (m : Memory) (a : Nat) (bs : List Byte) (k : Nat) :
    Memory.get? (Memory.write m a bs) k =
      if a ≤ k ∧ k < a + bs.length then bs[k - a]? else Memory.get? m k := by
  simp only [Memory.write, get?_append, get?_cellsFrom]
  by_cases h1 : k < a
  · rw [get?_filter_keep m (fun x => decide (x < a)) k (by simpa using h1),
      get?_filter_drop m (fun x => decide (a + bs.length ≤ x)) k (by simp; omega)]
    have h2 : ¬ a ≤ k := by omega
    simp [h2]
  · rw [get?_filter_drop m (fun x => decide (x < a)) k (by simp; omega)]
    by_cases h2 : k < a + bs.length
    · rw [get?_filter_drop m (fun x => decide (a + bs.length ≤ x)) k (by simp; omega)]
      have h3 : a ≤ k := by omega
      simp [h2, h3]
    · rw [get?_filter_keep m (fun x => decide (a + bs.length ≤ x)) k (by simp; omega)]
      have h3 : a ≤ k := by omega
      have h4 : bs[k - a]? = none := List.getElem?_eq_none (by omega)
      simp [h2, h3, h4]

/-! ## The canonical form -/

theorem mem_cellsFrom {a : Nat} {bs : List Byte} {c : Host.Cell} (h : c ∈ Memory.cellsFrom a bs) :
    a ≤ c.1 ∧ c.1 < a + bs.length := by
  induction bs generalizing a with
  | nil => simp [Memory.cellsFrom] at h
  | cons b bs ih =>
    simp only [Memory.cellsFrom, List.mem_cons] at h
    rcases h with rfl | h
    · simp
    · have := ih h
      simp only [List.length_cons]; omega

theorem cellsFrom_wf (a : Nat) (bs : List Byte) : Memory.wf (Memory.cellsFrom a bs) := by
  induction bs generalizing a with
  | nil => exact List.Pairwise.nil
  | cons b bs ih =>
    refine List.Pairwise.cons (fun c hc => ?_) (ih (a + 1))
    have := mem_cellsFrom hc
    simp only; omega

/-- A write keeps the canonical form. -/
theorem write_wf {m : Memory} (h : Memory.wf m) (a : Nat) (bs : List Byte) : Memory.wf (Memory.write m a bs) := by
  unfold Memory.wf Memory.write at *
  refine List.pairwise_append.2 ⟨List.pairwise_append.2 ⟨h.filter _, cellsFrom_wf a bs, ?_⟩, h.filter _, ?_⟩
  · intro x hx y hy
    have hx' := (List.mem_filter.1 hx).2
    have := mem_cellsFrom hy
    simp only [decide_eq_true_eq] at hx'; omega
  · intro x hx y hy
    have hy' := (List.mem_filter.1 hy).2
    simp only [decide_eq_true_eq] at hy'
    rcases List.mem_append.1 hx with hx | hx
    · have hx' := (List.mem_filter.1 hx).2
      simp only [decide_eq_true_eq] at hx'; omega
    · have := mem_cellsFrom hx; omega

/-- A write lists no offset beyond those listed before and those written. -/
theorem write_bounded {m : Memory} {a n : Nat} {bs : List Byte} (h : ∀ c ∈ m, c.1 < n)
    (hb : a + bs.length ≤ n) : ∀ c ∈ Memory.write m a bs, c.1 < n := by
  intro c hc
  simp only [Memory.write, List.mem_append, List.mem_filter] at hc
  rcases hc with (hc | hc) | hc
  · exact h c hc.1
  · have := mem_cellsFrom hc; omega
  · exact h c hc.1

theorem unspecified_wf (d : Nat) : Memory.wf (Buffer.unspecified d).cells := List.Pairwise.nil

/-- The state after reset lists no byte, in canonical form. -/
theorem reset_memory_wf (b : BufId) : Memory.wf (State.reset.buf b).cells := by cases b <;> exact List.Pairwise.nil

/-! ## Buffers -/

/-- A buffer write keeps every buffer's canonical form. -/
theorem writeBuf_wf {s : State} (h : ∀ c, Memory.wf (s.buf c).cells) (b : BufId) (k : Nat) (bs : List Byte) (c : BufId) :
    Memory.wf ((s.writeBuf b k bs).buf c).cells := by
  unfold State.writeBuf
  rw [buf_setBuf]
  split
  · exact write_wf (h b) k bs
  · exact h c

/-- The byte a buffer write leaves at offset `k` of buffer `c`. -/
theorem bufByte_writeBuf (s : State) (b c : BufId) (a k : Nat) (bs : List Byte) :
    (s.writeBuf b a bs).bufByte c k =
      if c = b ∧ a ≤ k ∧ k < a + bs.length then bs.getD (k - a) 0#8 else s.bufByte c k := by
  unfold State.writeBuf State.bufByte Buffer.byte
  rw [buf_setBuf]
  by_cases h : c = b
  · subst h
    simp only [if_true, get?_write, true_and]
    by_cases h2 : a ≤ k ∧ k < a + bs.length
    · have h3 : k - a < bs.length := by omega
      simp [h2, h3]
    · simp [h2]
  · simp [h]

/-- A write to one buffer leaves the bytes of every other. -/
theorem bufByte_writeBuf_other (s : State) {b c : BufId} (a k : Nat) (bs : List Byte) (h : c ≠ b) :
    (s.writeBuf b a bs).bufByte c k = s.bufByte c k := by
  simp [bufByte_writeBuf, h]

theorem bufByte_congr {s t : State} {b : BufId} (h : s.buf b = t.buf b) (k : Nat) :
    s.bufByte b k = t.bufByte b k := by
  simp [State.bufByte, h]

theorem bufBytes_congr {s t : State} {b : BufId} {k n : Nat}
    (h : ∀ i, i < n → s.bufByte b (k + i) = t.bufByte b (k + i)) :
    s.bufBytes b k n = t.bufBytes b k n := by
  unfold State.bufBytes
  exact List.map_congr_left fun i hi => h i (List.mem_range.1 hi)

@[simp] theorem bufBytes_length (s : State) (b : BufId) (k n : Nat) : (s.bufBytes b k n).length = n := by
  simp [State.bufBytes]

/-- Reading back what was written at the start of a buffer. -/
theorem bufBytes_writeBuf_same (s : State) (b : BufId) (bs : List Byte) :
    (s.writeBuf b 0 bs).bufBytes b 0 bs.length = bs := by
  apply List.ext_getElem
  · simp
  · intro i h1 h2
    simp only [State.bufBytes, List.getElem_map, List.getElem_range, Nat.zero_add, bufByte_writeBuf]
    have : i < bs.length := h2
    simp [this]

end Sys2Proof.Machine
end

