-- ==== Sys2Proof/Laws/Control.lean ====
section
/-! SUPPORT. What issuing a command can do (40_host_bus.md R132-R135), said once: the cases of
`issueCommand`, the two forms of acceptance, and what ABORT leaves. -/

namespace Sys2Proof.Machine

/-! ## Acceptance -/

/-- Acceptance of a stage command, opcode 1..7 (40_host_bus.md R133). -/
theorem accept_stage (s : State) {op : BitVec 4} (h : op.toNat < 8) :
    s.accept op =
      { s.acceptOutcome op with
        pendingOp := op, status := { (s.acceptOutcome op).status with busy := true } } := by
  simp only [State.accept, show ¬ 0x8 ≤ op.toNat by omega, if_false]

/-- Acceptance of a reserved opcode, 8..14 (40_host_bus.md R133, R139). -/
theorem accept_reserved (s : State) {op : BitVec 4} (h : 8 ≤ op.toNat) :
    s.accept op = (s.acceptOutcome op).errorEnd { code := errIllegalCommand, stage := 0#3 } := by
  simp only [State.accept, show 0x8 ≤ op.toNat from h, if_true]

/-- Everything issuing a command can do. -/
theorem issueCommand_cases (s : State) (op : BitVec 4) :
    (op.toNat = 0 ∧ s.issueCommand op = s) ∨
    (op.toNat = 15 ∧ s.issueCommand op = s.abort) ∨
    (1 ≤ op.toNat ∧ op.toNat ≤ 14 ∧ s.status.busy = true ∧ s.issueCommand op = s.dropWrite) ∨
    (1 ≤ op.toNat ∧ op.toNat ≤ 14 ∧ s.status.busy = false ∧ s.issueCommand op = s.accept op) := by
  have hop : op.toNat < 16 := op.isLt
  unfold State.issueCommand
  by_cases h0 : op.toNat = 0
  · exact .inl ⟨h0, by simp [h0]⟩
  by_cases h15 : op.toNat = 15
  · exact .inr (.inl ⟨h15, by simp [h15]⟩)
  cases hb : s.status.busy
  · exact .inr (.inr (.inr ⟨by omega, by omega, rfl, by simp [h0, h15]⟩))
  · exact .inr (.inr (.inl ⟨by omega, by omega, rfl, by simp [h0, h15]⟩))

/-! ## ABORT -/

@[simp] theorem abort_idle {s : State} (h : s.status.busy = false) : s.abort = s := by
  simp [State.abort, h]

/-- A forgotten location is a buffer left to the new draw, or no buffer at all. -/
theorem forget_buf (d : Nat) (s : State) (l : Loc) (b : BufId) :
    (s.forget d l).buf b = if l = .buf b then Buffer.unspecified d else s.buf b := by
  cases l with
  | buf c => by_cases h : c = b <;> simp_all [State.forget, buf_setBuf, eq_comm]
  | _ => cases b <;> rfl

theorem foldl_forget_buf (d : Nat) (ls : List Loc) (s : State) (b : BufId) :
    (ls.foldl (State.forget d) s).buf b = if Loc.buf b ∈ ls then Buffer.unspecified d else s.buf b := by
  induction ls generalizing s with
  | nil => simp
  | cons l ls ih =>
    rw [List.foldl_cons, ih, forget_buf]
    by_cases h1 : Loc.buf b ∈ ls <;> by_cases h2 : l = Loc.buf b <;> simp [h1, h2, eq_comm]

/-- The buffers after `for every location l in ls : l <- unspecified`. -/
theorem forgetAll_buf (s : State) (ls : List Loc) (b : BufId) :
    (s.forgetAll ls).buf b = if Loc.buf b ∈ ls then Buffer.unspecified s.nextDraw else s.buf b := by
  rw [← foldl_forget_buf]
  cases b <;> rfl

/-- What no forgotten location is: the fields that no WriteSet names (40_host_bus.md R136). -/
structure KeptByForget (s t : State) : Prop where
  lastOp : t.lastOp = s.lastOp
  status : t.status = s.status
  irqEn : t.irqEn = s.irqEn
  irqPend : t.irqPend = s.irqPend
  config : t.config = s.config
  inLen : t.inLen = s.inLen
  jobTag : t.jobTag = s.jobTag
  resultTag : t.resultTag = s.resultTag
  rsParam : t.rsParam = s.rsParam
  rasterSize : t.rasterSize = s.rasterSize
  colorDark : t.colorDark = s.colorDark
  colorLight : t.colorLight = s.colorLight
  pendingOp : t.pendingOp = s.pendingOp
  pendingTag : t.pendingTag = s.pendingTag
  turns : t.turns = s.turns
  resp : t.resp = s.resp

theorem KeptByForget.refl (s : State) : KeptByForget s s := by constructor <;> rfl

theorem KeptByForget.trans {s t u : State} (h : KeptByForget s t) (k : KeptByForget t u) : KeptByForget s u where
  lastOp := k.lastOp.trans h.lastOp
  status := k.status.trans h.status
  irqEn := k.irqEn.trans h.irqEn
  irqPend := k.irqPend.trans h.irqPend
  config := k.config.trans h.config
  inLen := k.inLen.trans h.inLen
  jobTag := k.jobTag.trans h.jobTag
  resultTag := k.resultTag.trans h.resultTag
  rsParam := k.rsParam.trans h.rsParam
  rasterSize := k.rasterSize.trans h.rasterSize
  colorDark := k.colorDark.trans h.colorDark
  colorLight := k.colorLight.trans h.colorLight
  pendingOp := k.pendingOp.trans h.pendingOp
  pendingTag := k.pendingTag.trans h.pendingTag
  turns := k.turns.trans h.turns
  resp := k.resp.trans h.resp

theorem forget_kept (d : Nat) (s : State) (l : Loc) : KeptByForget s (s.forget d l) := by
  cases l with
  | buf b => cases b <;> constructor <;> rfl
  | _ => constructor <;> rfl

theorem foldl_forget_kept (d : Nat) (ls : List Loc) (s : State) :
    KeptByForget s (ls.foldl (State.forget d) s) := by
  induction ls generalizing s with
  | nil => exact .refl s
  | cons l ls ih => exact (forget_kept d s l).trans (ih _)

theorem forgetAll_kept (s : State) (ls : List Loc) : KeptByForget s (s.forgetAll ls) := by
  have h := foldl_forget_kept s.nextDraw ls s
  constructor
  all_goals first
    | exact h.lastOp | exact h.status | exact h.irqEn | exact h.irqPend | exact h.config | exact h.inLen
    | exact h.jobTag | exact h.resultTag | exact h.rsParam | exact h.rasterSize | exact h.colorDark
    | exact h.colorLight | exact h.pendingOp | exact h.pendingTag | exact h.turns | exact h.resp

/-- ABORT while BUSY, over the state whose WriteSet has been left unspecified (40_host_bus.md R135). -/
theorem abort_busy {s : State} (h : s.status.busy = true) :
    s.abort =
      { s.forgetAll (writeSet s.pendingOp) with
        lastOp := 0xF#4
        status :=
          { s.status.errorRow (stageOfCommand s.pendingOp) with
            busy := false, aborted := true, done := false, error := false, errcode := 0#4, errstage := 0#3 } } := by
  simp only [State.abort, h, if_true]


/-! ABORT keeps every field that no WriteSet names, idle or BUSY. -/

@[simp] theorem abort_irqEn (s : State) : s.abort.irqEn = s.irqEn := by
  unfold State.abort; split
  · exact (forgetAll_kept s _).irqEn
  · rfl
@[simp] theorem abort_irqPend (s : State) : s.abort.irqPend = s.irqPend := by
  unfold State.abort; split
  · exact (forgetAll_kept s _).irqPend
  · rfl
@[simp] theorem abort_config (s : State) : s.abort.config = s.config := by
  unfold State.abort; split
  · exact (forgetAll_kept s _).config
  · rfl
@[simp] theorem abort_inLen (s : State) : s.abort.inLen = s.inLen := by
  unfold State.abort; split
  · exact (forgetAll_kept s _).inLen
  · rfl
@[simp] theorem abort_jobTag (s : State) : s.abort.jobTag = s.jobTag := by
  unfold State.abort; split
  · exact (forgetAll_kept s _).jobTag
  · rfl
@[simp] theorem abort_resultTag (s : State) : s.abort.resultTag = s.resultTag := by
  unfold State.abort; split
  · exact (forgetAll_kept s _).resultTag
  · rfl
@[simp] theorem abort_rsParam (s : State) : s.abort.rsParam = s.rsParam := by
  unfold State.abort; split
  · exact (forgetAll_kept s _).rsParam
  · rfl
@[simp] theorem abort_rasterSize (s : State) : s.abort.rasterSize = s.rasterSize := by
  unfold State.abort; split
  · exact (forgetAll_kept s _).rasterSize
  · rfl
@[simp] theorem abort_colorDark (s : State) : s.abort.colorDark = s.colorDark := by
  unfold State.abort; split
  · exact (forgetAll_kept s _).colorDark
  · rfl
@[simp] theorem abort_colorLight (s : State) : s.abort.colorLight = s.colorLight := by
  unfold State.abort; split
  · exact (forgetAll_kept s _).colorLight
  · rfl
@[simp] theorem abort_pendingOp (s : State) : s.abort.pendingOp = s.pendingOp := by
  unfold State.abort; split
  · exact (forgetAll_kept s _).pendingOp
  · rfl
@[simp] theorem abort_pendingTag (s : State) : s.abort.pendingTag = s.pendingTag := by
  unfold State.abort; split
  · exact (forgetAll_kept s _).pendingTag
  · rfl
@[simp] theorem abort_turns (s : State) : s.abort.turns = s.turns := by
  unfold State.abort; split
  · exact (forgetAll_kept s _).turns
  · rfl
@[simp] theorem abort_resp (s : State) : s.abort.resp = s.resp := by
  unfold State.abort; split
  · exact (forgetAll_kept s _).resp
  · rfl

theorem abort_buf {s : State} (h : s.status.busy = true) (b : BufId) :
    s.abort.buf b =
      if Loc.buf b ∈ writeSet s.pendingOp then Buffer.unspecified s.nextDraw else s.buf b := by
  rw [abort_busy h, ← forgetAll_buf]
  cases b <;> rfl

end Sys2Proof.Machine
end

