-- ==== Sys2Proof/Laws/Bus.lean ====
section
/-! SUPPORT. What a bus transaction can do, said once (40_host_bus.md R130, R131): the place of an offset, the
cases of a read and of a write, and the frame of each. -/

namespace Sys2Proof.Machine

/-! ## Places (20_memory.md R70) -/

theorem placeOf_reg {a : Nat} (h : a < 0x1000) : placeOf a = .reg a := by
  simp only [placeOf, h, if_true]

theorem covers_iff (b : BufId) (a : Nat) : b.covers a = true ↔ b.base ≤ a ∧ a < b.base + b.windowSize := by
  simp [BufId.covers]

/-- No two windows overlap. -/
theorem covers_unique {b c : BufId} {a : Nat} (hb : b.covers a = true) (hc : c.covers a = true) : b = c := by
  rw [covers_iff] at hb hc
  cases b <;> cases c <;> simp only [BufId.base, BufId.windowSize] at hb hc <;> first | rfl | omega

theorem mem_allBuffers (b : BufId) : b ∈ allBuffers := by cases b <;> decide

theorem window_bounds (b : BufId) {a : Nat} (h : b.covers a = true) : 0x1000 ≤ a ∧ a < rasterBase := by
  rw [covers_iff] at h
  cases b <;> simp only [BufId.base, BufId.windowSize, rasterBase] at * <;> omega

/-- An offset in a window names the byte of that window. -/
theorem placeOf_of_covers {b : BufId} {a : Nat} (h : b.covers a = true) : placeOf a = .window b (a - b.base) := by
  have hb := window_bounds b h
  have h1 : ¬ a < 0x1000 := by omega
  have h2 : ¬ (rasterBase ≤ a ∧ a < rasterEnd) := by omega
  simp only [placeOf, h1, h2, if_false]
  cases hf : allBuffers.find? fun c => c.covers a with
  | none => exact absurd h (by simpa using List.find?_eq_none.1 hf b (mem_allBuffers b))
  | some c =>
    have hc : c.covers a = true := List.find?_some (p := fun c : BufId => c.covers a) hf
    rw [covers_unique hc h]

theorem placeOf_window (b : BufId) {k : Nat} (h : k < b.windowSize) : placeOf (b.base + k) = .window b k := by
  have hc : b.covers (b.base + k) = true := (covers_iff b _).2 ⟨by omega, by omega⟩
  rw [placeOf_of_covers hc, Nat.add_sub_cancel_left]

theorem placeOf_raster {a : Nat} (h1 : rasterBase ≤ a) (h2 : a < rasterEnd) :
    placeOf a = .raster (a - rasterBase) := by
  have h0 : ¬ a < 0x1000 := by simp only [rasterBase] at h1; omega
  simp only [placeOf, h0, if_false, h1, h2, and_self, if_true]

/-! ## Reads -/

/-- Everything a read can do. -/
theorem busRead_cases (s : State) (a n : Nat) :
    (busError a n false = true ∧ s.busRead a n = s.respondError) ∨
    (busError a n false = false ∧ s.volatilePlace (placeOf a) = true ∧
      s.busRead a n =
        { s.respond (lowBytes n (Config.unspecifiedReadData s.nextDraw)) with nextDraw := s.nextDraw + 1 }) ∨
    (busError a n false = false ∧ s.volatilePlace (placeOf a) = false ∧
      s.busRead a n = s.respond (s.readData a n)) := by
  unfold State.busRead
  cases h : busError a n false
  · cases hv : s.volatilePlace (placeOf a)
    · exact .inr (.inr ⟨rfl, rfl, by simp⟩)
    · exact .inr (.inl ⟨rfl, rfl, by simp⟩)
  · exact .inl ⟨rfl, by simp⟩

/-- A read changes the response and the count of draws alone (20_memory.md R81). -/
theorem busRead_frame (s : State) (a n : Nat) :
    s.busRead a n = { s with resp := (s.busRead a n).resp, nextDraw := (s.busRead a n).nextDraw } := by
  rcases busRead_cases s a n with ⟨-, h⟩ | ⟨-, -, h⟩ | ⟨-, -, h⟩ <;> rw [h] <;> rfl

@[simp] theorem volatilePlace_idle {s : State} (h : s.status.busy = false) (p : Place) :
    s.volatilePlace p = false := by
  simp [State.volatilePlace, h]

/-! ## Places of a legal write -/

/-- A place that is a window is the window that covers the offset. -/
theorem placeOf_eq_window {a k : Nat} {b : BufId} (h : placeOf a = .window b k) :
    a = b.base + k ∧ k < b.windowSize := by
  unfold placeOf at h
  split at h
  · cases h
  · split at h
    · cases h
    · split at h
      · rename_i c hc
        have hcov : c.covers a = true := List.find?_some (p := fun c : BufId => c.covers a) hc
        rw [covers_iff] at hcov
        cases h
        omega
      · cases h

theorem placeOf_eq_reg {a o : Nat} (h : placeOf a = .reg o) : o = a ∧ a < 0x1000 := by
  unfold placeOf at h
  split at h
  · cases h; exact ⟨rfl, by assumption⟩
  · split at h
    · cases h
    · split at h <;> cases h

/-- A write that is no bus error names a writable register as a whole word, or bytes inside a window that the
host may write (20_memory.md R73-R75). -/
theorem legal_write {a n : Nat} (h : busError a n true = false) (hn : n = 1 ∨ n = 2 ∨ n = 4) :
    (a < 0x1000 ∧ n = 4 ∧ isWritableRegister a = true) ∨
    (∃ (b : BufId) (k : Nat), b.hostWritable = true ∧ a = b.base + k ∧ k % n = 0 ∧ k + n ≤ b.windowSize) := by
  have hal : a % n = 0 := by
    by_contra hne
    simp [busError, hne] at h
  simp only [busError, hal, ne_eq, not_true_eq_false, if_false] at h
  cases hp : placeOf a with
  | reg o =>
    obtain ⟨rfl, hlt⟩ := placeOf_eq_reg hp
    simp only [hp, if_true, Bool.or_eq_false_iff, bne_eq_false_iff_eq, Bool.not_eq_false'] at h
    exact .inl ⟨hlt, h.1, h.2⟩
  | window b k =>
    obtain ⟨ha, hk⟩ := placeOf_eq_window hp
    simp only [hp, Bool.true_and, Bool.not_eq_false'] at h
    refine .inr ⟨b, k, h, ha, ?_⟩
    cases b <;> simp only [BufId.base, BufId.windowSize] at * <;> rcases hn with rfl | rfl | rfl <;> omega
  | raster k => simp [hp] at h
  | unmapped => simp [hp] at h

/-! ## Writes -/

/-- Everything a write can do. -/
theorem busWrite_cases (s : State) (a n : Nat) (w : Word) :
    (busError a n true = true ∧ s.busWrite a n w = s.respondError) ∨
    (busError a n true = false ∧ a = 0x004 ∧ s.busWrite a n w = (s.issueCommand (opcodeOf w)).respond 0#32) ∨
    (busError a n true = false ∧ a ≠ 0x004 ∧ a ≠ 0x00C ∧ a ≠ 0x010 ∧ s.status.busy = true ∧
      s.busWrite a n w = s.dropWrite.respond 0#32) ∨
    (busError a n true = false ∧ a ≠ 0x004 ∧ (s.status.busy = true → a = 0x00C ∨ a = 0x010) ∧
      s.busWrite a n w = (s.store a n w).respond 0#32) := by
  unfold State.busWrite
  cases h : busError a n true
  · by_cases ha : a = 0x004
    · exact .inr (.inl ⟨rfl, ha, by simp [ha]⟩)
    · cases hb : s.status.busy
      · exact .inr (.inr (.inr ⟨rfl, ha, by simp, by simp [ha]⟩))
      · by_cases h1 : a = 0x00C
        · exact .inr (.inr (.inr ⟨rfl, ha, fun _ => .inl h1, by simp [h1]⟩))
        · by_cases h2 : a = 0x010
          · exact .inr (.inr (.inr ⟨rfl, ha, fun _ => .inr h2, by simp [h2]⟩))
          · exact .inr (.inr (.inl ⟨rfl, ha, h1, h2, rfl, by simp [ha, h1, h2]⟩))
  · exact .inl ⟨rfl, by simp⟩

/-- A store into a window is a buffer write. -/
theorem store_window (s : State) (b : BufId) {k : Nat} (h : k < b.windowSize) (n : Nat) (w : Word) :
    s.store (b.base + k) n w = s.writeBuf b k ((List.range n).map (wordByte w)) := by
  simp only [State.store, placeOf_window b h]

/-- A store into the register page writes the register. -/
theorem store_reg (s : State) {a : Nat} (h : a < 0x1000) (n : Nat) (w : Word) : s.store a n w = s.writeReg a w := by
  simp only [State.store, placeOf_reg h]

/-- A register write changes STATUS only when it is to SYMBOL (10_state.md R57). -/
theorem writeReg_status (s : State) (o : Nat) (w : Word) :
    (s.writeReg o w).status = s.status ∨ (o = 0x024 ∧ (s.writeReg o w).status = s.status.symbolWritten) := by
  unfold State.writeReg
  split <;> first | exact .inl rfl | exact .inr ⟨rfl, rfl⟩

/-- A register write changes IRQ_PEND only when it is to IRQ_PEND (10_state.md R28). -/
theorem writeReg_irqPend (s : State) (o : Nat) (w : Word) :
    (s.writeReg o w).irqPend = s.irqPend ∨ (o = 0x010 ∧ (s.writeReg o w).irqPend = s.irqPend.clear w) := by
  unfold State.writeReg
  split <;> first | exact .inl rfl | exact .inr ⟨rfl, rfl⟩

/-- A register write writes no buffer. -/
@[simp] theorem writeReg_buf (s : State) (o : Nat) (w : Word) (b : BufId) : (s.writeReg o w).buf b = s.buf b := by
  unfold State.writeReg
  split <;> cases b <;> rfl

@[simp] theorem writeReg_pendingOp (s : State) (o : Nat) (w : Word) : (s.writeReg o w).pendingOp = s.pendingOp := by
  unfold State.writeReg; split <;> rfl
@[simp] theorem writeReg_turns (s : State) (o : Nat) (w : Word) : (s.writeReg o w).turns = s.turns := by
  unfold State.writeReg; split <;> rfl
@[simp] theorem writeReg_nextDraw (s : State) (o : Nat) (w : Word) : (s.writeReg o w).nextDraw = s.nextDraw := by
  unfold State.writeReg; split <;> rfl
@[simp] theorem store_pendingOp (s : State) (a n : Nat) (w : Word) : (s.store a n w).pendingOp = s.pendingOp := by
  unfold State.store; split <;> simp
@[simp] theorem store_turns (s : State) (a n : Nat) (w : Word) : (s.store a n w).turns = s.turns := by
  unfold State.store; split <;> simp
@[simp] theorem store_nextDraw (s : State) (a n : Nat) (w : Word) : (s.store a n w).nextDraw = s.nextDraw := by
  unfold State.store; split <;> simp

/-- A store changes STATUS only when it is to SYMBOL. -/
theorem store_status (s : State) (a n : Nat) (w : Word) :
    (s.store a n w).status = s.status ∨ (a = 0x024 ∧ (s.store a n w).status = s.status.symbolWritten) := by
  unfold State.store
  split
  · rename_i o ho
    obtain ⟨rfl, -⟩ := placeOf_eq_reg ho
    exact writeReg_status s o w
  all_goals exact .inl (by simp)

end Sys2Proof.Machine
end

