-- ==== Sys2Proof/Laws/Decode.lean ====
section
/-! SUPPORT. The laws of the byte layout of a word and of the two forms the decoder reads. -/

namespace Sys2Proof

theorem bytesOfWord_length (w : Word) : (bytesOfWord w).length = 4 := rfl

/-- The bytes of a word, put together again, are the word (20_memory.md R76). -/
theorem wordOfBytes_of_parts (w : Word) :
    wordOfBytes (w.extractLsb' 0 8) (w.extractLsb' 8 8) (w.extractLsb' 16 8) (w.extractLsb' 24 8) = w := by
  apply BitVec.eq_of_getLsbD_eq
  intro i hi
  simp only [wordOfBytes, BitVec.getLsbD_or, BitVec.getLsbD_setWidth, BitVec.getLsbD_shiftLeft,
    BitVec.getLsbD_extractLsb']
  rcases (by omega : i < 8 ∨ (8 ≤ i ∧ i < 16) ∨ (16 ≤ i ∧ i < 24) ∨ (24 ≤ i ∧ i < 32)) with h | h | h | h
  · have h1 : i < 16 := by omega
    have h2 : i < 24 := by omega
    simp [hi, h, h1, h2]
  · have h1 : ¬ i < 8 := by omega
    have h2 : i < 24 := by omega
    have h3 : i - 8 < 8 := by omega
    have h4 : 8 + (i - 8) = i := by omega
    have h8 : i - 8 < 32 := by omega
    simp [hi, h, h1, h2, h3, h4, h8]
  · have h1 : ¬ i < 8 := by omega
    have h2 : ¬ i < 16 := by omega
    have h3 : i - 16 < 8 := by omega
    have h4 : 16 + (i - 16) = i := by omega
    have h5 : ¬ i - 8 < 8 := by omega
    have h8 : i - 16 < 32 := by omega
    simp [hi, h, h1, h2, h3, h4, h5, h8]
  · have h1 : ¬ i < 8 := by omega
    have h2 : ¬ i < 16 := by omega
    have h3 : i - 24 < 8 := by omega
    have h4 : 24 + (i - 24) = i := by omega
    have h5 : ¬ i - 8 < 8 := by omega
    have h6 : ¬ i - 16 < 8 := by omega
    have h7 : ¬ i < 24 := by omega
    have h8 : i - 24 < 32 := by omega
    simp [hi, h1, h2, h3, h4, h5, h6, h7, h8]

/-- Four bytes decode as the command word they make. -/
theorem decode_bytesOfWord (w : Word) : decode (bytesOfWord w) = some (decodeCommand w) := by
  simp only [bytesOfWord, decode, wordOfBytes_of_parts]

/-- Nine bytes decode as the descriptor they make. -/
theorem decode_descriptor (d : Byte) (addr wdata : Word) :
    decode (d :: (bytesOfWord addr ++ bytesOfWord wdata)) = decodeBus d addr wdata := by
  simp only [bytesOfWord, List.cons_append, List.nil_append, decode, wordOfBytes_of_parts]

/-- What the decoder accepts has one of the two lengths. -/
theorem length_of_decode {bs : List Byte} {i : Instr} (h : decode bs = some i) :
    bs.length = 4 ∨ bs.length = 9 := by
  unfold decode at h
  split at h
  · exact .inl rfl
  · exact .inr rfl
  · cases h

end Sys2Proof
end

