-- ==== Sys2Proof/Laws/Matrices.lean ====
section
/-! SUPPORT. The laws of codewords, of module matrices, and of their layout in a matrix window: what is written
is what is read back, module by module (30_encoding.md R110). -/

namespace Sys2Proof.Machine

/-! ## Codewords -/

@[simp] theorem putBits_length (v w : Nat) : (putBits v w).length = w := by simp [putBits]

@[simp] theorem bitsOfByte_length (b : Byte) : (bitsOfByte b).length = 8 := by simp [bitsOfByte]

/-- The eight bits of a codeword make the codeword. -/
theorem codewordsOf_bitsOfByte (b : Byte) (rest : List Bool) :
    codewordsOf (bitsOfByte b ++ rest) = b :: codewordsOf rest := by
  have h : ∀ b : Byte,
      byteOfBits (b.toNat.testBit 7) (b.toNat.testBit 6) (b.toNat.testBit 5) (b.toNat.testBit 4)
        (b.toNat.testBit 3) (b.toNat.testBit 2) (b.toNat.testBit 1) (b.toNat.testBit 0) = b := by decide +kernel
  exact congrArg (· :: codewordsOf rest) (h b)

theorem codewordsOf_flatMap (bs : List Byte) (rest : List Bool) :
    codewordsOf (bs.flatMap bitsOfByte ++ rest) = bs ++ codewordsOf rest := by
  induction bs with
  | nil => rfl
  | cons b bs ih => rw [List.flatMap_cons, List.append_assoc, codewordsOf_bitsOfByte, ih, List.cons_append]

theorem codewordsOf_length (bits : List Bool) : (codewordsOf bits).length = bits.length / 8 := by
  induction bits using codewordsOf.induct with
  | case1 b7 b6 b5 b4 b3 b2 b1 b0 rest ih => simp only [codewordsOf, List.length_cons, ih]; omega
  | case2 l h =>
    have : l.length < 8 := by
      match l, h with
      | [], _ | [_], _ | [_, _], _ | [_, _, _], _ | [_, _, _, _], _ => simp
      | [_, _, _, _, _], _ | [_, _, _, _, _, _], _ | [_, _, _, _, _, _, _], _ => simp
      | b7 :: b6 :: b5 :: b4 :: b3 :: b2 :: b1 :: b0 :: rest, h => exact absurd rfl (h b7 b6 b5 b4 b3 b2 b1 b0 rest)
    rw [codewordsOf, List.length_nil]
    · omega
    · exact h

/-- Bit `7 − j` of codeword `i` is bit `8·i + j` of the stream (00_scope.md R12). -/
theorem codewordsOf_getLsbD (bits : List Bool) (i j : Nat) (hj : j < 8) (h : 8 * i + 8 ≤ bits.length) :
    ((codewordsOf bits).getD i 0#8).getLsbD (7 - j) = bits.getD (8 * i + j) false := by
  have hb : ∀ (b7 b6 b5 b4 b3 b2 b1 b0 : Bool) (j : Fin 8),
      (byteOfBits b7 b6 b5 b4 b3 b2 b1 b0).getLsbD (7 - j.val) = [b7, b6, b5, b4, b3, b2, b1, b0].getD j.val false := by
    decide +kernel
  induction bits using codewordsOf.induct generalizing i with
  | case1 b7 b6 b5 b4 b3 b2 b1 b0 rest ih =>
    cases i with
    | zero =>
      have := hb b7 b6 b5 b4 b3 b2 b1 b0 ⟨j, hj⟩
      simp only [codewordsOf, List.getD_cons_zero, Nat.mul_zero, Nat.zero_add]
      rw [this]
      rcases (by omega : j = 0 ∨ j = 1 ∨ j = 2 ∨ j = 3 ∨ j = 4 ∨ j = 5 ∨ j = 6 ∨ j = 7) with
        rfl | rfl | rfl | rfl | rfl | rfl | rfl | rfl <;> rfl
    | succ i =>
      simp only [List.length_cons] at h
      have := ih i (by omega)
      simp only [codewordsOf, List.getD_cons_succ, this]
      rw [show 8 * (i + 1) + j = 8 * i + j + 1 + 1 + 1 + 1 + 1 + 1 + 1 + 1 by omega]
      simp only [List.getD_cons_succ]
  | case2 l hl =>
    exfalso
    match l, hl with
    | [], _ | [_], _ | [_, _], _ | [_, _, _], _ | [_, _, _, _], _ => simp at h; try omega
    | [_, _, _, _, _], _ | [_, _, _, _, _, _], _ | [_, _, _, _, _, _, _], _ => simp at h; try omega
    | b7 :: b6 :: b5 :: b4 :: b3 :: b2 :: b1 :: b0 :: rest, hl => exact absurd rfl (hl b7 b6 b5 b4 b3 b2 b1 b0 rest)

/-! ## Matrices -/

theorem build_at (n : Nat) (f : Nat → Nat → Bool) (r c : Nat) :
    (Matrix.build n f).at r c = (decide (r < n) && decide (c < n) && f r c) := by
  unfold Matrix.at Matrix.build
  by_cases hr : r < n
  · by_cases hc : c < n <;> simp [hr, hc]
  · simp [hr]

@[simp] theorem build_length (n : Nat) (f : Nat → Nat → Bool) : (Matrix.build n f).length = n := by
  simp [Matrix.build]

/-- An assignment to one module leaves every other. -/
theorem put_at_other (m : Matrix) {r c r' c' : Nat} (v : Bool) (h : ¬ (r' = r ∧ c' = c)) :
    (m.put r c v).at r' c' = m.at r' c' := by
  unfold Matrix.at Matrix.put
  by_cases hr : r' = r
  · subst hr
    have hc : c ≠ c' := fun e => h ⟨rfl, e.symm⟩
    by_cases hl : r' < m.length
    · simp [List.getD_eq_getElem?_getD, List.getElem?_eq_getElem hl, hc]
    · simp [List.getD_eq_getElem?_getD, List.getElem?_eq_none (Nat.le_of_not_lt hl)]
  · have hr' : r ≠ r' := fun e => hr e.symm
    simp [List.getD_eq_getElem?_getD, hr']

/-- The assignments of a list leave every module it does not name. -/
theorem putAll_at_other (cells : List ((Nat × Nat) × Bool)) (m : Matrix) (r c : Nat)
    (h : ∀ cell ∈ cells, cell.1 ≠ (r, c)) : (m.putAll cells).at r c = m.at r c := by
  induction cells generalizing m with
  | nil => rfl
  | cons cell cells ih =>
    have h1 := h cell (List.mem_cons_self ..)
    rw [Matrix.putAll, List.foldl_cons]
    rw [show (cells.foldl (fun acc cell => acc.put cell.1.1 cell.1.2 cell.2) (m.put cell.1.1 cell.1.2 cell.2))
      = (m.put cell.1.1 cell.1.2 cell.2).putAll cells from rfl]
    rw [ih _ fun x hx => h x (List.mem_cons_of_mem _ hx)]
    exact put_at_other m cell.2 fun e => h1 (Prod.ext e.1.symm e.2.symm)

/-! ## A matrix window -/

@[simp] theorem rowBytes_length (row : List Bool) : (rowBytes row).length = 24 := by
  simp [rowBytes, codewordsOf_length, sideMax]

theorem flatMap_const_length {α β : Type} (f : α → List β) (k : Nat) (hf : ∀ x, (f x).length = k) (l : List α) :
    (l.flatMap f).length = k * l.length := by
  induction l with
  | nil => simp
  | cons x l ih => simp [hf, ih, Nat.mul_succ, Nat.add_comm]

/-- The byte `k·r + i` of a concatenation of pieces of length `k` is byte `i` of piece `r`. -/
theorem flatMap_const_getElem? {α β : Type} (f : α → List β) (k : Nat) (hf : ∀ x, (f x).length = k)
    (l : List α) (r i : Nat) (hi : i < k) : (l.flatMap f)[k * r + i]? = (l[r]?).bind fun x => (f x)[i]? := by
  induction l generalizing r with
  | nil => simp
  | cons x l ih =>
    rw [List.flatMap_cons]
    cases r with
    | zero => rw [List.getElem?_append_left (by rw [hf]; omega)]; simp
    | succ r =>
      rw [List.getElem?_append_right (by rw [hf, Nat.mul_succ]; omega), hf]
      rw [show k * (r + 1) + i - k = k * r + i by rw [Nat.mul_succ]; omega, ih]
      simp

/-- A matrix write covers the stored bytes of the window, 177 rows of 24 (20_memory.md R79). -/
@[simp] theorem windowBytes_length (m : Matrix) : (windowBytes m).length = 4248 := by
  have h : ((m ++ List.replicate sideMax []).take sideMax).length = sideMax := by
    rw [List.length_take, List.length_append, List.length_replicate]; omega
  rw [windowBytes, flatMap_const_length rowBytes 24 rowBytes_length, h]
  rfl

/-- The bit at column `c` of row `r` in the bytes of a matrix: its module, and 0 in the padding columns
(30_encoding.md R110, 44_mask.md R256). -/
theorem windowBytes_bit (m : Matrix) (r c : Nat) (hr : r < sideMax) (hc : c < 192) :
    ((windowBytes m).getD (24 * r + c / 8) 0#8).getLsbD (7 - c % 8) = (decide (c < sideMax) && m.at r c) := by
  have hr' : r < 177 := hr
  have h24 : c / 8 < 24 := by omega
  rw [windowBytes, List.getD_eq_getElem?_getD, flatMap_const_getElem? rowBytes 24 rowBytes_length _ r _ h24]
  have hrow : ((m ++ List.replicate sideMax []).take sideMax)[r]? = some (m.getD r []) := by
    rw [List.getElem?_take_of_lt hr]
    by_cases hl : r < m.length
    · simp [List.getElem?_append_left hl, List.getD_eq_getElem?_getD, List.getElem?_eq_getElem hl]
    · have hl' : m.length ≤ r := Nat.le_of_not_lt hl
      rw [List.getElem?_append_right hl', List.getD_eq_getElem?_getD, List.getElem?_eq_none hl']
      simp only [Option.getD_none, List.getElem?_replicate]
      rw [if_pos (by omega)]
  rw [hrow, Option.bind_some]
  have := codewordsOf_getLsbD
    (((m.getD r []).take sideMax ++ List.replicate (192 - ((m.getD r []).take sideMax).length) false))
    (c / 8) (c % 8) (Nat.mod_lt _ (by decide)) (by simp [sideMax]; omega)
  rw [rowBytes, ← List.getD_eq_getElem?_getD, this, show 8 * (c / 8) + c % 8 = c by omega]
  unfold Matrix.at
  generalize m.getD r [] = row
  rw [List.getD_eq_getElem?_getD, List.getD_eq_getElem?_getD]
  by_cases hl : c < (row.take sideMax).length
  · have h1 : c < sideMax := by simp at hl; omega
    rw [List.getElem?_append_left hl, List.getElem?_take_of_lt h1]; simp [h1]
  · rw [List.getElem?_append_right (by omega), List.getElem?_replicate]
    by_cases h1 : c < sideMax
    · rw [List.getElem?_eq_none (l := row) (by simp at hl; omega)]; split <;> simp
    · simp only [h1, decide_false, Bool.false_and]; split <;> rfl

theorem windowByte_stored (s : State) {b : BufId} {k : Nat} (h : k < b.storedSize) :
    s.windowByte b k = s.bufByte b k := if_pos h

theorem windowByte_past (s : State) {b : BufId} {k : Nat} (h : b.storedSize ≤ k) : s.windowByte b k = 0x00#8 :=
  if_neg (Nat.not_lt.2 h)

theorem storedSize_matrix {b : BufId} (hb : b.isMatrix = true) : b.storedSize = 4248 := if_pos hb

/-- A module is the stored bit of its column. -/
theorem module_eq (s : State) {b : BufId} (hb : b.isMatrix = true) (r c : Nat) (hr : r < sideMax) (hc : c < sideMax) :
    s.module b r c = (s.bufByte b (24 * r + c / 8)).getLsbD (7 - c % 8) := by
  have hc' : c < 177 := hc
  have hr' : r < 177 := hr
  simp [State.module, State.storedBit, hr, hc,
    windowByte_stored s (b := b) (k := 24 * r + c / 8) (by rw [storedSize_matrix hb]; omega)]

/-- A matrix write stores its modules and 0 in every padding bit. -/
theorem storedBit_writeMatrix (s : State) {b : BufId} (hb : b.isMatrix = true) (m : Matrix) (r c : Nat)
    (hr : r < sideMax) (hc : c < 192) : (s.writeMatrix b m).storedBit b r c = (decide (c < sideMax) && m.at r c) := by
  have hr' : r < 177 := hr
  rw [State.storedBit, windowByte_stored _ (by rw [storedSize_matrix hb]; omega), State.writeMatrix, bufByte_writeBuf,
    if_pos ⟨rfl, by omega, by simp; omega⟩, Nat.sub_zero, windowBytes_bit m r c hr hc]

/-- A module reads back as it was written. -/
theorem module_writeMatrix (s : State) {b : BufId} (hb : b.isMatrix = true) (m : Matrix) (r c : Nat)
    (hr : r < sideMax) (hc : c < sideMax) : (s.writeMatrix b m).module b r c = m.at r c := by
  simp [State.module, storedBit_writeMatrix s hb m r c hr (Nat.lt_trans hc (by decide)), hr, hc]

/-- Module (r, c) of the matrix read from a window. -/
theorem readMatrix_at (s : State) {b : BufId} (hb : b.isMatrix = true) (n r c : Nat) :
    (s.readMatrix b n).at r c = (decide (r < n) && decide (c < n) && s.module b r c) := by
  unfold Matrix.at State.readMatrix
  by_cases hr : r < n
  swap
  · simp [hr]
  simp only [List.getD_eq_getElem?_getD, List.getElem?_map, List.getElem?_range hr, Option.map_some, Option.getD_some]
  have hbits := flatMap_const_length (fun i => bitsOfByte (s.windowByte b (24 * r + i))) 8 (by simp)
    (List.range ((min n sideMax + 7) / 8))
  rw [List.length_range] at hbits
  unfold State.matrixRow
  by_cases hc : c < min n sideMax
  · have hcn : c < n := by omega
    have hcs : c < sideMax := by omega
    simp only []
    rw [List.getElem?_append_left (by rw [List.length_take, hbits]; omega), List.getElem?_take_of_lt hc,
      show c = 8 * (c / 8) + c % 8 by omega,
      flatMap_const_getElem? _ 8 (by simp) _ _ _ (Nat.mod_lt _ (by decide)), ← show c = 8 * (c / 8) + c % 8 by omega,
      List.getElem?_range (by omega)]
    have h8 : c % 8 < 8 := Nat.mod_lt _ (by decide)
    have hbit : ((bitsOfByte (s.windowByte b (24 * r + c / 8)))[c % 8]?).getD false = s.storedBit b r c := by
      simp only [bitsOfByte, putBits, List.getElem?_map, List.getElem?_range h8, Option.map_some, Option.getD_some,
        State.storedBit, BitVec.getLsbD, show 8 - 1 - c % 8 = 7 - c % 8 by omega]
    rw [Option.bind_some, hbit]
    by_cases h177 : r < sideMax
    · simp [State.module, hr, hcn, hcs, h177]
    · have : s.storedBit b r c = false := by
        have hr' : 177 ≤ r := Nat.le_of_not_lt h177
        rw [State.storedBit, windowByte_past _ (by rw [storedSize_matrix hb]; omega)]; simp
      simp [State.module, h177, this]
  · simp only []
    rw [List.getElem?_append_right (by rw [List.length_take, hbits]; omega), List.getElem?_replicate]
    have : (decide (c < n) && s.module b r c) = false := by
      by_cases hcn : c < n
      · have : ¬ c < sideMax := by omega
        simp [State.module, this]
      · simp [hcn]
    rw [Bool.and_assoc, this]; split <;> simp

/-- A matrix write leaves the modules of every other matrix. -/
theorem module_writeMatrix_other (s : State) {b c : BufId} (m : Matrix) (r k : Nat) (h : c ≠ b) :
    (s.writeMatrix b m).module c r k = s.module c r k := by
  simp [State.module, State.storedBit, State.windowByte, State.writeMatrix, bufByte_writeBuf_other s 0 _ (windowBytes m) h]

theorem module_congr {s t : State} {b : BufId} (h : s.buf b = t.buf b) (r c : Nat) :
    s.module b r c = t.module b r c := by
  simp [State.module, State.storedBit, State.windowByte, bufByte_congr h]

end Sys2Proof.Machine
end

