-- ==== Sys2Proof/Laws/PerInstr.lean ====
section
/-! SUPPORT. The family EncodedForm, one lemma per constructor: the encoding of an instruction has the form of
its row in spec/opcode_table.json, a command word of four bytes whose low four bits are its OPCODE
(30_encoding.md R100, R101), or a descriptor of nine bytes whose first is its DESC (R103). -/

namespace Sys2Proof

/-- The low bits of an instruction's row in the opcode table: OPCODE of a command, DESC of a transaction. -/
def Instr.tableCode : Instr → Nat
  | .nop => 0x0 | .pack => 0x1 | .ecc => 0x2 | .place => 0x3 | .mask => 0x4 | .encode => 0x5
  | .vector => 0x6 | .rs => 0x7 | .reserved8 => 0x8 | .reserved9 => 0x9 | .reservedA => 0xA
  | .reservedB => 0xB | .reservedC => 0xC | .reservedD => 0xD | .reservedE => 0xE | .abort => 0xF
  | .r8 _ => 0x0 | .r16 _ => 0x1 | .r32 _ => 0x2 | .w8 _ _ => 0x8 | .w16 _ _ => 0x9 | .w32 _ _ => 0xA

/-- Is the instruction a bus transaction, and not a command word? -/
def Instr.isBus : Instr → Bool
  | .r8 _ | .r16 _ | .r32 _ | .w8 _ _ | .w16 _ _ | .w32 _ _ => true
  | .nop | .pack | .ecc | .place | .mask | .encode | .vector | .rs => false
  | .reserved8 | .reserved9 | .reservedA | .reservedB | .reservedC | .reservedD | .reservedE => false
  | .abort => false

/-- The encoding of `i` has the length of its form, and its first byte is its code in the opcode table. -/
def Laws.EncodedForm.Statement (i : Instr) : Prop :=
  (encode i).length = (if i.isBus then 9 else 4) ∧ (encode i).head? = some (BitVec.ofNat 8 i.tableCode)

namespace Laws.EncodedForm

theorem nop : Statement .nop := ⟨rfl, rfl⟩
theorem pack : Statement .pack := ⟨rfl, rfl⟩
theorem ecc : Statement .ecc := ⟨rfl, rfl⟩
theorem place : Statement .place := ⟨rfl, rfl⟩
theorem mask : Statement .mask := ⟨rfl, rfl⟩
theorem encode : Statement .encode := ⟨rfl, rfl⟩
theorem vector : Statement .vector := ⟨rfl, rfl⟩
theorem rs : Statement .rs := ⟨rfl, rfl⟩
theorem reserved8 : Statement .reserved8 := ⟨rfl, rfl⟩
theorem reserved9 : Statement .reserved9 := ⟨rfl, rfl⟩
theorem reservedA : Statement .reservedA := ⟨rfl, rfl⟩
theorem reservedB : Statement .reservedB := ⟨rfl, rfl⟩
theorem reservedC : Statement .reservedC := ⟨rfl, rfl⟩
theorem reservedD : Statement .reservedD := ⟨rfl, rfl⟩
theorem reservedE : Statement .reservedE := ⟨rfl, rfl⟩
theorem abort : Statement .abort := ⟨rfl, rfl⟩
theorem r8 (addr : Word) : Statement (.r8 addr) := ⟨rfl, rfl⟩
theorem r16 (addr : Word) : Statement (.r16 addr) := ⟨rfl, rfl⟩
theorem r32 (addr : Word) : Statement (.r32 addr) := ⟨rfl, rfl⟩
theorem w8 (addr wdata : Word) : Statement (.w8 addr wdata) := ⟨rfl, rfl⟩
theorem w16 (addr wdata : Word) : Statement (.w16 addr wdata) := ⟨rfl, rfl⟩
theorem w32 (addr wdata : Word) : Statement (.w32 addr wdata) := ⟨rfl, rfl⟩

end Laws.EncodedForm

end Sys2Proof
end

