-- ==== Sys2Proof/Laws/Stages.lean ====
section
/-! SUPPORT. What a command body can do, said once: when it errs and how, what it keeps when it does not, and
how many bytes it writes (40_host_bus.md R137, 60_exceptions.md R310, R315). -/

namespace Sys2Proof.Machine

/-! ## The ENGINE completion step -/

theorem engineComplete_ok {s t : State} (h : commandBody s.pendingOp s = .ok t) :
    s.engineComplete = t.complete := by
  simp only [State.engineComplete, h]

theorem engineComplete_error {s : State} {e : CommandError} (h : commandBody s.pendingOp s = .error e) :
    s.engineComplete = s.errorEnd e := by
  simp only [State.engineComplete, h]

/-- Everything the ENGINE completion step can do. -/
theorem engineComplete_cases (s : State) :
    (∃ t, commandBody s.pendingOp s = .ok t ∧ s.engineComplete = t.complete) ∨
    (∃ e, commandBody s.pendingOp s = .error e ∧ s.engineComplete = s.errorEnd e) := by
  cases h : commandBody s.pendingOp s with
  | ok t => exact .inl ⟨t, rfl, engineComplete_ok h⟩
  | error e => exact .inr ⟨e, rfl, engineComplete_error h⟩

/-! ## PACK -/

theorem isVersion_iff (v : Nat) : isVersion v = true ↔ 1 ≤ v ∧ v ≤ 40 := by simp [isVersion]

theorem fits_iff (v : Nat) (l : Level) (n : Nat) :
    fits v l n = true ↔ 4 + ccBits v + 8 * n ≤ 8 * dataCodewords v l := by simp [fits]

/-- ChooseVersion finds the least version that fits (41_packer.md R152). -/
theorem chooseVersion_some {l : Level} {n v : Nat} (h : chooseVersion l n = some v) :
    1 ≤ v ∧ v ≤ 40 ∧ fits v l n = true ∧ ∀ w, 1 ≤ w → w < v → fits w l n = false := by
  unfold chooseVersion at h
  obtain ⟨hf, pre, post, hl, hpre⟩ := List.find?_eq_some_iff_append.1 h
  have hlen : pre.length < 40 := by
    have := congrArg List.length hl; simp at this; omega
  have hget : ∀ i, i < 40 → (pre ++ v :: post)[i]? = some (i + 1) := by
    intro i hi
    rw [← hl]; simp [hi]
  have hv : v = pre.length + 1 := by simpa using hget pre.length hlen
  refine ⟨by omega, by omega, hf, fun w hw1 hw2 => ?_⟩
  have hw := hget (w - 1) (by omega)
  rw [List.getElem?_append_left (by omega), show w - 1 + 1 = w by omega] at hw
  simpa using hpre w (List.mem_of_getElem? hw)

theorem chooseVersion_none {l : Level} {n : Nat} (h : chooseVersion l n = none) (v : Nat) (h1 : 1 ≤ v) (h2 : v ≤ 40) :
    fits v l n = false := by
  have := List.find?_eq_none.1 h v (by simp; exact ⟨v - 1, by omega, by omega⟩)
  simpa using this

/-- PACK without error. -/
theorem packBody_ok {s : State} {v : Nat} (hn : s.inLen.toNat ≤ maxPayload)
    (hv : chooseVersion (Level.ofCode s.config.level) s.inLen.toNat = some v) :
    packBody s = .ok
      { s.writeBuf .datacw 0
          (codewordsOf (packStream v (Level.ofCode s.config.level) (s.bufBytes .inbuf 0 s.inLen.toNat))) with
        symbol := { version := BitVec.ofNat 6 v, level := s.config.level, mask := s.symbol.mask }
        dataCount := BitVec.ofNat 12 (dataCodewords v (Level.ofCode s.config.level))
        status := s.status.packCompletes } := by
  simp only [packBody, Nat.not_lt.2 hn, if_false, hv]

/-- Everything PACK can do. -/
theorem packBody_cases (s : State) :
    (packBody s = .error { code := errPayloadTooLarge, stage := 1#3 } ∧
      (maxPayload < s.inLen.toNat ∨ chooseVersion (Level.ofCode s.config.level) s.inLen.toNat = none)) ∨
    (∃ v t, packBody s = .ok t ∧ s.inLen.toNat ≤ maxPayload ∧
      chooseVersion (Level.ofCode s.config.level) s.inLen.toNat = some v) := by
  by_cases hn : maxPayload < s.inLen.toNat
  · exact .inl ⟨by simp only [packBody, hn, if_true], .inl hn⟩
  · have hn' := Nat.not_lt.1 hn
    cases hv : chooseVersion (Level.ofCode s.config.level) s.inLen.toNat with
    | none => exact .inl ⟨by simp only [packBody, hn, if_false, hv], .inr rfl⟩
    | some v => exact .inr ⟨v, _, packBody_ok hn' hv, hn', rfl⟩

theorem headerAndPayload_length (v : Nat) (p : List Byte) :
    (headerAndPayload v p).length = 4 + ccBits v + 8 * p.length := by
  simp only [headerAndPayload, List.length_append, putBits_length,
    flatMap_const_length bitsOfByte 8 bitsOfByte_length]

/-- The terminator always has room for its four bits and no bit padding is needed (41_packer.md R158). -/
theorem terminated_eq {v : Nat} {l : Level} {p : List Byte} (h : fits v l p.length = true) :
    terminated (8 * dataCodewords v l) (headerAndPayload v p) =
      headerAndPayload v p ++ List.replicate 4 false := by
  rw [fits_iff] at h
  have hc : ccBits v = 8 ∨ ccBits v = 16 := by unfold ccBits; split <;> simp
  have hl := headerAndPayload_length v p
  have h4 : min 4 (8 * dataCodewords v l - (headerAndPayload v p).length) = 4 := by
    rw [hl]; rcases hc with hc | hc <;> rw [hc] at h ⊢ <;> omega
  have h0 : (8 - (headerAndPayload v p ++ List.replicate 4 false).length % 8) % 8 = 0 := by
    rw [List.length_append, List.length_replicate, hl]; rcases hc with hc | hc <;> rw [hc] <;> omega
  simp only [terminated, h4, h0, List.replicate_zero, List.append_nil]

@[simp] theorem padBytes_length (k : Nat) : (padBytes k).length = k := by simp [padBytes]

/-- The packed stream, piece by piece (41_packer.md R150, R158). -/
theorem packStream_eq {v : Nat} {l : Level} {p : List Byte} (h : fits v l p.length = true) :
    packStream v l p =
      (headerAndPayload v p ++ List.replicate 4 false)
        ++ (padBytes (dataCodewords v l - (4 + ccBits v + 8 * p.length + 4) / 8)).flatMap bitsOfByte := by
  simp only [packStream, terminated_eq h, List.length_append, headerAndPayload_length, List.length_replicate]

/-- The packed stream has exactly 8·D bits (41_packer.md R150). -/
theorem packStream_length {v : Nat} {l : Level} {p : List Byte} (h : fits v l p.length = true) :
    (packStream v l p).length = 8 * dataCodewords v l := by
  have hf := (fits_iff _ _ _).1 h
  have hc : ccBits v = 8 ∨ ccBits v = 16 := by unfold ccBits; split <;> simp
  rw [packStream_eq h]
  simp only [List.length_append, headerAndPayload_length, List.length_replicate,
    flatMap_const_length bitsOfByte 8 bitsOfByte_length, padBytes_length]
  rcases hc with hc | hc <;> rw [hc] at hf ⊢ <;> omega

/-! ## ECC and RS -/

theorem mulLinear_length (g : List Byte) (a : Byte) : (mulLinear g a).length = g.length + 1 := by
  simp [mulLinear]

/-- Gen(e) has degree e (42_rs_ecc.md R174). -/
@[simp] theorem genPoly_length (e : Nat) : (genPoly e).length = e + 1 := by
  induction e with
  | zero => rfl
  | succ e ih => rw [genPoly, mulLinear_length, ih]

theorem parityStep_length {g r : List Byte} (h : g.length = r.length + 1) (h0 : r ≠ []) (d : Byte) :
    (parityStep g r d).length = r.length := by
  have : 0 < r.length := List.length_pos_of_ne_nil h0
  simp [parityStep, h]; omega

/-- The parity of a block has e codewords (42_rs_ecc.md R178). -/
@[simp] theorem rsParity_length (d : List Byte) (e : Nat) : (rsParity d e).length = e := by
  unfold rsParity
  have key : ∀ (d : List Byte) (r : List Byte), r.length = e → (d.foldl (parityStep (genPoly e)) r).length = e := by
    intro d
    induction d with
    | nil => exact fun r h => h
    | cons x d ih =>
      intro r h
      rw [List.foldl_cons]
      refine ih _ ?_
      by_cases he : e = 0
      · subst he; simp [parityStep, genPoly]
      · rw [parityStep_length (by rw [genPoly_length, h]) (fun hr => he (by simp [← h, hr])), h]
  exact key d _ (List.length_replicate ..)

theorem eccBody_ok {s : State} (h : isVersion s.symbol.version.toNat = true) :
    eccBody s = .ok
      { s.writeBuf .finalcw 0
          (finalSequence s.symbol.version.toNat (Level.ofCode s.symbol.level)
            (s.bufBytes .datacw 0 (dataCodewords s.symbol.version.toNat (Level.ofCode s.symbol.level)))) with
        cwCount := BitVec.ofNat 12 (totalCw s.symbol.version.toNat)
        dataCount := BitVec.ofNat 12 (dataCodewords s.symbol.version.toNat (Level.ofCode s.symbol.level))
        status := s.status.eccCompletes } := by
  simp only [eccBody, h, if_true]

theorem eccBody_error {s : State} (h : isVersion s.symbol.version.toNat = false) :
    eccBody s = .error { code := errBadParam, stage := 2#3 } := by
  simp only [eccBody, h, Bool.false_eq_true, if_false]

theorem rsBody_ok {s : State} (h : rsParamOk s.rsParam.k.toNat s.rsParam.e.toNat = true) :
    rsBody s = .ok
      (s.writeBuf .rsout 0 (rsParity (s.bufBytes .datacw 0 s.rsParam.k.toNat) s.rsParam.e.toNat)) := by
  simp only [rsBody, h, if_true]

theorem rsBody_error {s : State} (h : rsParamOk s.rsParam.k.toNat s.rsParam.e.toNat = false) :
    rsBody s = .error { code := errBadParam, stage := 6#3 } := by
  simp only [rsBody, h, Bool.false_eq_true, if_false]

/-! ## PLACE, MASK and ENCODE -/

theorem placeBody_ok {s : State} (h : isVersion s.symbol.version.toNat = true)
    (hc : s.cwCount.toNat = totalCw s.symbol.version.toNat) :
    placeBody s = .ok
      { (s.writeMatrix .funcmap (functionMatrix s.symbol.version.toNat)).writeMatrix .placed
          (placedMatrix s.symbol.version.toNat (s.bufBytes .finalcw 0 (totalCw s.symbol.version.toNat))) with
        mside := BitVec.ofNat 8 (side s.symbol.version.toNat)
        status := s.status.placeCompletes } := by
  simp only [placeBody, h, hc, if_true]

theorem placeBody_badParam {s : State} (h : isVersion s.symbol.version.toNat = false) :
    placeBody s = .error { code := errBadParam, stage := 3#3 } := by
  simp only [placeBody, h, Bool.false_eq_true, if_false]

theorem placeBody_overflow {s : State} (h : isVersion s.symbol.version.toNat = true)
    (hc : s.cwCount.toNat ≠ totalCw s.symbol.version.toNat) :
    placeBody s = .error { code := errAssemblyOverflow, stage := 3#3 } := by
  simp only [placeBody, h, hc, if_true, if_false]

theorem maskBody_error {s : State} (h : s.status.vPlace = false) :
    maskBody s = .error { code := errStageOrder, stage := 4#3 } := by
  simp only [maskBody, h, Bool.false_eq_true, if_false]

/-- The selected mask is the index of a score, and no score is smaller (44_mask.md R250). -/
theorem selectMask_spec {scores : List Nat} (h : scores ≠ []) :
    selectMask scores < scores.length ∧ (∀ t ∈ scores, scores.getD (selectMask scores) 0 ≤ t) ∧
      ∀ m, m < selectMask scores → scores.getD (selectMask scores) 0 < scores.getD m 0 := by
  have hex : ∃ m, m < scores.length ∧ ∀ t ∈ scores, scores.getD m 0 ≤ t := by
    obtain ⟨x, hx⟩ := List.exists_mem_of_ne_nil _ h
    have hfin : ∃ x ∈ scores, ∀ t ∈ scores, x ≤ t := by
      refine ⟨scores.min h, List.min_mem h, fun t ht => List.min_le_of_mem ht⟩
    obtain ⟨y, hy, hmin⟩ := hfin
    obtain ⟨i, hi, rfl⟩ := List.mem_iff_getElem.1 hy
    exact ⟨i, hi, fun t ht => by simpa [hi] using hmin t ht⟩
  unfold selectMask
  cases hf : (List.range scores.length).find? fun m => scores.all fun t => decide (scores.getD m 0 ≤ t) with
  | none =>
    obtain ⟨m, hm, hall⟩ := hex
    have := List.find?_eq_none.1 hf m (List.mem_range.2 hm)
    simp only [List.all_eq_true, decide_eq_true_eq] at this
    exact absurd hall this
  | some m =>
    obtain ⟨hm, pre, post, hl, hpre⟩ := List.find?_eq_some_iff_append.1 hf
    simp only [List.all_eq_true, decide_eq_true_eq] at hm
    have hmem : m ∈ List.range scores.length := by rw [hl]; simp
    refine ⟨List.mem_range.1 hmem, hm, fun k hk => ?_⟩
    simp only [Option.getD_some] at hk ⊢
    have hlen : m < scores.length := List.mem_range.1 hmem
    have hkmem : k ∈ pre := by
      have hk' : k ∈ List.range scores.length := List.mem_range.2 (by omega)
      have hsorted : (pre ++ m :: post).Pairwise (· < ·) := by rw [← hl]; exact List.pairwise_lt_range
      rw [hl, List.mem_append, List.mem_cons] at hk'
      rcases hk' with hk' | hk' | hk'
      · exact hk'
      · omega
      · have := (List.pairwise_cons.1 (List.pairwise_append.1 hsorted).2.1).1 k hk'
        omega
    have hno := hpre k hkmem
    simp only [Bool.not_eq_true', List.all_eq_false, decide_eq_true_eq] at hno
    obtain ⟨t, ht, hlt⟩ := hno
    exact lt_of_le_of_lt (hm t ht) (by omega)

/-! ## What every body keeps -/

/-- What no command writes before its end: everything but the outputs and the stage-valid flags. -/
structure BodyFrame (s t : State) : Prop where
  lastOp : t.lastOp = s.lastOp
  irqEn : t.irqEn = s.irqEn
  irqPend : t.irqPend = s.irqPend
  config : t.config = s.config
  inLen : t.inLen = s.inLen
  jobTag : t.jobTag = s.jobTag
  resultTag : t.resultTag = s.resultTag
  rsParam : t.rsParam = s.rsParam
  rasterSize : t.rasterSize = s.rasterSize
  colorDark : t.colorDark = s.colorDark
  colorLight : t.colorLight = s.colorLight
  inbuf : t.inbuf = s.inbuf
  pendingOp : t.pendingOp = s.pendingOp
  pendingTag : t.pendingTag = s.pendingTag
  turns : t.turns = s.turns
  resp : t.resp = s.resp
  nextDraw : t.nextDraw = s.nextDraw
  status : t.status =
    { s.status with
      vPack := t.status.vPack, vEcc := t.status.vEcc, vPlace := t.status.vPlace, vMask := t.status.vMask
      vVec := t.status.vVec }

theorem BodyFrame.trans {s t u : State} (h : BodyFrame s t) (k : BodyFrame t u) : BodyFrame s u where
  lastOp := k.lastOp.trans h.lastOp
  irqEn := k.irqEn.trans h.irqEn
  irqPend := k.irqPend.trans h.irqPend
  config := k.config.trans h.config
  inLen := k.inLen.trans h.inLen
  jobTag := k.jobTag.trans h.jobTag
  resultTag := k.resultTag.trans h.resultTag
  rsParam := k.rsParam.trans h.rsParam
  rasterSize := k.rasterSize.trans h.rasterSize
  colorDark := k.colorDark.trans h.colorDark
  colorLight := k.colorLight.trans h.colorLight
  inbuf := k.inbuf.trans h.inbuf
  pendingOp := k.pendingOp.trans h.pendingOp
  pendingTag := k.pendingTag.trans h.pendingTag
  turns := k.turns.trans h.turns
  resp := k.resp.trans h.resp
  nextDraw := k.nextDraw.trans h.nextDraw
  status := k.status.trans (by rw [h.status])

theorem packBody_frame {s t : State} (h : packBody s = .ok t) : BodyFrame s t := by
  rcases packBody_cases s with ⟨he, -⟩ | ⟨v, t', ht, hn, hv⟩
  · rw [he] at h; cases h
  · rw [packBody_ok hn hv] at h; cases h; constructor <;> rfl

theorem eccBody_frame {s t : State} (h : eccBody s = .ok t) : BodyFrame s t := by
  cases hv : isVersion s.symbol.version.toNat
  · rw [eccBody_error hv] at h; cases h
  · rw [eccBody_ok hv] at h; cases h; constructor <;> rfl

theorem placeBody_frame {s t : State} (h : placeBody s = .ok t) : BodyFrame s t := by
  cases hv : isVersion s.symbol.version.toNat
  · rw [placeBody_badParam hv] at h; cases h
  · by_cases hc : s.cwCount.toNat = totalCw s.symbol.version.toNat
    · rw [placeBody_ok hv hc] at h; cases h; constructor <;> rfl
    · rw [placeBody_overflow hv hc] at h; cases h

theorem maskBody_frame {s t : State} (h : maskBody s = .ok t) : BodyFrame s t := by
  cases hv : s.status.vPlace
  · rw [maskBody_error hv] at h; cases h
  · simp only [maskBody, hv, if_true] at h; cases h; constructor <;> rfl

theorem encodeBody_frame {s t : State} (h : encodeBody s = .ok t) : BodyFrame s t := by
  unfold encodeBody at h
  split at h
  · cases h
  · rename_i s1 h1
    split at h
    · cases h
    · rename_i s2 h2
      split at h
      · cases h
      · rename_i s3 h3
        exact (((packBody_frame h1).trans (eccBody_frame h2)).trans (placeBody_frame h3)).trans (maskBody_frame h)

/-! ## RS, VECTOR and the whole -/

theorem rsBody_frame {s t : State} (h : rsBody s = .ok t) : BodyFrame s t := by
  cases hv : rsParamOk s.rsParam.k.toNat s.rsParam.e.toNat
  · rw [rsBody_error hv] at h; cases h
  · rw [rsBody_ok hv] at h; cases h; constructor <;> rfl

theorem vectorBody_ok {s : State} (h : s.status.vMask = true) :
    vectorBody s = .ok
      { s.writeBuf .vecbuf 0
          ((vectorRecords s s.mside.toNat s.config.qz.toNat).flatMap bytesOfWord) with
        vecCount := BitVec.ofNat 16 (vectorRecords s s.mside.toNat s.config.qz.toNat).length
        vecExtent := BitVec.ofNat 8 (s.mside.toNat + 2 * s.config.qz.toNat)
        status := s.status.vectorCompletes } := by
  simp only [vectorBody, h, if_true]

theorem vectorBody_error {s : State} (h : s.status.vMask = false) :
    vectorBody s = .error { code := errStageOrder, stage := 5#3 } := by
  simp only [vectorBody, h, Bool.false_eq_true, if_false]

theorem vectorBody_frame {s t : State} (h : vectorBody s = .ok t) : BodyFrame s t := by
  cases hv : s.status.vMask
  · rw [vectorBody_error hv] at h; cases h
  · rw [vectorBody_ok hv] at h; cases h; constructor <;> rfl

/-- What a command that completes keeps. -/
theorem commandBody_frame {s t : State} {op : BitVec 4} (h : commandBody op s = .ok t) : BodyFrame s t := by
  unfold commandBody at h
  split at h
  · exact packBody_frame h
  · exact eccBody_frame h
  · exact placeBody_frame h
  · exact maskBody_frame h
  · exact encodeBody_frame h
  · exact vectorBody_frame h
  · exact rsBody_frame h
  · cases h

/-- The codes and stages of the errors (60_exceptions.md R310, R311). -/
theorem commandBody_error {s : State} {op : BitVec 4} {e : CommandError} (h : commandBody op s = .error e) :
    (e.code, e.stage) ∈
      [(errPayloadTooLarge, 1#3), (errBadParam, 2#3), (errBadParam, 3#3), (errAssemblyOverflow, 3#3),
        (errStageOrder, 4#3), (errStageOrder, 5#3), (errBadParam, 6#3), (errIllegalCommand, 0#3)] := by
  have hpack : ∀ {s : State} {e : CommandError}, packBody s = .error e → (e.code, e.stage) = (errPayloadTooLarge, 1#3) := by
    intro s e h
    rcases packBody_cases s with ⟨he, -⟩ | ⟨v, t, ht, -⟩
    · rw [he] at h; cases h; rfl
    · rw [ht] at h; cases h
  have hecc : ∀ {s : State} {e : CommandError}, eccBody s = .error e → (e.code, e.stage) = (errBadParam, 2#3) := by
    intro s e h
    cases hv : isVersion s.symbol.version.toNat
    · rw [eccBody_error hv] at h; cases h; rfl
    · rw [eccBody_ok hv] at h; cases h
  have hplace : ∀ {s : State} {e : CommandError}, placeBody s = .error e →
      (e.code, e.stage) = (errBadParam, 3#3) ∨ (e.code, e.stage) = (errAssemblyOverflow, 3#3) := by
    intro s e h
    cases hv : isVersion s.symbol.version.toNat
    · rw [placeBody_badParam hv] at h; cases h; exact .inl rfl
    · by_cases hc : s.cwCount.toNat = totalCw s.symbol.version.toNat
      · rw [placeBody_ok hv hc] at h; cases h
      · rw [placeBody_overflow hv hc] at h; cases h; exact .inr rfl
  have hmask : ∀ {s : State} {e : CommandError}, maskBody s = .error e → (e.code, e.stage) = (errStageOrder, 4#3) := by
    intro s e h
    cases hv : s.status.vPlace
    · rw [maskBody_error hv] at h; cases h; rfl
    · simp only [maskBody, hv, if_true] at h; cases h
  unfold commandBody at h
  split at h
  · simp [hpack h]
  · simp [hecc h]
  · rcases hplace h with h' | h' <;> simp [h']
  · simp [hmask h]
  · unfold encodeBody at h
    split at h
    · cases h; simp [hpack ‹_›]
    · split at h
      · cases h; simp [hecc ‹_›]
      · split at h
        · cases h; rcases hplace ‹_› with h' | h' <;> simp [h']
        · simp [hmask h]
  · cases hv : s.status.vMask
    · rw [vectorBody_error hv] at h; cases h; simp
    · rw [vectorBody_ok hv] at h; cases h
  · cases hv : rsParamOk s.rsParam.k.toNat s.rsParam.e.toNat
    · rw [rsBody_error hv] at h; cases h; simp
    · rw [rsBody_ok hv] at h; cases h
  · cases h; simp

end Sys2Proof.Machine
end

