-- ==== Sys2Proof/Laws/Step.lean ====
section
/-! SUPPORT. What a step can do, said once: one lemma per kind of turn, and the inversion of a step that
answers a next state. -/

namespace Sys2Proof.Machine

theorem step_host {s : State} {bytes : List Byte} {ts : List Turn} {i : Instr}
    (h : s.turns = .host bytes :: ts) (hd : decode bytes = some i) : step s = exec i { s with turns := ts } := by
  simp only [step, State.nextTurn, h, hd]

theorem step_host_refused {s : State} {bytes : List Byte} {ts : List Turn}
    (h : s.turns = .host bytes :: ts) (hd : decode bytes = none) : step s = .refused .notATransaction := by
  simp only [step, State.nextTurn, h, hd]

theorem step_engine {s : State} {ts : List Turn} (h : s.turns = .engine :: ts) :
    step s = .next (State.engineTurn { s with turns := ts }) := by
  simp only [step, State.nextTurn, h]

theorem step_reset {s : State} {ts : List Turn} (h : s.turns = .reset :: ts) :
    step s = .next (State.resetTurn { s with turns := ts }) := by
  simp only [step, State.nextTurn, h]

theorem step_noTurn {s : State} (h : s.turns = []) : step s = .next s.engineTurn := by
  simp only [step, State.nextTurn, h]

@[simp] theorem engineTurn_idle {s : State} (h : s.status.busy = false) : s.engineTurn = s := by
  simp [State.engineTurn, h]

@[simp] theorem engineTurn_busy {s : State} (h : s.status.busy = true) : s.engineTurn = s.engineComplete := by
  simp [State.engineTurn, h]

/-- No instruction stops: `exec` always answers a next state. -/
theorem exec_next (i : Instr) (s : State) : ∃ t, exec i s = .next t := by
  cases i <;> exact ⟨_, rfl⟩

/-- Everything an instruction can be: a command written to CMD, a read, or a write. -/
theorem exec_cases {i : Instr} {s t : State} (h : exec i s = .next t) :
    (∃ op, i = commandOf op ∧ t = (s.issueCommand op).respond 0#32) ∨
    (∃ addr n, (i, n) ∈ [(Instr.r8 addr, 1), (.r16 addr, 2), (.r32 addr, 4)] ∧ t = s.busRead addr.toNat n) ∨
    (∃ addr n w, (i, n) ∈ [(Instr.w8 addr w, 1), (.w16 addr w, 2), (.w32 addr w, 4)] ∧
      t = s.busWrite addr.toNat n w) := by
  cases i with
  | nop => exact .inl ⟨0x0#4, rfl, by cases h; rfl⟩
  | pack => exact .inl ⟨0x1#4, rfl, by cases h; rfl⟩
  | ecc => exact .inl ⟨0x2#4, rfl, by cases h; rfl⟩
  | place => exact .inl ⟨0x3#4, rfl, by cases h; rfl⟩
  | mask => exact .inl ⟨0x4#4, rfl, by cases h; rfl⟩
  | encode => exact .inl ⟨0x5#4, rfl, by cases h; rfl⟩
  | vector => exact .inl ⟨0x6#4, rfl, by cases h; rfl⟩
  | rs => exact .inl ⟨0x7#4, rfl, by cases h; rfl⟩
  | reserved8 => exact .inl ⟨0x8#4, rfl, by cases h; rfl⟩
  | reserved9 => exact .inl ⟨0x9#4, rfl, by cases h; rfl⟩
  | reservedA => exact .inl ⟨0xA#4, rfl, by cases h; rfl⟩
  | reservedB => exact .inl ⟨0xB#4, rfl, by cases h; rfl⟩
  | reservedC => exact .inl ⟨0xC#4, rfl, by cases h; rfl⟩
  | reservedD => exact .inl ⟨0xD#4, rfl, by cases h; rfl⟩
  | reservedE => exact .inl ⟨0xE#4, rfl, by cases h; rfl⟩
  | abort => exact .inl ⟨0xF#4, rfl, by cases h; rfl⟩
  | r8 addr => exact .inr (.inl ⟨addr, 1, by simp, by cases h; rfl⟩)
  | r16 addr => exact .inr (.inl ⟨addr, 2, by simp, by cases h; rfl⟩)
  | r32 addr => exact .inr (.inl ⟨addr, 4, by simp, by cases h; rfl⟩)
  | w8 addr w => exact .inr (.inr ⟨addr, 1, w, by simp, by cases h; rfl⟩)
  | w16 addr w => exact .inr (.inr ⟨addr, 2, w, by simp, by cases h; rfl⟩)
  | w32 addr w => exact .inr (.inr ⟨addr, 4, w, by simp, by cases h; rfl⟩)

/-- Everything a HOST step can do to the state, but for the response: nothing (an NOP, an idle ABORT, a read, a
bus error), a dropped write, an ABORT, an acceptance, or a store to a place that takes one. -/
theorem host_cases {i : Instr} {s t : State} (h : exec i s = .next t) :
    (∃ r d, t = { s with resp := r, nextDraw := d } ∧ s.nextDraw ≤ d) ∨
    (∃ r, s.status.busy = true ∧ t = { s.dropWrite with resp := r }) ∨
    (∃ r, s.status.busy = true ∧ t = { s.abort with resp := r }) ∨
    (∃ r op, s.status.busy = false ∧ 1 ≤ op.toNat ∧ op.toNat ≤ 14 ∧ t = { s.accept op with resp := r }) ∨
    (∃ r a n w, a ≠ 0x004 ∧ busError a n true = false ∧ (s.status.busy = true → a = 0x00C ∨ a = 0x010) ∧
      (n = 1 ∨ n = 2 ∨ n = 4) ∧ t = { s.store a n w with resp := r }) := by
  have issue : ∀ op, t = (s.issueCommand op).respond 0#32 →
      (∃ r d, t = { s with resp := r, nextDraw := d } ∧ s.nextDraw ≤ d) ∨
      (∃ r, s.status.busy = true ∧ t = { s.dropWrite with resp := r }) ∨
      (∃ r, s.status.busy = true ∧ t = { s.abort with resp := r }) ∨
      (∃ r op, s.status.busy = false ∧ 1 ≤ op.toNat ∧ op.toNat ≤ 14 ∧ t = { s.accept op with resp := r }) := by
    intro op ht
    rcases issueCommand_cases s op with ⟨-, h⟩ | ⟨-, h⟩ | ⟨-, -, hb, h⟩ | ⟨h1, h2, hb, h⟩
    · exact .inl ⟨_, _, by rw [ht, h]; rfl, Nat.le_refl _⟩
    · cases hb : s.status.busy
      · exact .inl ⟨_, _, by rw [ht, h, abort_idle hb]; rfl, Nat.le_refl _⟩
      · exact .inr (.inr (.inl ⟨_, rfl, by rw [ht, h]; rfl⟩))
    · exact .inr (.inl ⟨_, hb, by rw [ht, h]; rfl⟩)
    · exact .inr (.inr (.inr ⟨_, op, hb, h1, h2, by rw [ht, h]; rfl⟩))
  have out : ∀ {p q r u v : Prop}, p ∨ q ∨ r ∨ u → p ∨ q ∨ r ∨ u ∨ v := fun h => by
    rcases h with h | h | h | h <;> simp [h]
  rcases exec_cases h with ⟨op, -, ht⟩ | ⟨addr, n, -, ht⟩ | ⟨addr, n, w, hm, ht⟩
  · exact out (issue op ht)
  · rcases busRead_cases s addr.toNat n with ⟨-, hr⟩ | ⟨-, -, hr⟩ | ⟨-, -, hr⟩ <;> rw [hr] at ht
    · exact .inl ⟨_, _, ht, Nat.le_refl _⟩
    · exact .inl ⟨_, _, ht, Nat.le_succ _⟩
    · exact .inl ⟨_, _, ht, Nat.le_refl _⟩
  · have hn : n = 1 ∨ n = 2 ∨ n = 4 := by
      simp only [List.mem_cons, Prod.mk.injEq, List.not_mem_nil, or_false] at hm
      rcases hm with ⟨-, h⟩ | ⟨-, h⟩ | ⟨-, h⟩ <;> simp [h]
    rcases busWrite_cases s addr.toNat n w with ⟨-, hr⟩ | ⟨-, -, hr⟩ | ⟨-, -, -, -, hb, hr⟩ | ⟨he, h4, hb, hr⟩ <;>
      rw [hr] at ht
    · exact .inl ⟨_, _, ht, Nat.le_refl _⟩
    · exact out (issue _ ht)
    · exact .inr (.inl ⟨_, hb, ht⟩)
    · exact .inr (.inr (.inr (.inr ⟨_, _, n, w, h4, he, hb, hn, ht⟩)))

/-- Everything a step that answers a next state can have done. -/
theorem step_cases {s t : State} (h : step s = .next t) :
    (s.turns = [] ∧ t = s.engineTurn) ∨
    (∃ ts, s.turns = .engine :: ts ∧ t = State.engineTurn { s with turns := ts }) ∨
    (∃ ts, s.turns = .reset :: ts ∧ t = State.resetTurn { s with turns := ts }) ∨
    (∃ bytes ts i, s.turns = .host bytes :: ts ∧ decode bytes = some i ∧
      exec i { s with turns := ts } = .next t) := by
  match ht : s.turns with
  | [] =>
    rw [step_noTurn ht] at h
    exact .inl ⟨rfl, by cases h; rfl⟩
  | .engine :: ts =>
    rw [step_engine ht] at h
    exact .inr (.inl ⟨ts, rfl, by cases h; rfl⟩)
  | .reset :: ts =>
    rw [step_reset ht] at h
    exact .inr (.inr (.inl ⟨ts, rfl, by cases h; rfl⟩))
  | .host bytes :: ts =>
    cases hd : decode bytes with
    | none => rw [step_host_refused ht hd] at h; cases h
    | some i =>
      rw [step_host ht hd] at h
      exact .inr (.inr (.inr ⟨bytes, ts, i, rfl, hd, h⟩))

end Sys2Proof.Machine
end

