-- ==== Sys2Proof/Tests/Slice0.lean ====
section
/-! SUPPORT. The tests of the model.  Expected values are those of 95_test_vectors.md (named by their ids) and
of the rules' own examples; a `witness_` theorem shows a state and operands that meet the hypotheses of the
statement it is named after, at the boundaries of their ranges. -/

namespace Sys2Proof.Tests

open Sys2Proof Sys2Proof.Machine

set_option Elab.async false

/-! ## Helpers -/

/-- The next state of a step that answers one. -/
def stateOf : Host.Outcome State Fault Refusal → State
  | .next t => t
  | .fault _ => State.reset
  | .refused _ => State.reset

/-- After reset, with the turns `ts` scheduled. -/
def idle (ts : List Turn) : State := { State.reset with turns := ts }

/-- `s` with command `op` pending and the ENGINE's turn next. -/
def pend (op : BitVec 4) (s : State) : State :=
  { s with pendingOp := op, status := { s.status with busy := true }, turns := [.engine] }

/-- `s` with SYMBOL.VERSION `v`, SYMBOL.LEVEL `l` and CW_COUNT `c`. -/
def sized (v : BitVec 6) (l : BitVec 2) (c : BitVec 12) (s : State) : State :=
  { s with symbol := { version := v, level := l, mask := 0#3 }, cwCount := c }

/-- `s` with IN_LEN `n` and CONFIG.LEVEL `l`. -/
def asking (n : BitVec 12) (l : BitVec 2) (s : State) : State :=
  { s with inLen := n, config := { level := l, qz := 4#4 } }

/-- `s` with V_PLACE and V_MASK. -/
def vouched (place mask : Bool) (s : State) : State :=
  { s with status := { s.status with vPlace := place, vMask := mask } }

/-- The registers at the offsets `os`. -/
def regs (s : State) (os : List Nat) : List Nat := os.map fun o => ((s.regWord o).getD 0#32).toNat

/-- Bytes `k` to `k + n - 1` of a buffer. -/
def bytes (s : State) (b : BufId) (k n : Nat) : List Nat := (s.bufBytes b k n).map BitVec.toNat

/-- The response: err, and the data. -/
def response (s : State) : Bool × Nat := (s.resp.err, s.resp.data.toNat)

/-- The MATRIX of the example symbol V-EX, 25 rows of 4 bytes, the rest of each row 0. -/
def exampleRows : List Nat :=
  [0xfe1cbf80, 0x8227a080, 0xbad22e80, 0xba872e80, 0xbae4ae80, 0x82932080, 0xfeaabf80, 0x00828000, 0xbe083e00]
    ++ [0x4cb45100, 0xfac79580, 0xdcb5b080, 0x721b6b80, 0xf8a09500, 0x83393d80, 0x9113f880, 0xa6f0fa00, 0x00cf8c00]
    ++ [0xfe06ab80, 0x82cc8d00, 0xbaebfa80, 0xba816f80, 0xbaf90680, 0x8212dc80, 0xfed07f80]

/-- The same as a matrix of modules. -/
def exampleMatrix : Matrix := exampleRows.map fun w => (List.range 25).map fun c => w.testBit (31 - c)

/-- After an ENCODE of the example symbol, as far as VECTOR and the raster window read it. -/
def exampleState : State :=
  { State.reset.writeMatrix .matrix exampleMatrix with
    mside := 25#8, status := { Status.reset with vPlace := true, vMask := true } }

/-- A symbol of one dark module. -/
def oneModule : State :=
  { State.reset.writeBuf .matrix 0 [0x80#8] with
    mside := 1#8, status := { Status.reset with vPlace := true, vMask := true } }

/-! ## WellFormed and decoding -/

/-- The check refuses write data above the lanes of the transfer (30_encoding.md R103). -/
theorem test_wf_refuses_wide_data :
    (Instr.w8 0x1000#32 0x100#32).wf = false ∧ (Instr.w16 0x1000#32 0x10000#32).wf = false := by decide

theorem test_wf_accepts_full_lanes :
    (Instr.w8 0x1000#32 0xFF#32).wf = true ∧ (Instr.w16 0x1000#32 0xFFFF#32).wf = true ∧
      (Instr.w32 0x1000#32 0xFFFFFFFF#32).wf = true ∧ Instr.pack.wf = true := by decide

/-- R101: each row of the command table, written out as the word's bytes, low byte first. -/
theorem test_decode_commands :
    ([[0x00#8, 0#8, 0#8, 0#8], [0x01#8, 0#8, 0#8, 0#8], [0x02#8, 0#8, 0#8, 0#8], [0x03#8, 0#8, 0#8, 0#8],
        [0x04#8, 0#8, 0#8, 0#8], [0x05#8, 0#8, 0#8, 0#8], [0x06#8, 0#8, 0#8, 0#8], [0x07#8, 0#8, 0#8, 0#8]].map decode =
      [some .nop, some .pack, some .ecc, some .place, some .mask, some .encode, some .vector, some .rs]) ∧
    ([[0x08#8, 0#8, 0#8, 0#8], [0x09#8, 0#8, 0#8, 0#8], [0x0A#8, 0#8, 0#8, 0#8], [0x0B#8, 0#8, 0#8, 0#8],
        [0x0C#8, 0#8, 0#8, 0#8], [0x0D#8, 0#8, 0#8, 0#8], [0x0E#8, 0#8, 0#8, 0#8], [0x0F#8, 0#8, 0#8, 0#8]].map decode =
      [some .reserved8, some .reserved9, some .reservedA, some .reservedB, some .reservedC, some .reservedD,
        some .reservedE, some .abort]) := by decide

/-- V-CM-2, V-CM-13: bits [31:4] are ignored. -/
theorem test_decode_ignored_bits :
    decode [0xF0#8, 0xFF#8, 0xFF#8, 0xFF#8] = some .nop ∧ decode [0x15#8, 0#8, 0#8, 0#8] = some .encode := by decide

/-- R103: the six descriptors; V-BU-1, V-BU-10, V-BU-11 give the transactions. -/
theorem test_decode_descriptors :
    decode [0x00#8, 0x03#8, 0x10#8, 0#8, 0#8, 0#8, 0#8, 0#8, 0#8] = some (.r8 0x1003#32) ∧
    decode [0x01#8, 0x02#8, 0x10#8, 0#8, 0#8, 0#8, 0#8, 0#8, 0#8] = some (.r16 0x1002#32) ∧
    decode [0x02#8, 0xFC#8, 0xFF#8, 0xFF#8, 0x07#8, 0#8, 0#8, 0#8, 0#8] = some (.r32 0x07FFFFFC#32) ∧
    decode [0x08#8, 0x00#8, 0x40#8, 0#8, 0#8, 0x01#8, 0#8, 0#8, 0#8] = some (.w8 0x4000#32 1#32) ∧
    decode [0x09#8, 0x02#8, 0x20#8, 0#8, 0#8, 0xAA#8, 0xBB#8, 0#8, 0#8] = some (.w16 0x2002#32 0xBBAA#32) ∧
    decode [0x0A#8, 0x00#8, 0x10#8, 0#8, 0#8, 0x68#8, 0x74#8, 0x74#8, 0x70#8] = some (.w32 0x1000#32 0x70747468#32) := by
  decide

/-- R103: SZ = 3 and DESC[2] = 1 are no transaction, and no other length is an instruction. -/
theorem test_decode_refuses :
    [[0x03#8, 0#8, 0#8, 0#8, 0#8, 0#8, 0#8, 0#8, 0#8], [0x0B#8, 0#8, 0#8, 0#8, 0#8, 0#8, 0#8, 0#8, 0#8],
      [0x04#8, 0#8, 0#8, 0#8, 0#8, 0#8, 0#8, 0#8, 0#8], [0x12#8, 0#8, 0#8, 0#8, 0#8, 0#8, 0#8, 0#8, 0#8],
      [0x02#8, 0#8], []].map decode = [none, none, none, none, none, none] := by decide

/-- The rows of spec/opcode_table.json: 32 bits for a command, 8 for a descriptor. -/
theorem test_table_words :
    decodeTableWord 32 5 = some .encode ∧ decodeTableWord 32 0xF = some .abort ∧
    decodeTableWord 8 0x00 = some (.r8 0#32) ∧ decodeTableWord 8 0x02 = some (.r32 0#32) ∧
    decodeTableWord 8 0x09 = some (.w16 0#32 0#32) ∧ decodeTableWord 8 0x0A = some (.w32 0#32 0#32) := by decide

/-- The very next step runs the fetched word. -/
theorem test_fetch_runs_the_word :
    step (State.reset.withFetchWord 32 0x9) = exec .reserved9 State.reset ∧
    step (State.reset.withFetchWord 8 0x2) = exec (.r32 0#32) State.reset := ⟨rfl, rfl⟩

/-! ## Commands on the HOST side -/

/-- V-CM-2: after a completed command a NOP with its ignored bits 1 leaves STATUS and LAST_OP. -/
theorem test_nop_leaves_done :
    regs (stateOf (exec (.w32 0x004#32 0xFFFFFFF0#32)
      { State.reset with lastOp := 5#4, status := { Status.reset with done := true } })) [0x008, 0x004] = [2, 5] := by decide

/-- R133: acceptance clears the outcome of the last command and takes the tag; R25: CMD reads back. -/
theorem test_pack_accepted :
    (fun t : State => (regs t [0x004, 0x008], t.pendingOp, t.pendingTag))
      (stateOf (exec .pack
        { State.reset with
          jobTag := 7#32
          status := { Status.reset with error := true, errcode := 4#4, errstage := 4#3, vPack := true, wrIgnored := true } }))
      = ([1, 0x00010001], 1#4, 7#32) := by decide

/-- V-CM-3 and R139: ILLEGAL_COMMAND at once, for each reserved opcode. -/
theorem test_reserved_illegal :
    [Instr.reserved8, .reserved9, .reservedA, .reservedB, .reservedC, .reservedD, .reservedE].map
      (fun i => regs (stateOf (exec i State.reset)) [0x004, 0x008, 0x010])
      = [[0x8, 0x304, 2], [0x9, 0x304, 2], [0xA, 0x304, 2], [0xB, 0x304, 2], [0xC, 0x304, 2], [0xD, 0x304, 2],
          [0xE, 0x304, 2]] := by decide

/-- V-CM-4: while BUSY a reserved opcode, and R134 a stage command, is dropped with WR_IGNORED. -/
theorem test_busy_drops_commands :
    [Instr.reserved8, .reserved9, .reservedA, .reservedB, .reservedC, .reservedD, .reservedE, .pack, .ecc, .place, .mask,
        .encode, .vector, .rs].map
      (fun i => regs (stateOf (exec i (pend 5#4 State.reset))) [0x004, 0x008, 0x010])
      = List.replicate 14 [0, 0x01000001, 0] := by decide

/-- V-CM-6, R135's example: ABORT of a pending ENCODE. -/
theorem test_abort_encode :
    regs (stateOf (exec .abort (pend 5#4 (vouched true true State.reset)))) [0x004, 0x008, 0x010, 0x020]
      = [0xF, 0x8, 0, 0] := by decide

/-- V-CM-5: ABORT while idle changes nothing; ABORTED keeps its value. -/
theorem test_abort_idle :
    exec .abort { State.reset with status := { Status.reset with aborted := true } }
      = .next { State.reset with status := { Status.reset with aborted := true } } := rfl

/-! ## The ENGINE's step of each command -/

/-- V-MS-4: PACK of "AZ" at L. -/
def packAz : State := asking 2#12 0#2 (State.reset.writeBuf .inbuf 0 [0x41#8, 0x5A#8])

theorem test_pack_az :
    (fun t : State => (regs t [0x008, 0x024, 0x028], bytes t .datacw 0 19)) (stateOf (step (pend 1#4 packAz)))
      = ([0x00010002, 0x001, 19],
          [0x40, 0x24, 0x15, 0xA0, 0xEC, 0x11, 0xEC, 0x11, 0xEC, 0x11, 0xEC, 0x11, 0xEC, 0x11, 0xEC, 0x11, 0xEC, 0x11,
            0xEC]) := by decide +kernel

/-- V-PK-3: PAYLOAD_TOO_LARGE at H from 1274 bytes up, nothing written. -/
theorem test_pack_too_large :
    regs (stateOf (step (pend 1#4 (asking 1274#12 3#2 State.reset)))) [0x008, 0x010, 0x024, 0x028]
      = [0x1104, 2, 0x100, 0] := by decide +kernel

/-- V-MS-4: the parity of "AZ" at 1-L, after its 19 data codewords. -/
theorem test_ecc_az :
    (fun t : State => (regs t [0x008, 0x028, 0x02C], bytes t .finalcw 17 9))
      (stateOf (step (pend 2#4 (sized 1#6 0#2 0#12
        (State.reset.writeBuf .datacw 0
          [0x40#8, 0x24#8, 0x15#8, 0xA0#8, 0xEC#8, 0x11#8, 0xEC#8, 0x11#8, 0xEC#8, 0x11#8, 0xEC#8, 0x11#8, 0xEC#8, 0x11#8,
            0xEC#8, 0x11#8, 0xEC#8, 0x11#8, 0xEC#8])))))
      = ([0x00020002, 19, 26], [0x11, 0xEC, 0x20, 0x3B, 0xC9, 0xCC, 0x3E, 0x51, 0xB1]) := by decide +kernel

/-- V-TB-3: the interleave and parity of 5-Q, DATACW[i] = i; V-CM-9 the error of version 0. -/
theorem test_ecc_interleaves :
    (fun t : State => (bytes t .finalcw 0 8, bytes t .finalcw 56 10, bytes t .finalcw 130 4))
      (stateOf (step (pend 2#4 (sized 5#6 2#2 0#12 (State.reset.writeBuf .datacw 0 ((List.range 62).map (BitVec.ofNat 8)))))))
      = ([0x00, 0x0F, 0x1E, 0x2E, 0x01, 0x10, 0x1F, 0x2F], [0x0E, 0x1D, 0x2C, 0x3C, 0x2D, 0x3D, 0x82, 0x55, 0x12, 0x44],
          [0x67, 0x9A, 0x8A, 0x13]) ∧
    regs (stateOf (step (pend 2#4 State.reset))) [0x008] = [0x2504] := by decide +kernel

/-- V-RS-1, V-RS-4: RS on the standard's block, and on one byte with two parity bytes. -/
theorem test_rs_vectors :
    bytes (stateOf (step (pend 7#4
      { State.reset.writeBuf .datacw 0
          [0x20#8, 0x5B#8, 0x0B#8, 0x78#8, 0xD1#8, 0x72#8, 0xDC#8, 0x4D#8, 0x43#8, 0x40#8, 0xEC#8, 0x11#8, 0xEC#8, 0x11#8,
            0xEC#8, 0x11#8] with rsParam := { k := 16#8, e := 10#8 } }))) .rsout 0 10
      = [0xC4, 0x23, 0x27, 0x77, 0xEB, 0xD7, 0xE7, 0xE2, 0x5D, 0x17] ∧
    bytes (stateOf (step (pend 7#4
      { State.reset.writeBuf .datacw 0 [0x01#8] with rsParam := { k := 1#8, e := 2#8 } }))) .rsout 0 2 = [0x03, 0x02] := by
  decide +kernel

/-- §2.3 parameter checks: K + E = 256 and K = 0 are refused, K + E = 255 is not. -/
theorem test_rs_parameters :
    regs (stateOf (step (pend 7#4 State.reset))) [0x008] = [0x6504] ∧
    regs (stateOf (step (pend 7#4 { State.reset with rsParam := { k := 200#8, e := 56#8 } }))) [0x008] = [0x6504] ∧
    regs (stateOf (step (pend 7#4 { State.reset with rsParam := { k := 1#8, e := 254#8 } }))) [0x008] = [0x2] := by
  decide +kernel

/-- V-TB-1: PLACE of version 1 marks 233 function modules; FINALCW decides none of them. -/
theorem test_place_function_modules :
    (fun t : State => (regs t [0x008, 0x030], (t.readMatrix .funcmap 21).dark))
      (stateOf (step (pend 3#4 (sized 1#6 0#2 26#12 State.reset)))) = ([0x00040002, 21], 233) := by decide +kernel

/-- R79, R341: PLACE leaves 0 in every byte of rows 0 and 20 past column 20, the padding bytes included, which reset
leaves free. -/
theorem test_place_clears_the_padding :
    (fun t : State => (bytes t .placed 3 21, bytes t .funcmap 483 21, bytes t .placed 4244 4))
      (stateOf (step (pend 3#4 (sized 1#6 0#2 26#12 State.reset))))
      = (List.replicate 21 0, List.replicate 21 0, List.replicate 4 0) := by decide +kernel

/-- V-AS-5: the version is checked first, then CW_COUNT. -/
theorem test_place_errors :
    regs (stateOf (step (pend 3#4 (sized 0#6 1#2 43#12 State.reset)))) [0x008] = [0x3504] ∧
    regs (stateOf (step (pend 3#4 (sized 41#6 1#2 0#12 State.reset)))) [0x008] = [0x3504] ∧
    regs (stateOf (step (pend 3#4 (sized 2#6 1#2 43#12 State.reset)))) [0x008] = [0x3204] := by decide +kernel

/-- V-CM-7, R314's example: MASK after reset. -/
theorem test_mask_stage_order :
    regs (stateOf (step (pend 4#4 State.reset))) [0x008, 0x010] = [0x4404, 2] := by decide +kernel

/-- V-MS-3: the penalty terms of the example symbol, candidate 2 of its eight. -/
theorem test_mask_penalty_terms :
    (fun m : Matrix => [penaltyN1 25 m, penaltyN2 m, penaltyN3 25 m, penaltyN4 25 m, penaltyOf 25 m])
      exampleMatrix = [247, 153, 40, 0, 440] := by decide +kernel

/-- V-MS-4: the first rows of candidate 3 of "AZ" at 1-L, from its 26 codewords. -/
theorem test_mask_candidate_az :
    (candidate 1 .L (functionMatrix 1)
      (placedMatrix 1
        [0x40#8, 0x24#8, 0x15#8, 0xA0#8, 0xEC#8, 0x11#8, 0xEC#8, 0x11#8, 0xEC#8, 0x11#8, 0xEC#8, 0x11#8, 0xEC#8, 0x11#8,
          0xEC#8, 0x11#8, 0xEC#8, 0x11#8, 0xEC#8, 0x20#8, 0x3B#8, 0xC9#8, 0xCC#8, 0x3E#8, 0x51#8, 0xB1#8]) 3).flatMap
      (fun row => (rowBytes row).take 3) =
      [0xfe#8, 0xcb#8, 0xf8#8, 0x82#8, 0x4a#8, 0x08#8, 0xba#8, 0xaa#8, 0xe8#8, 0xba#8, 0x92#8, 0xe8#8, 0xba#8, 0xe2#8, 0xe8#8]
      ++ [0x82#8, 0x02#8, 0x08#8, 0xfe#8, 0xab#8, 0xf8#8, 0x00#8, 0x60#8, 0x00#8, 0xf2#8, 0xa4#8, 0xe8#8, 0xf0#8, 0x49#8, 0x10#8]
      ++ [0xeb#8, 0x2f#8, 0xf8#8, 0x65#8, 0x2c#8, 0x00#8, 0x37#8, 0xd4#8, 0xa0#8, 0x00#8, 0x85#8, 0x28#8, 0xfe#8, 0x46#8, 0xa0#8]
      ++ [0x82#8, 0x7e#8, 0x48#8, 0xba#8, 0x72#8, 0x48#8, 0xba#8, 0xc4#8, 0x90#8, 0xba#8, 0xd4#8, 0xe0#8, 0x82#8, 0xba#8, 0xc8#8]
      ++ [0xfe#8, 0xf9#8, 0x40#8] := by decide +kernel

/-- R281, V-PK-3: ENCODE fails in PACK alone. -/
theorem test_encode_too_large :
    regs (stateOf (step (pend 5#4 (asking 2954#12 0#2 (vouched true true State.reset))))) [0x008, 0x024]
      = [0x1104, 0x100] := by decide +kernel

/-- V-VE-1: VECTOR of the example symbol. -/
theorem test_vector_example :
    (fun t : State => (regs t [0x008, 0x040, 0x044], [0, 3, 7, 100, 323].map fun j => (t.vecWord j).toNat))
      (stateOf (step (pend 6#4 exampleState)))
      = ([0x001C0002, 324, 33], [0x00040004, 0x00040007, 0x0004000F, 0x000C0004, 0x001C001C]) := by decide +kernel

/-- V-CM-8, V-VE-4: VECTOR without a finished symbol. -/
theorem test_vector_stage_order :
    regs (stateOf (step (pend 6#4 (vouched true false State.reset)))) [0x008, 0x040] = [0x00045404, 0] := by decide +kernel

/-! ## Tables and fields -/

/-- V-GF-3 and V-GF-1. -/
theorem test_gf_products :
    gfMul 0x02#8 0x80#8 = 0x1D#8 ∧ gfMul 0x03#8 0x07#8 = 0x09#8 ∧ gfMul 0x53#8 0xCA#8 = 0x8F#8 ∧
    gfMul 0xFF#8 0xFF#8 = 0xE2#8 ∧ gfExp 25 = 0x03#8 ∧ gfExp 254 = 0x8E#8 := by decide +kernel

/-- V-AS-1: ZigZag(1) begins and ends. -/
theorem test_zigzag_one :
    (zigzag 1).take 5 = [(20, 20), (20, 19), (19, 20), (19, 19), (18, 20)] ∧
    (zigzag 1).drop 204 = [(11, 1), (11, 0), (12, 1), (12, 0)] := by decide +kernel

/-- V-TB-1: N² − raw, T and the remainder. -/
theorem test_table_sizes :
    [1, 2, 6, 7, 14, 21, 40].map (fun v => (rawModules v, totalCw v, remainderBits v))
      = [(208, 26, 0), (359, 44, 7), (1383, 172, 7), (1568, 196, 0), (4651, 581, 3), (9252, 1156, 4), (29648, 3706, 0)] ∧
    dataCodewords 5 .Q = 62 ∧ dataCodewords 40 .H = 1276 ∧ dataCodewords 10 .L = 274 := by decide +kernel

/-- V-MS-2, V-MS-2b. -/
theorem test_format_and_version_words :
    formatWord .M 2 = 0x5E7C ∧ formatWord .L 3 = 0x789D ∧ formatWord .H 7 = 0x083B ∧
    versionWord 7 = 0x07C94 ∧ versionWord 40 = 0x28C69 := by decide +kernel

/-- V-MS-1: row 1 of each mask, columns 0..5. -/
theorem test_mask_formulas :
    (List.range 8).map (fun m => (List.range 6).map fun j => (maskFn m 1 j).toNat)
      = [[0, 1, 0, 1, 0, 1], [0, 0, 0, 0, 0, 0], [1, 0, 0, 1, 0, 0], [0, 0, 1, 0, 0, 1], [1, 1, 1, 0, 0, 0],
          [1, 0, 0, 0, 0, 0], [1, 1, 1, 0, 0, 0], [0, 0, 0, 1, 1, 1]] := by decide +kernel

/-- V-MS-5: runs of 5, 6 and 21; the row with both finder-like patterns. -/
theorem test_penalty_small_cases :
    [5, 6, 21, 4].map (fun n => lineRuns (List.replicate n true)) = [3, 4, 19, 0] ∧
    finderLike [false, false, false, false, true, false, true, true, true, false, true, false, false, false, false] = 2 ∧
    selectMask [384, 401, 412, 329, 470, 476, 418, 329] = 3 := by decide +kernel

/-! ## The bus -/

/-- V-BU-1, V-BU-3, V-BU-5, V-BU-6, V-BU-20. -/
theorem test_r32_registers_and_holes :
    [0x000#32, 0x002#32, 0x054#32, 0x5000#32, 0xBFFC#32].map (fun a => response (stateOf (exec (.r32 a) State.reset)))
      = [(false, 0x51524543), (true, 0), (true, 0), (true, 0), (false, 0)] := by decide +kernel

/-- V-EX, V-RA-1: words of MATRIX and of the raster window at S = 33. -/
theorem test_r32_symbol :
    [0xA000#32, 0xA240#32, 0x04000000#32, 0x04000220#32, 0x0400023C#32, 0x04000880#32, 0x04001100#32, 0x04001104#32].map
      (fun a => response (stateOf (exec (.r32 a) { exampleState with rasterSize := 33#13 })))
      = [(false, 0x80BF1CFE), (false, 0x807FD0FE), (false, 0x00FFFFFF), (false, 0), (false, 0x00FFFFFF), (false, 0),
          (false, 0x00FFFFFF), (false, 0)] := by decide +kernel

/-- V-BU-8, V-RA-2. -/
theorem test_r16 :
    response (stateOf (exec (.r16 0x1002#32) (State.reset.writeBuf .inbuf 0 [0x68#8, 0x74#8, 0x74#8, 0x70#8])))
      = (false, 0x7074) ∧
    response (stateOf (exec (.r16 0x04000002#32) { exampleState with colorLight := 0x123456#24 })) = (false, 0x0012) ∧
    response (stateOf (exec (.r16 0x1001#32) State.reset)) = (true, 0) := by decide +kernel

/-- V-BU-2, V-BU-9, V-RA-2. -/
theorem test_r8 :
    response (stateOf (exec (.r8 0x000#32) State.reset)) = (true, 0) ∧
    response (stateOf (exec (.r8 0x1003#32) (State.reset.writeBuf .inbuf 0 [0x68#8, 0x74#8, 0x74#8, 0x70#8])))
      = (false, 0x70) ∧
    response (stateOf (exec (.r8 0x04000013#32) exampleState)) = (false, 0) := by decide +kernel

/-- V-BU-11, and a byte stored in INBUF. -/
theorem test_w8 :
    response (stateOf (exec (.w8 0x4000#32 1#32) State.reset)) = (true, 0) ∧
    (stateOf (exec (.w8 0x1012#32 0x6D#32) State.reset)).inbuf.cells = [(0x12, 0x6D#8)] := by decide +kernel

/-- V-BU-10. -/
theorem test_w16 :
    (stateOf (exec (.w16 0x2002#32 0xBBAA#32) State.reset)).datacw.cells = [(2, 0xAA#8), (3, 0xBB#8)] := by decide +kernel

/-- V-BU-12, V-BU-13, V-BU-4, V-BU-18, V-RA-4, V-BU-17: fields, clamps, W1C and the stage-valid flags. -/
theorem test_w32_registers :
    regs (stateOf (exec (.w32 0x014#32 0xFFFFFFFF#32) State.reset)) [0x014] = [0xF3] ∧
    regs (stateOf (exec (.w32 0x014#32 0x12#32) State.reset)) [0x014] = [0x42] ∧
    response (stateOf (exec (.w32 0x008#32 0#32) State.reset)) = (true, 0) ∧
    regs (stateOf (exec (.w32 0x024#32 0x7102#32) (vouched true true State.reset))) [0x008, 0x024] = [0, 0x102] ∧
    [0#32, 0x1388#32, 0x2001#32].map (fun w => regs (stateOf (exec (.w32 0x048#32 w) State.reset)) [0x048])
      = [[1], [4096], [1]] ∧
    regs (stateOf (exec (.w32 0x010#32 1#32) { State.reset with irqPend := { doneP := true, errP := true } })) [0x010]
      = [2] := by decide +kernel

/-- V-BU-14, V-BU-15: while BUSY a write is dropped, and a bus error does not set WR_IGNORED. -/
theorem test_w32_busy :
    regs (stateOf (exec (.w32 0x018#32 19#32) (pend 1#4 State.reset))) [0x008, 0x018] = [0x01000001, 0] ∧
    regs (stateOf (exec (.w32 0x008#32 0#32) (pend 1#4 State.reset))) [0x008] = [1] := by decide +kernel

/-! ## Witnesses: a state and operands that meet the hypotheses of each statement -/

/-- The hypotheses of the stage-command statements: idle, with the ENGINE's turn next. -/
theorem witness_idle_engine : (idle [.engine]).status.busy = false ∧ (idle [.engine]).turns = .engine :: [] := ⟨rfl, rfl⟩

theorem witness_DecodeOfEncodeIsTheInstruction :
    (Instr.w8 0x1FFF#32 0xFF#32).wf = true ∧ (Instr.w16 0x2FFE#32 0xFFFF#32).wf = true ∧
      (Instr.r8 0xFFFFFFFF#32).wf = true ∧ Instr.abort.wf = true := by decide

theorem witness_EveryCommandWordDecodesByItsOpcode :
    (0xFFFFFFF8#32).toNat % 16 = 8 ∧ (0x0000000E#32).toNat % 16 = 14 ∧ State.reset.status.busy = false := by decide

theorem witness_BusDescriptorsDecode :
    (∀ d ∈ [0x03#8, 0x04#8, 0x07#8, 0x0B#8, 0xFF#8], d ∉ [0x00#8, 0x01#8, 0x02#8, 0x08#8, 0x09#8, 0x0A#8]) ∧
      (idle [.host (0x03#8 :: (bytesOfWord 0#32 ++ bytesOfWord 0#32))]).turns
        = .host (0x03#8 :: (bytesOfWord 0#32 ++ bytesOfWord 0#32)) :: [] := by decide

theorem witness_StepTakesTheNextTurn :
    (idle [.host [0x01#8, 0#8, 0#8, 0#8], .engine]).turns = .host [0x01#8, 0#8, 0#8, 0#8] :: [.engine] ∧
    decode [0x01#8, 0#8, 0#8, 0#8] = some .pack ∧ decode [0x01#8] = none ∧
    (idle [.engine]).turns = .engine :: [] ∧ (idle [.engine]).status.busy = false ∧
    State.reset.turns = [] ∧ { pend 1#4 State.reset with turns := [] }.status.busy = true := by decide

theorem witness_CommandIsTheWriteToCmd : (0xFFFFFFF5#32).toNat % 16 = (0x00000005#32).toNat % 16 := by decide

theorem witness_NopChangesNoState : (0xFFFFFFF0#32).toNat % 16 = 0 := by decide

/-- Idle and BUSY, for IdleCommandIsAccepted and CommandWriteWhileBusy. -/
theorem witness_IdleCommandIsAccepted :
    State.reset.status.busy = false ∧ (pend 1#4 State.reset).status.busy = true := ⟨rfl, rfl⟩

theorem witness_CommandWriteWhileBusy : (pend 7#4 State.reset).status.busy = true := rfl

/-- Every pending opcode, among them one that leaves each location free and one that keeps it. -/
theorem witness_AbortEndsThePendingCommand :
    State.reset.status.busy = false ∧
    ∀ op ∈ [1#4, 2#4, 3#4, 4#4, 5#4, 6#4, 7#4],
      (pend op State.reset).status.busy = true ∧ (pend op State.reset).pendingOp = op := by decide

theorem witness_EngineTurnEndsThePendingCommand :
    (pend 1#4 State.reset).turns = .engine :: [] ∧ (pend 1#4 State.reset).status.busy = true := ⟨rfl, rfl⟩

/-- MASK after reset ends in an error. -/
theorem witness_ErrorEndWritesNoOutput :
    (pend 4#4 State.reset).turns = .engine :: [] ∧ (pend 4#4 State.reset).status.busy = true ∧
    (pend 4#4 State.reset).status.error = false ∧
    ∃ u, step (pend 4#4 State.reset) = .next u ∧ u.status.error = true := ⟨rfl, rfl, rfl, _, rfl, rfl⟩

/-- Both sides of each clause: payloads 2953 and 2954, versions 0, 1, 40 and 41, CW_COUNT 26 and 25, the flags,
and RS parameters at their limits. -/
theorem witness_EngineErrsExactlyWhen :
    (∀ s ∈ [pend 1#4 (asking 2953#12 0#2 State.reset), pend 5#4 (asking 2954#12 0#2 State.reset),
        pend 2#4 (sized 0#6 0#2 0#12 State.reset), pend 2#4 (sized 1#6 0#2 0#12 State.reset),
        pend 2#4 (sized 40#6 0#2 0#12 State.reset), pend 2#4 (sized 41#6 0#2 0#12 State.reset),
        pend 3#4 (sized 41#6 0#2 26#12 State.reset), pend 3#4 (sized 1#6 0#2 26#12 State.reset),
        pend 3#4 (sized 1#6 0#2 25#12 State.reset)]
      ++ [pend 4#4 (vouched true false State.reset), pend 4#4 State.reset, pend 6#4 (vouched true true State.reset),
        pend 6#4 State.reset, pend 7#4 { State.reset with rsParam := { k := 254#8, e := 1#8 } },
        pend 7#4 { State.reset with rsParam := { k := 254#8, e := 2#8 } }],
      s.turns = .engine :: [] ∧ s.status.busy = true ∧ s.status.error = false) ∧
    ∀ s : State, s.turns = .engine :: [] → ∃ u, step s = .next u :=
  ⟨by decide, fun _ h => ⟨_, step_engine h⟩⟩

/-- Payloads of 0, of the capacity, and one more, at each level. -/
theorem witness_PackCommandWritesTheStream :
    ∀ nl ∈ [(0#12, 0#2), (2953#12, 0#2), (2331#12, 1#2), (1663#12, 2#2), (1273#12, 3#2), (2954#12, 0#2), (2332#12, 1#2),
        (1664#12, 2#2), (1274#12, 3#2), (4095#12, 0#2)],
      (asking nl.1 nl.2 (idle [.engine])).status.busy = false ∧
        (asking nl.1 nl.2 (idle [.engine])).turns = .engine :: [] :=
  fun _ _ => ⟨rfl, rfl⟩

/-- Versions 1 and 40, the last codeword of a block in both, and versions 0 and 41. -/
theorem witness_EccCommandInterleavesTheBlocks :
    (∀ v ∈ [0#6, 1#6, 40#6, 41#6], (sized v 2#2 0#12 (idle [.engine])).status.busy = false ∧
        (sized v 2#2 0#12 (idle [.engine])).turns = .engine :: []) ∧
    (blockCount 1 .L = 1 ∧ eccPerBlock 1 .L = 7 ∧ shortBlock 1 .L = 19) ∧
    (2 < blockCount 5 .Q ∧ 15 < shortBlock 5 .Q + 1) := by decide

/-- (K, E) at the limits of every condition, inside and outside. -/
theorem witness_RsCommandWritesTheParity :
    (∀ ke ∈ [(1, 1), (1, 254), (254, 1)], 1 ≤ ke.1 ∧ ke.1 ≤ 254 ∧ 1 ≤ ke.2 ∧ ke.1 + ke.2 ≤ 255) ∧
    (∀ ke ∈ [(0, 1), (1, 0), (1, 255), (254, 2), (255, 0)],
      ¬ (1 ≤ ke.1 ∧ ke.1 ≤ 254 ∧ 1 ≤ ke.2 ∧ ke.1 + ke.2 ≤ 255)) ∧
    { idle [.engine] with rsParam := { k := 1#8, e := 254#8 } }.turns = .engine :: [] := by decide

theorem witness_RsCodewordHasTheGeneratorRoots : 0 < 1 ∧ 253 < 254 := by decide

theorem witness_PowersOfAlphaMultiplyByAddingExponents : (0x01#8 : Byte) ≠ 0x00#8 ∧ (0xFF#8 : Byte) ≠ 0x00#8 := by decide

/-- Versions 1 and 40 with their T (26 and 3706, V-TB-1), a wrong count, and versions 0 and 41; stored bits outside
N×N, the last padding bit among them. -/
theorem witness_PlaceCommandAssemblesTheSymbol :
    (sized 1#6 0#2 26#12 (idle [.engine])).cwCount.toNat = totalCw 1 ∧
    (sized 40#6 0#2 3706#12 (idle [.engine])).cwCount.toNat = totalCw 40 ∧
    (sized 1#6 0#2 27#12 (idle [.engine])).cwCount.toNat ≠ totalCw 1 ∧
    (∀ rc ∈ [(0, 21), (21, 0), (176, 191)], rc.1 < 177 ∧ rc.2 < 192 ∧ ¬ (rc.1 < 21 ∧ rc.2 < 21)) ∧
    ¬ (1 ≤ (0#6).toNat ∧ (0#6).toNat ≤ 40) ∧ ¬ (1 ≤ (41#6).toNat ∧ (41#6).toNat ≤ 40) := by decide +kernel

/-- The first and the last module of ZigZag(1), a remainder module of version 2, and function modules of version 1. -/
theorem witness_PlaceCommandModules :
    (zigzag 1)[0]? = some (20, 20) ∧ (zigzag 1)[207]? = some (12, 0) ∧ (zigzag 2).drop 358 = [(16, 0)] ∧
    layout 1 0 0 = some true ∧ layout 1 20 8 = some false := by decide +kernel

/-- Version 6, whose version areas are data modules, and version 7, whose are not. -/
theorem witness_PlaceLaysTheFunctionPatterns :
    (sized 6#6 0#2 172#12 (idle [.engine])).cwCount.toNat = totalCw 6 ∧
    (sized 7#6 0#2 196#12 (idle [.engine])).cwCount.toNat = totalCw 7 ∧
    (∀ v c, (sized v 0#2 c (idle [.engine])).status.busy = false ∧
      (sized v 0#2 c (idle [.engine])).turns = .engine :: []) :=
  ⟨by decide +kernel, by decide +kernel, fun _ _ => ⟨rfl, rfl⟩⟩

/-- Version 2 has one pattern, at (18, 18); version 40 forty-six. -/
theorem witness_PlaceLaysTheAlignmentPatterns :
    18 ∈ alignCentres 2 ∧ (18, 18) ∉ [(6, 6), (6, 25 - 7), (25 - 7, 6)] ∧
    6 ∈ alignCentres 40 ∧ 30 ∈ alignCentres 40 ∧ (6, 30) ∉ [(6, 6), (6, 177 - 7), (177 - 7, 6)] ∧
    (sized 2#6 0#2 44#12 (idle [.engine])).cwCount.toNat = totalCw 2 := by decide +kernel

/-- V_PLACE 1 with version 1, and V_PLACE 0. -/
theorem witness_MaskCommandSelectsTheMinimum :
    (fun s : State => s.status.busy = false ∧ s.turns = .engine :: [] ∧ s.status.vPlace = true ∧
      1 ≤ s.symbol.version.toNat ∧ s.symbol.version.toNat ≤ 40)
      (sized 1#6 0#2 0#12 (vouched true false (idle [.engine]))) ∧
    (idle [.engine]).status.vPlace = false := by decide

/-- The least and the greatest mask; stored bits outside N×N; modules beside the format areas: the timing module (6, 8), the first data module, and in version 7 a module
beside a version area. -/
theorem witness_MaskInvertsDataModulesOnly :
    (0 < 8 ∧ 7 < 8) ∧ (∀ rc ∈ [(0, 177), (176, 177), (176, 191)], rc.1 < 177 ∧ rc.2 < 192 ∧ ¬ (rc.1 < 177 ∧ rc.2 < 177)) ∧
    ∀ vrc ∈ [(1, 6, 8), (1, 20, 20), (1, 8, 9), (7, 0, 33), (7, 6, 34), (6, 0, 30)],
      (fun v n r c => r < n ∧ c < n ∧ ¬ (c = 8 ∧ ((r ≤ 8 ∧ r ≠ 6) ∨ n - 8 ≤ r)) ∧
        ¬ (r = 8 ∧ ((c ≤ 8 ∧ c ≠ 6) ∨ n - 8 ≤ c)) ∧
        ¬ (7 ≤ v ∧ ((r ≤ 5 ∧ n - 11 ≤ c ∧ c ≤ n - 9) ∨ (c ≤ 5 ∧ n - 11 ≤ r ∧ r ≤ n - 9))))
        vrc.1 (4 * vrc.1 + 17) vrc.2.1 vrc.2.2 := by decide

theorem witness_MaskWritesTheFormatInformation :
    (fun s : State => s.status.busy = false ∧ s.turns = .engine :: [] ∧ s.status.vPlace = true ∧
      1 ≤ s.symbol.version.toNat ∧ s.symbol.version.toNat ≤ 40)
      (sized 40#6 3#2 0#12 (vouched true false (idle [.engine]))) := by decide

/-- Versions 6 and 7, on the two sides of the rule's bound. -/
theorem witness_MaskWritesTheVersionInformation :
    (fun s : State => s.status.busy = false ∧ s.turns = .engine :: [] ∧ s.status.vPlace = true ∧
      s.symbol.version.toNat = 6) (sized 6#6 3#2 0#12 (vouched true false (idle [.engine]))) ∧
    (fun s : State => s.status.busy = false ∧ s.turns = .engine :: [] ∧ s.status.vPlace = true ∧
      s.symbol.version.toNat = 7) (sized 7#6 3#2 0#12 (vouched true false (idle [.engine]))) := by decide

theorem witness_PenaltyTotalFitsItsRegister : 1 ≤ 1 ∧ 1 ≤ 177 ∧ 177 ≤ 177 := by decide

/-- A payload at the capacity of each level, and one more. -/
theorem witness_EncodeCommandFailsOnlyInPack :
    ∀ nl ∈ [(0#12, 0#2), (2953#12, 0#2), (2331#12, 1#2), (1663#12, 2#2), (1273#12, 3#2), (2954#12, 0#2), (1274#12, 3#2)],
      (asking nl.1 nl.2 (idle [.engine])).status.busy = false ∧
        (asking nl.1 nl.2 (idle [.engine])).turns = .engine :: [] :=
  fun _ _ => ⟨rfl, rfl⟩

theorem witness_EncodeEqualsTheFourStages :
    ∀ nl ∈ [(0#12, 0#2), (2953#12, 0#2), (2954#12, 0#2), (1274#12, 3#2)],
      (asking nl.1 nl.2 (idle [])).status.busy = false ∧ (asking nl.1 nl.2 (idle [])).turns = [] :=
  fun _ _ => ⟨rfl, rfl⟩

/-- The states after reset and after it was used differently, with the same one payload byte. -/
theorem witness_EncodeDependsOnlyOnPayloadAndLevel :
    (fun s s' : State => s.status.busy = false ∧ s'.status.busy = false ∧ s.turns = [] ∧ s'.turns = [] ∧
      s.inLen = s'.inLen ∧ s.config.level = s'.config.level ∧
      (∀ k, k < s.inLen.toNat → s.bufByte .inbuf k = s'.bufByte .inbuf k) ∧
      s.inLen.toNat ≤ [2953, 2331, 1663, 1273].getD s.config.level.toNat 0 ∧ s.jobTag ≠ s'.jobTag)
      (asking 1#12 3#2 (State.reset.writeBuf .inbuf 0 [0x41#8]))
      (asking 1#12 3#2 { State.reset.writeBuf .inbuf 0 [0x41#8, 0x42#8] with jobTag := 5#32, nextDraw := 9 }) := by
  refine ⟨rfl, rfl, rfl, rfl, rfl, rfl, fun k hk => ?_, by decide, by decide⟩
  have : k = 0 := by simpa [asking] using hk
  subst this; rfl

/-- A finished symbol of one dark module, which is record 0, and no finished symbol. -/
theorem witness_VectorCommandListsTheDarkModules :
    { oneModule with turns := [.engine] }.status.busy = false ∧ oneModule.status.vMask = true ∧
    (((List.range 1).flatMap fun r => (List.range 1).map fun c => (r, c)).filter
      fun m => oneModule.module .matrix m.1 m.2)[0]? = some (0, 0) ∧
    (idle [.engine]).status.vMask = false := by decide +kernel

/-- One module and a quiet zone of four: M = 9, k = 1, and k = 455, the largest; the first and the last pixel. -/
theorem witness_VectorAgreesWithRaster :
    ∀ kx ∈ [(1, 0), (1, 8), (455, 0), (455, 4094)],
      (fun (s : State) (k x : Nat) => s.status.busy = false ∧ s.turns = .engine :: [] ∧ s.status.vMask = true ∧ 1 ≤ k ∧
        s.rasterSize.toNat = k * (s.mside.toNat + 2 * s.config.qz.toNat) ∧
        x < k * (s.mside.toNat + 2 * s.config.qz.toNat))
        { oneModule with turns := [.engine], rasterSize := BitVec.ofNat 13 (kx.1 * 9) } kx.1 kx.2 := by decide +kernel

/-- The ends of the window; the last pixel of S = 256 and the first past it; a dark and a light module; the window
free and not free. -/
theorem witness_RasterWindowReadsThePixel :
    (0x04000000 ≤ (0x04000000#32).toNat ∧ (0x07FFFFFF#32).toNat < 0x08000000) ∧
    (65535 < 256 * 256 ∧ 256 * 256 ≤ 65536 ∧ 65535 % 256 * 9 / 256 = 8) ∧
    State.reset.status.vMask = false ∧ oneModule.status.vMask = true ∧ oneModule.module .matrix 0 0 = true ∧
    oneModule.gridDark 4 4 = true ∧ oneModule.gridDark 3 4 = false ∧
    (pend 3#4 State.reset).status.busy = true ∧ (pend 3#4 State.reset).pendingOp.toNat ∈ [3, 4, 5] ∧
    (pend 6#4 State.reset).pendingOp.toNat ∉ [3, 4, 5] := by decide +kernel

/-- An exact read draws nothing. -/
theorem witness_ReadsHaveNoSideEffect :
    Instr.r32 0x1000#32 ∈ [Instr.r8 0x1000#32, .r16 0x1000#32, .r32 0x1000#32] ∧
    (stateOf (exec (.r32 0x1000#32) State.reset)).nextDraw = State.reset.nextDraw ∧ State.reset.status.busy = false :=
  ⟨by decide, rfl, rfl⟩

/-- Transactions on both sides of the bounds: the last register and the first reserved offset, the last byte of the
register page, windows and holes. -/
theorem witness_BusErrorsExactlyWhen :
    (∀ x ∈ [(0x08C, 4, false), (0x050, 4, true), (0x1000, 1, true), (0x40FF, 1, false), (0x7FFFFFC, 4, false)],
      busError x.1 x.2.1 x.2.2 = false) ∧
    (∀ x ∈ [(0x090, 4, false), (0x054, 4, true), (0x08F, 1, false), (0xFFF, 1, true), (0x4100, 1, false),
        (0x4000, 1, true), (0x1001, 2, true), (0x8000000, 4, false), (0xFFFFFFFC, 4, false), (0x008, 4, true)],
      busError x.1 x.2.1 x.2.2 = true) := by decide +kernel

/-- The first and the last reserved offsets. -/
theorem witness_ReservedBitsAndOffsets :
    State.reset.status.busy = false ∧ (0x054 ≤ (0x054#32).toNat ∧ (0x05F#32).toNat < 0x060) ∧
    (0x090 ≤ (0x090#32).toNat ∧ (0xFFF#32).toNat < 0x1000) := by decide

/-- The last byte, half-word and word of windows; the last stored byte of a matrix and the ends of the hole past it. -/
theorem witness_BufferReadIsLittleEndian :
    State.reset.status.busy = false ∧
    (∀ bk ∈ [(BufId.inbuf, 4095), (.datacw, 4095), (.finalcw, 4095), (.rsout, 255), (.funcmap, 8191), (.placed, 8191),
        (.matrix, 8191), (.vecbuf, 131071)], bk.2 < bk.1.windowSize) ∧ 4094 % 2 = 0 ∧ 131068 % 4 = 0 ∧
    BufId.matrix ∈ [BufId.funcmap, .placed, .matrix] ∧ ¬ 4248 ≤ 4247 ∧ 4248 % 4 = 0 ∧ (4248 ≤ 8191 ∧ 8191 < 8192) ∧
    8188 % 4 = 0 ∧ (pend 4#4 State.reset).status.busy = true := by decide

/-- The last byte, half-word and word of a buffer. -/
theorem witness_BufferWriteStoresItsBytes :
    State.reset.status.busy = false ∧
    (∀ kn ∈ [(4095, 1), (4094, 2), (4092, 4)], kn.1 < 4096 ∧ kn.1 % kn.2 = 0) ∧
    ∀ b ∈ [BufId.inbuf, .datacw, .finalcw], b.hostWritable = true := by decide

/-- The first and the last word of the three buffers. -/
theorem witness_ReadReturnsTheLatestWrite :
    State.reset.status.busy = false ∧ (0x1000#32).toNat % 4 = 0 ∧ 0x1000 ≤ (0x1000#32).toNat ∧
    (0x3FFC#32).toNat % 4 = 0 ∧ (0x3FFC#32).toNat < 0x4000 := by decide

theorem witness_ConfigurationWritesStoreTheirFields : State.reset.status.busy = false := rfl

theorem witness_SymbolWriteClearsTheStageFlags : (vouched true true State.reset).status.busy = false := rfl

theorem witness_InterruptRegisterWrites : (0x00000003#32).toNat % 4 = 3 := by decide

/-- Writes of each kind while BUSY; and two steps that clear WR_IGNORED, reset and the acceptance of PACK. -/
theorem witness_WriteWhileBusyIsDropped :
    (pend 1#4 State.reset).status.busy = true ∧
    (∀ x ∈ [(0x014, 4), (0x1000, 1), (0x3FFE, 2), (0x004, 4), (0x00C, 4), (0x010, 4)], busError x.1 x.2 true = false) ∧
    (∃ t, step { State.reset with status := { Status.reset with wrIgnored := true }, turns := [.reset] } = .next t ∧
      t.status.wrIgnored = false) ∧
    ∃ t, step { State.reset with
        status := { Status.reset with wrIgnored := true }, turns := [.host [0x01#8, 0#8, 0#8, 0#8]] } = .next t ∧
      t.status.wrIgnored = false :=
  ⟨rfl, by decide +kernel, ⟨_, rfl, rfl⟩, ⟨_, rfl, rfl⟩⟩

/-- PACK pending: DATACW is free and INBUF exact; the last stored byte of a matrix and the first past it; the ends of the raster window. -/
theorem witness_ReadsAreExactOutsideTheWriteSet :
    (pend 1#4 State.reset).status.busy = true ∧ (pend 1#4 State.reset).pendingOp.toNat ∈ [1, 5] ∧
    (pend 1#4 State.reset).pendingOp.toNat ∉ [2, 5] ∧ 4247 < BufId.matrix.storedSize ∧
    BufId.matrix.storedSize ≤ 4248 ∧ 8191 < BufId.matrix.windowSize ∧ 131071 < BufId.vecbuf.storedSize ∧
    0x04000000 ≤ (0x04000000#32).toNat ∧ (0x07FFFFFC#32).toNat < 0x08000000 ∧ (0x07FFFFFC#32).toNat % 4 = 0 := by
  decide

theorem witness_HostStepsLeaveEngineOutputs :
    State.reset.status.busy = false ∧ ∃ t, exec (.w32 0x1000#32 1#32) State.reset = .next t := ⟨rfl, exec_next _ _⟩

/-- A write to IRQ_EN while BUSY, after which the command is still pending. -/
theorem witness_PendingCommandKeepsItsInputs :
    (pend 1#4 State.reset).status.busy = true ∧
    exec (.w32 0x00C#32 3#32) (pend 1#4 State.reset) = .next ((pend 1#4 State.reset).busWrite (0x00C#32).toNat 4 3#32) ∧
    ((pend 1#4 State.reset).busWrite (0x00C#32).toNat 4 3#32).status.busy = true := ⟨rfl, rfl, by decide +kernel⟩

theorem witness_OnlyAcceptanceSetsBusy :
    ∃ t, step (idle [.host [0x05#8, 0#8, 0#8, 0#8]]) = .next t ∧
      (idle [.host [0x05#8, 0#8, 0#8, 0#8]]).status.busy = false ∧ t.status.busy = true := ⟨_, rfl, rfl, rfl⟩

/-- A W1C write of 3 to IRQ_PEND clears both bits. -/
theorem witness_PendingBitsAreClearedOnlyByTheHost :
    (fun s : State => ∃ t, step s = .next t ∧ s.irqPend.doneP = true ∧ t.irqPend.doneP = false ∧
      s.irqPend.errP = true ∧ t.irqPend.errP = false)
      { State.reset with
        irqPend := { doneP := true, errP := true }
        turns := [.host [0x0A#8, 0x10#8, 0#8, 0#8, 0#8, 0x03#8, 0#8, 0#8, 0#8]] } := ⟨_, rfl, rfl, rfl, rfl, rfl⟩

/-- Reset while a command is pending. -/
theorem witness_ResetGivesEveryRegisterItsValue :
    { pend 5#4 State.reset with turns := [.reset, .engine] }.turns = .reset :: [.engine] := rfl

theorem witness_StepKeepsMemoryCanonical :
    MemoryInv (pend 4#4 (State.reset.writeBuf .matrix 4244 [0x12#8, 0x34#8, 0x56#8, 0x78#8])) ∧
    ∃ t, step (pend 4#4 (State.reset.writeBuf .matrix 4244 [0x12#8, 0x34#8, 0x56#8, 0x78#8])) = .next t := by
  refine ⟨⟨fun b => ?_, fun b => ?_, fun b => ?_⟩, _, rfl⟩ <;> cases b <;> decide

theorem witness_StepKeepsOutcomeFlagsExclusive :
    OutcomeInv (pend 4#4 State.reset) ∧ ∃ t, step (pend 4#4 State.reset) = .next t :=
  ⟨⟨by decide, by decide, by decide, by decide⟩, _, rfl⟩

/-- The least and the greatest legal values. -/
theorem witness_StepKeepsWarlFieldsLegal :
    LegalFieldsInv (idle [.engine]) ∧ LegalFieldsInv { idle [] with rasterSize := 1#13 } ∧
    LegalFieldsInv { idle [] with config := { level := 0#2, qz := 15#4 }, rasterSize := 4096#13 } ∧
    ∃ t, step (idle [.engine]) = .next t :=
  ⟨⟨by decide, by decide, by decide⟩, ⟨by decide, by decide, by decide⟩, ⟨by decide, by decide, by decide⟩, _, rfl⟩

/-- A placed and finished symbol of version 40. -/
def finished : State :=
  { sized 40#6 0#2 3706#12 (vouched true true (idle [.engine])) with
    mside := 177#8, formatBits := 0x77C4#15, versionBits := 0x28C69#18 }

theorem witness_StepKeepsStageFlagsTruthful : StageInv finished ∧ ∃ t, step finished = .next t :=
  ⟨⟨by decide, by decide, by decide, by decide⟩, _, rfl⟩

theorem witness_StepKeepsFinishedSymbolRecord : SymbolInv finished ∧ ∃ t, step finished = .next t :=
  ⟨⟨by decide +kernel, by decide +kernel, by decide⟩, _, rfl⟩

/-- FUNCMAP as PLACE of version 1 leaves it. -/
theorem witness_StepKeepsFunctionMapTheLayout :
    (fun s : State => FunctionMapInv s ∧ s.status.vPlace = true ∧ ∃ t, step s = .next t)
      (sized 1#6 0#2 26#12 (vouched true false (State.reset.writeMatrix .funcmap (functionMatrix 1)))) := by
  refine ⟨⟨fun _ => rfl, fun _ r c hr hc => ?_⟩, rfl, _, rfl⟩
  refine (module_congr (t := State.reset.writeMatrix .funcmap (functionMatrix 1)) rfl r c).trans ?_
  rw [module_writeMatrix _ rfl _ r c hr hc, functionMatrix, build_at]
  rfl

end Sys2Proof.Tests
end

section
/-! SUPPORT. The schedule of one step (00_scope.md R9, 40_host_bus.md R137): the obligation is the step's rules
under Sys2Proof/Laws/, one for each head of the schedule. -/

namespace Sys2Proof.Machine

/-- The empty schedule and the schedule of one ENGINE turn give the same step, idle or BUSY: the ENGINE's turn
runs on the state with its turn taken off, and that state is the one with nothing scheduled. -/
theorem step_noTurn_eq_step_engine {s : State} (h : s.turns = []) :
    step s = step { s with turns := [.engine] } := by
  have htaken : { s with turns := [] } = s := by rw [← h]
  rw [step_noTurn h, step_engine (s := { s with turns := [.engine] }) rfl, htaken]

/-- Settles O5: each clause is the step's rule for that head of the schedule. -/
theorem stepTakesTheNextTurn : Obligations.StepTakesTheNextTurn := by
  intro s ts
  refine ⟨fun bytes i hturn hdecode => step_host hturn hdecode,
    fun bytes hturn hdecode => step_host_refused hturn hdecode, fun hturn hidle => ?engineIdle,
    fun hturn hidle => ?noTurnIdle, fun hturn _ => step_noTurn_eq_step_engine hturn⟩
  case engineIdle => rw [step_engine hturn, engineTurn_idle (s := { s with turns := ts }) hidle]
  case noTurnIdle => rw [step_noTurn hturn, engineTurn_idle hidle]

end Sys2Proof.Machine
end

section
/-! SUPPORT. The case analysis of a step, packaged once for every invariant: a predicate that each operation of a
step keeps, under what is known when the step calls it, is kept by every step (00_scope.md R9). -/

namespace Sys2Proof.Machine

/-- Each operation of a step keeps `P`.  A field's premises are what the step has checked before it. -/
structure StepStable (P : State → Prop) : Prop where
  /-- The schedule, the response and the count of draws carry nothing of `P`. -/
  frame : ∀ s ts r d, s.nextDraw ≤ d → P s → P { s with turns := ts, resp := r, nextDraw := d }
  dropWrite : ∀ s, P s → P s.dropWrite
  abort : ∀ s, s.status.busy = true → P s → P s.abort
  accept : ∀ s op, s.status.busy = false → 1 ≤ op.toNat → op.toNat ≤ 14 → P s → P (s.accept op)
  writeReg : ∀ s o w, (s.status.busy = true → o = 0x00C ∨ o = 0x010) → P s → P (s.writeReg o w)
  /-- The bytes that a write to a window stores. -/
  writeBuf : ∀ s b k n w, s.status.busy = false → b.hostWritable = true → k + n ≤ b.windowSize → P s →
    P (s.writeBuf b k ((List.range n).map (wordByte w)))
  complete : ∀ s t, s.status.busy = true → commandBody s.pendingOp s = .ok t → P s → P t.complete
  errorEnd : ∀ s e, s.status.busy = true → commandBody s.pendingOp s = .error e → P s → P (s.errorEnd e)
  resetTurn : ∀ s, P s → P s.resetTurn

namespace StepStable

variable {P : State → Prop}

theorem engineTurn (h : StepStable P) {s : State} (hs : P s) : P s.engineTurn := by
  cases hb : s.status.busy
  · rwa [engineTurn_idle hb]
  · rw [engineTurn_busy hb]
    rcases engineComplete_cases s with ⟨t, hbody, ht⟩ | ⟨e, hbody, ht⟩ <;> rw [ht]
    · exact h.complete s t hb hbody hs
    · exact h.errorEnd s e hb hbody hs

theorem store (h : StepStable P) {s : State} {a n : Nat} (w : Word) (hlegal : busError a n true = false)
    (hbusy : s.status.busy = true → a = 0x00C ∨ a = 0x010) (hn : n = 1 ∨ n = 2 ∨ n = 4) (hs : P s) :
    P (s.store a n w) := by
  rcases legal_write hlegal hn with ⟨ha, -, -⟩ | ⟨b, k, hwritable, ha, -, hk⟩
  · rw [store_reg s ha]
    exact h.writeReg s a w hbusy hs
  · have hidle : s.status.busy = false := by
      by_contra hb
      have := hbusy (by simpa using hb)
      cases b <;> simp only [BufId.base] at ha <;> omega
    rw [ha, store_window s b (by omega)]
    exact h.writeBuf s b k n w hidle hwritable hk hs

theorem exec (h : StepStable P) {i : Instr} {s t : State} (ht : exec i s = .next t) (hs : P s) : P t := by
  have reply {u : State} (hu : P u) (r : Response) : P { u with resp := r } :=
    h.frame u u.turns r u.nextDraw (Nat.le_refl _) hu
  rcases host_cases ht with ⟨r, d, rfl, hd⟩ | ⟨r, -, rfl⟩ | ⟨r, hb, rfl⟩ | ⟨r, op, hb, h1, h14, rfl⟩
    | ⟨r, a, n, w, -, hlegal, hbusy, hn, rfl⟩
  · exact h.frame s s.turns r d hd hs
  · exact reply (h.dropWrite s hs) r
  · exact reply (h.abort s hb hs) r
  · exact reply (h.accept s op hb h1 h14 hs) r
  · exact reply (h.store w hlegal hbusy hn hs) r

/-- A predicate that every operation keeps is kept by every step. -/
theorem step (h : StepStable P) {s t : State} (ht : step s = .next t) (hs : P s) : P t := by
  have scheduled (ts : List Turn) : P { s with turns := ts } :=
    h.frame s ts s.resp s.nextDraw (Nat.le_refl _) hs
  rcases step_cases ht with ⟨-, rfl⟩ | ⟨ts, -, rfl⟩ | ⟨ts, -, rfl⟩ | ⟨bytes, ts, i, -, -, hexec⟩
  · exact h.engineTurn hs
  · exact h.engineTurn (scheduled ts)
  · exact h.resetTurn _ (scheduled ts)
  · exact h.exec hexec (scheduled ts)

end StepStable

end Sys2Proof.Machine
end

section
/-! SUPPORT. The fields of a register word: where a field or a flag stands in a word, what a mask keeps of it, and
the clamps as the spec writes them (10_state.md R23, R29, R42, R47). -/

namespace Sys2Proof.Machine

/-! ## The fields of a written word -/

theorem extractLsb'_eq_ofNat (w : Word) (lo n : Nat) :
    w.extractLsb' lo n = BitVec.ofNat n (w.toNat / 2 ^ lo % 2 ^ n) := by
  apply BitVec.eq_of_toNat_eq
  rw [BitVec.extractLsb'_toNat, BitVec.toNat_ofNat, Nat.mod_mod, Nat.shiftRight_eq_div_pow]

theorem bit_zero_eq (w : Word) : w[0] = decide (w.toNat % 2 = 1) := by
  rw [← BitVec.getLsbD_eq_getElem, ← BitVec.testBit_toNat, Nat.testBit_zero]

theorem bit_one_eq (w : Word) : w[1] = decide (w.toNat / 2 % 2 = 1) := by
  rw [← BitVec.getLsbD_eq_getElem, ← BitVec.testBit_toNat, Nat.testBit_succ, Nat.testBit_zero]

/-- A mask that covers a field keeps it. -/
theorem extractLsb'_and_mask {m : Word} {lo n : Nat} (w : Word) (h : m.extractLsb' lo n = BitVec.allOnes n) :
    (w &&& m).extractLsb' lo n = w.extractLsb' lo n := by
  rw [BitVec.extractLsb'_and, h, BitVec.and_allOnes]

theorem and_wholeWord (w : Word) : w &&& 0xFFFFFFFF#32 = w := BitVec.and_allOnes

theorem clampQz_eq (v : BitVec 4) : clampQz v = BitVec.ofNat 4 (max 4 v.toNat) := by
  unfold clampQz
  split
  · rw [Nat.max_eq_left (by omega)]
  · rw [Nat.max_eq_right (by omega), BitVec.ofNat_toNat, BitVec.setWidth_eq]

theorem clampRaster_eq (v : BitVec 13) : clampRaster v = BitVec.ofNat 13 (max 1 (min v.toNat 4096)) := by
  unfold clampRaster
  split
  · rw [Nat.max_eq_left (by omega)]
  · split
    · rw [Nat.min_eq_right (by omega)]; rfl
    · rw [Nat.min_eq_left (by omega), Nat.max_eq_right (by omega), BitVec.ofNat_toNat, BitVec.setWidth_eq]

/-! ## The bits of a read word -/

theorem getLsbD_flagBit (b : Bool) (i j : Nat) :
    (flagBit b i).getLsbD j = (b && decide (j = i) && decide (j < 32)) := by
  cases b
  · simp [flagBit]
  · by_cases h : j = i
    · subst h; simp [flagBit]
    · have : j < i ∨ j - i ≠ 0 := by omega
      rcases this with h' | h' <;> simp [flagBit, h, h', BitVec.getLsbD_one]

/-- Word `w` has 0 in every bit that mask `m` does not name. -/
def Within (w m : Word) : Prop := ∀ j, w.getLsbD j = true → m.getLsbD j = true

theorem within_iff (w m : Word) : Within w m ↔ w &&& ~~~m = 0#32 := by
  refine ⟨fun h => BitVec.eq_of_getLsbD_eq fun j hj => ?_, fun h j hj => ?_⟩
  · have hj' := h j
    cases hw : w.getLsbD j <;> simp_all
  · have hlt : j < 32 := BitVec.lt_of_getLsbD hj
    have hbit := congrArg (·.getLsbD j) h
    simpa [hj, hlt] using hbit

theorem within_allOnes (w : Word) : Within w 0xFFFFFFFF#32 := (within_iff _ _).2 (by
  rw [show ~~~(0xFFFFFFFF#32) = 0#32 from rfl, BitVec.and_zero])

theorem within_or {v w m : Word} : Within (v ||| w) m ↔ Within v m ∧ Within w m := by
  simp only [Within, BitVec.getLsbD_or, Bool.or_eq_true]
  exact ⟨fun h => ⟨fun j hj => h j (.inl hj), fun j hj => h j (.inr hj)⟩, fun h j hj => hj.elim (h.1 j) (h.2 j)⟩

/-- A field stays within a mask that names all its bits. -/
theorem within_field {n k : Nat} {m : Word} (x : BitVec n)
    (h : (BitVec.allOnes n).setWidth 32 <<< k &&& ~~~m = 0#32) : Within (x.setWidth 32 <<< k) m := by
  intro j hj
  refine (within_iff _ _).2 h j ?_
  simp only [BitVec.getLsbD_shiftLeft, BitVec.getLsbD_setWidth, BitVec.getLsbD_allOnes, Bool.and_eq_true] at hj ⊢
  obtain ⟨hpos, hlt, hx⟩ := hj
  exact ⟨hpos, hlt, decide_eq_true (BitVec.lt_of_getLsbD hx)⟩

theorem within_setWidth {n : Nat} {m : Word} (x : BitVec n) (h : (BitVec.allOnes n).setWidth 32 &&& ~~~m = 0#32) :
    Within (x.setWidth 32) m := by
  have hfield := within_field (k := 0) x (m := m) (by rwa [BitVec.shiftLeft_zero])
  rwa [BitVec.shiftLeft_zero] at hfield

theorem within_flagBit {i : Nat} {m : Word} (b : Bool) (h : 1#32 <<< i &&& ~~~m = 0#32) : Within (flagBit b i) m := by
  cases b
  · intro j hj; simp [flagBit] at hj
  · exact (within_iff _ _).2 h

end Sys2Proof.Machine
end

section
/-! SUPPORT. The invariants of the WARL fields (10_state.md R29, R42) and of the outcome flags (R24,
60_exceptions.md R310, R311): who writes them, and that every step keeps them. -/

namespace Sys2Proof.Machine

/-! ## The WARL fields -/

theorem four_le_clampQz (v : BitVec 4) : 4 ≤ (clampQz v).toNat := by
  have hlt := v.isLt
  rw [clampQz_eq, BitVec.toNat_ofNat]
  omega

theorem clampRaster_legal (v : BitVec 13) : 1 ≤ (clampRaster v).toNat ∧ (clampRaster v).toNat ≤ 4096 := by
  rw [clampRaster_eq, BitVec.toNat_ofNat]
  omega

theorem LegalFieldsInv.congr {s t : State} (h : LegalFieldsInv s) (hconfig : t.config = s.config)
    (hraster : t.rasterSize = s.rasterSize) : LegalFieldsInv t :=
  ⟨hconfig ▸ h.quietZone, hraster ▸ h.rasterMin, hraster ▸ h.rasterMax⟩

@[simp] theorem accept_config (s : State) (op : BitVec 4) : (s.accept op).config = s.config := by
  unfold State.accept; split <;> rfl

@[simp] theorem accept_rasterSize (s : State) (op : BitVec 4) : (s.accept op).rasterSize = s.rasterSize := by
  unfold State.accept; split <;> rfl

/-- A register write changes the WARL fields only through their clamps. -/
theorem LegalFieldsInv.writeReg {s : State} (h : LegalFieldsInv s) (o : Nat) (w : Word) :
    LegalFieldsInv (s.writeReg o w) := by
  unfold State.writeReg
  split
  -- CONFIG and RASTER_SIZE
  case h_3 => exact ⟨four_le_clampQz _, h.rasterMin, h.rasterMax⟩
  case h_9 => exact ⟨h.quietZone, (clampRaster_legal _).1, (clampRaster_legal _).2⟩
  all_goals exact h.congr rfl rfl

theorem legalFieldsInv_reset : LegalFieldsInv State.reset := ⟨by decide, by decide, by decide⟩

theorem legalFieldsInv_stable : StepStable LegalFieldsInv where
  frame _ _ _ _ _ h := h.congr rfl rfl
  dropWrite _ h := h.congr rfl rfl
  abort s _ h := h.congr (abort_config s) (abort_rasterSize s)
  accept s op _ _ _ h := h.congr (accept_config s op) (accept_rasterSize s op)
  writeReg _ o w _ h := h.writeReg o w
  writeBuf _ _ _ _ _ _ _ _ h := h.congr (writeBuf_config ..) (writeBuf_rasterSize ..)
  complete _ _ _ hbody h := h.congr (commandBody_frame hbody).config (commandBody_frame hbody).rasterSize
  errorEnd _ _ _ _ h := h.congr rfl rfl
  resetTurn _ _ := legalFieldsInv_reset.congr rfl rfl

/-- Settles O57: of all operations, only the register write touches a WARL field, and it clamps it. -/
theorem stepKeepsWarlFieldsLegal : Obligations.StepKeepsWarlFieldsLegal :=
  fun _ _ hs ht => legalFieldsInv_stable.step ht hs

/-! ## The outcome flags -/

/-- OutcomeInv reads no stage-valid flag and not WR_IGNORED. -/
theorem OutcomeInv.congr {s t : State} (h : OutcomeInv s) (hop : t.pendingOp = s.pendingOp)
    (hstatus : t.status =
      { s.status with
        vPack := t.status.vPack, vEcc := t.status.vEcc, vPlace := t.status.vPlace, vMask := t.status.vMask
        vVec := t.status.vVec, wrIgnored := t.status.wrIgnored }) : OutcomeInv t := by
  obtain ⟨hexclusive, hpending, hno, han⟩ := h
  constructor <;> rw [hstatus]
  · exact hexclusive
  · rw [hop]; exact hpending
  · exact hno
  · exact han

/-- While BUSY no outcome is shown. -/
theorem OutcomeInv.noOutcome {s : State} (h : OutcomeInv s) (hb : s.status.busy = true) :
    s.status.done = false ∧ s.status.error = false ∧ s.status.aborted = false := by
  have hexclusive := h.exclusive
  rw [hb] at hexclusive
  cases hd : s.status.done <;> cases he : s.status.error <;> cases ha : s.status.aborted <;>
    simp_all

/-- A legal error makes the record legal, whatever it was. -/
theorem outcomeInv_errorEnd (s : State) {e : CommandError} (h1 : 1 ≤ e.code.toNat) (h5 : e.code.toNat ≤ 5)
    (h6 : e.stage.toNat ≤ 6) : OutcomeInv (s.errorEnd e) where
  exclusive := by simp
  pending := by simp
  noError := by simp
  anError _ := ⟨h1, h5, h6⟩

/-- The error of a command has a code and a stage that exist. -/
theorem commandBody_error_legal {s : State} {op : BitVec 4} {e : CommandError} (h : commandBody op s = .error e) :
    1 ≤ e.code.toNat ∧ e.code.toNat ≤ 5 ∧ e.stage.toNat ≤ 6 := by
  have hmem := commandBody_error h
  simp only [List.mem_cons, Prod.mk.injEq, List.not_mem_nil, or_false] at hmem
  rcases hmem with hp | hp | hp | hp | hp | hp | hp | hp <;> obtain ⟨hcode, hstage⟩ := hp <;>
    rw [hcode, hstage] <;> decide

/-- Acceptance clears the last record; a stage command becomes pending, a reserved opcode is an error at once. -/
theorem outcomeInv_accept (s : State) {op : BitVec 4} (h1 : 1 ≤ op.toNat) :
    OutcomeInv (s.accept op) := by
  by_cases hstage : op.toNat < 8
  · rw [accept_stage s hstage]
    exact ⟨by simp, fun _ => ⟨h1, by simp only; omega⟩, by simp, by simp⟩
  · rw [accept_reserved s (by omega)]
    exact outcomeInv_errorEnd _ (by decide) (by decide) (by decide)

theorem outcomeInv_abort {s : State} (hb : s.status.busy = true) : OutcomeInv s.abort := by
  rw [abort_busy hb]
  exact ⟨by simp, by simp, by simp, by simp⟩

theorem OutcomeInv.writeReg {s : State} (h : OutcomeInv s) (o : Nat) (w : Word) : OutcomeInv (s.writeReg o w) := by
  refine h.congr (writeReg_pendingOp s o w) ?_
  rcases writeReg_status s o w with hst | ⟨-, hst⟩ <;> rw [hst]
  rfl

/-- Completion turns BUSY into DONE, over an outcome that BUSY says is none. -/
theorem OutcomeInv.complete {s t : State} (h : OutcomeInv s) (hb : s.status.busy = true) (k : BodyFrame s t) :
    OutcomeInv t.complete := by
  obtain ⟨-, herror, haborted⟩ := h.noOutcome hb
  have hstatus := complete_status t
  rw [k.status] at hstatus
  constructor <;> rw [hstatus]
  · simp [herror, haborted]
  · simp
  · exact h.noError
  · exact h.anError

theorem outcomeInv_reset : OutcomeInv State.reset := ⟨by decide, by decide, by decide, by decide⟩

theorem outcomeInv_stable : StepStable OutcomeInv where
  frame _ _ _ _ _ h := h.congr rfl rfl
  dropWrite _ h := h.congr rfl rfl
  abort _ hb _ := outcomeInv_abort hb
  accept s _ _ h1 _ _ := outcomeInv_accept s h1
  writeReg _ o w _ h := h.writeReg o w
  writeBuf _ _ _ _ _ _ _ _ h := h.congr (writeBuf_pendingOp ..) (by rw [writeBuf_status])
  complete _ _ hb hbody h := h.complete hb (commandBody_frame hbody)
  errorEnd s _ _ hbody _ :=
    let ⟨h1, h5, h6⟩ := commandBody_error_legal hbody
    outcomeInv_errorEnd s h1 h5 h6
  resetTurn _ _ := outcomeInv_reset.congr rfl rfl

/-- Settles O56: acceptance, ABORT, completion and the error end each write the whole outcome record, and no other
operation writes any of it. -/
theorem stepKeepsOutcomeFlagsExclusive : Obligations.StepKeepsOutcomeFlagsExclusive :=
  fun _ _ hs ht => outcomeInv_stable.step ht hs

end Sys2Proof.Machine
end

section
/-! SUPPORT. The invariant of the stage-valid flags (10_state.md R57, 44_mask.md R258, 45_encode_render.md R290):
which operation revokes a flag, which command sets one, and that every step keeps what they vouch for. -/

namespace Sys2Proof.Machine

/-! ## Revoking a flag -/

theorem StageInv.congr {s t : State} (h : StageInv s) (hplace : t.status.vPlace = s.status.vPlace)
    (hmask : t.status.vMask = s.status.vMask) (hvec : t.status.vVec = s.status.vVec)
    (hversion : t.symbol.version = s.symbol.version) (hmside : t.mside = s.mside) : StageInv t := by
  obtain ⟨h1, h2, h3, h4⟩ := h
  constructor <;> simp only [hplace, hmask, hvec, hversion, hmside] <;> assumption

/-- With the three flags 0 there is nothing to vouch for. -/
theorem stageInv_of_noFlag {s : State} (hplace : s.status.vPlace = false) (hmask : s.status.vMask = false)
    (hvec : s.status.vVec = false) : StageInv s := by
  constructor <;> simp [hplace, hmask, hvec]

theorem errorRow_vPlace (stage : BitVec 3) (st : Status) :
    (st.errorRow stage).vPlace = (st.vPlace && !decide (stage.toNat ∈ [1, 2, 3])) := by
  unfold Status.errorRow; split <;> simp_all

theorem errorRow_vMask (stage : BitVec 3) (st : Status) :
    (st.errorRow stage).vMask = (st.vMask && !decide (stage.toNat ∈ [1, 2, 3, 4])) := by
  unfold Status.errorRow; split <;> simp_all

theorem errorRow_vVec (stage : BitVec 3) (st : Status) :
    (st.errorRow stage).vVec = (st.vVec && !decide (stage.toNat ∈ [1, 2, 3, 4, 5])) := by
  unfold Status.errorRow; split <;> simp_all

/-- An error row revokes a flag together with every flag that rests on it; where it leaves V_PLACE, version and
side are to be as they were. -/
theorem StageInv.errorRow {s t : State} (h : StageInv s) (stage : BitVec 3)
    (hplace : t.status.vPlace = (s.status.errorRow stage).vPlace)
    (hmask : t.status.vMask = (s.status.errorRow stage).vMask)
    (hvec : t.status.vVec = (s.status.errorRow stage).vVec)
    (hkept : stage.toNat ∉ [1, 2, 3] → t.symbol.version = s.symbol.version ∧ t.mside = s.mside) : StageInv t := by
  rw [errorRow_vPlace] at hplace
  rw [errorRow_vMask] at hmask
  rw [errorRow_vVec] at hvec
  by_cases hrow : stage.toNat ∈ [1, 2, 3]
  · have hrow4 : stage.toNat ∈ [1, 2, 3, 4] := List.mem_append_left [4] hrow
    have hrow5 : stage.toNat ∈ [1, 2, 3, 4, 5] := List.mem_append_left [5] hrow4
    exact stageInv_of_noFlag (by rw [hplace, decide_eq_true hrow, Bool.not_true, Bool.and_false])
      (by rw [hmask, decide_eq_true hrow4, Bool.not_true, Bool.and_false])
      (by rw [hvec, decide_eq_true hrow5, Bool.not_true, Bool.and_false])
  · obtain ⟨hversion, hmside⟩ := hkept hrow
    rw [decide_eq_false hrow, Bool.not_false, Bool.and_true] at hplace
    refine ⟨?_, ?_, ?_, ?_⟩
    · rw [hplace, hversion]; exact h.version
    · rw [hplace, hversion, hmside]; exact h.mside
    · rw [hplace, hmask, Bool.and_eq_true]; exact fun hm => h.maskPlaced hm.1
    · rw [hmask, hvec]
      simp only [Bool.and_eq_true, Bool.not_eq_true', decide_eq_false_iff_not]
      exact fun hv => ⟨h.vecMasked hv.1, fun hm => hv.2 (List.mem_append_left [5] hm)⟩

theorem StageInv.errorEnd {s : State} (h : StageInv s) (e : CommandError) : StageInv (s.errorEnd e) :=
  h.errorRow e.stage rfl rfl rfl fun _ => ⟨rfl, rfl⟩

/-- Acceptance leaves the flags; the row of a reserved opcode is that of stage 0, which revokes none. -/
theorem StageInv.accept {s : State} (h : StageInv s) (op : BitVec 4) : StageInv (s.accept op) := by
  have hrecord : StageInv (s.acceptOutcome op) := h.congr rfl rfl rfl rfl rfl
  by_cases hstage : op.toNat < 8
  · rw [accept_stage s hstage]
    exact hrecord.congr rfl rfl rfl rfl rfl
  · rw [accept_reserved s (by omega)]
    exact hrecord.errorEnd _

/-- A register write that stores a version revokes every flag; any other leaves version, side and flags. -/
theorem StageInv.writeReg {s : State} (h : StageInv s) (o : Nat) (w : Word) : StageInv (s.writeReg o w) := by
  unfold State.writeReg
  split
  -- SYMBOL
  case h_6 => exact stageInv_of_noFlag rfl rfl rfl
  all_goals exact h.congr rfl rfl rfl rfl rfl

/-! ## ABORT -/

theorem forget_version (d : Nat) (s : State) {l : Loc} (h : l ≠ .symbolVersion) :
    (s.forget d l).symbol.version = s.symbol.version := by
  cases l with
  | buf b => rw [State.forget, setBuf_symbol]
  | symbolVersion => exact absurd rfl h
  | _ => rfl

theorem forget_mside (d : Nat) (s : State) {l : Loc} (h : l ≠ .mside) : (s.forget d l).mside = s.mside := by
  cases l with
  | buf b => rw [State.forget, setBuf_mside]
  | mside => exact absurd rfl h
  | _ => rfl

theorem foldl_forget_version (d : Nat) (ls : List Loc) (s : State) (h : Loc.symbolVersion ∉ ls) :
    (ls.foldl (State.forget d) s).symbol.version = s.symbol.version := by
  induction ls generalizing s with
  | nil => rfl
  | cons l ls ih =>
    rw [List.mem_cons, not_or] at h
    rw [List.foldl_cons, ih _ h.2, forget_version d s (Ne.symm h.1)]

theorem foldl_forget_mside (d : Nat) (ls : List Loc) (s : State) (h : Loc.mside ∉ ls) :
    (ls.foldl (State.forget d) s).mside = s.mside := by
  induction ls generalizing s with
  | nil => rfl
  | cons l ls ih =>
    rw [List.mem_cons, not_or] at h
    rw [List.foldl_cons, ih _ h.2, forget_mside d s (Ne.symm h.1)]

/-- A command that may have written the version or the side has an error row that revokes V_PLACE. -/
theorem writeSet_revokes_place : ∀ op : BitVec 4, (stageOfCommand op).toNat ∉ [1, 2, 3] →
    Loc.symbolVersion ∉ writeSet op ∧ Loc.mside ∉ writeSet op := by decide

theorem StageInv.abort {s : State} (h : StageInv s) (hb : s.status.busy = true) : StageInv s.abort := by
  rw [abort_busy hb]
  refine h.errorRow (stageOfCommand s.pendingOp) rfl rfl rfl fun hrow => ?_
  obtain ⟨hversion, hmside⟩ := writeSet_revokes_place s.pendingOp hrow
  exact ⟨foldl_forget_version _ _ s hversion, foldl_forget_mside _ _ s hmside⟩

/-! ## Completion -/

theorem packBody_stageInv {s t : State} (h : packBody s = .ok t) : StageInv t := by
  rcases packBody_cases s with ⟨he, -⟩ | ⟨v, t', -, hn, hv⟩
  · rw [he] at h; cases h
  · rw [packBody_ok hn hv] at h; cases h
    exact stageInv_of_noFlag rfl rfl rfl

theorem eccBody_stageInv {s t : State} (h : eccBody s = .ok t) : StageInv t := by
  cases hv : isVersion s.symbol.version.toNat
  · rw [eccBody_error hv] at h; cases h
  · rw [eccBody_ok hv] at h; cases h
    exact stageInv_of_noFlag rfl rfl rfl

/-- PLACE puts the side of a legal version in MSIDE, whose eight bits hold 177. -/
theorem placeBody_stageInv {s t : State} (h : placeBody s = .ok t) : StageInv t := by
  cases hv : isVersion s.symbol.version.toNat
  · rw [placeBody_badParam hv] at h; cases h
  by_cases hc : s.cwCount.toNat = totalCw s.symbol.version.toNat
  · rw [placeBody_ok hv hc] at h; cases h
    obtain ⟨h1, h40⟩ := (isVersion_iff _).1 hv
    constructor <;> simp only [Status.placeCompletes, writeMatrix_symbol, forall_const, Bool.false_eq_true,
      false_implies]
    · exact ⟨h1, h40⟩
    · rw [BitVec.toNat_ofNat, side, Nat.mod_eq_of_lt (by omega)]
  · rw [placeBody_overflow hv hc] at h; cases h

/-- MASK needs V_PLACE and keeps what it vouches for. -/
theorem StageInv.maskBody {s t : State} (hs : StageInv s) (h : maskBody s = .ok t) : StageInv t := by
  cases hv : s.status.vPlace
  · rw [maskBody_error hv] at h; cases h
  · simp only [Machine.maskBody, hv, if_true] at h; cases h
    constructor <;> simp only [Status.maskCompletes, writeMatrix_mside, forall_const, Bool.false_eq_true,
      false_implies]
    · exact hs.version
    · exact hs.mside
    · exact hv

theorem encodeBody_stageInv {s t : State} (h : encodeBody s = .ok t) : StageInv t := by
  unfold encodeBody at h
  split at h
  · cases h
  · split at h
    · cases h
    · split at h
      · cases h
      · rename_i hplace
        exact (placeBody_stageInv hplace).maskBody h

/-- VECTOR needs V_MASK and keeps what the other flags vouch for. -/
theorem StageInv.vectorBody {s t : State} (hs : StageInv s) (h : vectorBody s = .ok t) : StageInv t := by
  cases hv : s.status.vMask
  · rw [vectorBody_error hv] at h; cases h
  · rw [vectorBody_ok hv] at h; cases h
    exact ⟨hs.version, hs.mside, hs.maskPlaced, fun _ => hv⟩

theorem StageInv.rsBody {s t : State} (hs : StageInv s) (h : rsBody s = .ok t) : StageInv t := by
  cases hv : rsParamOk s.rsParam.k.toNat s.rsParam.e.toNat
  · rw [rsBody_error hv] at h; cases h
  · rw [rsBody_ok hv] at h; cases h
    exact hs.congr rfl rfl rfl rfl rfl

theorem StageInv.commandBody {s t : State} {op : BitVec 4} (hs : StageInv s) (h : commandBody op s = .ok t) :
    StageInv t := by
  unfold Machine.commandBody at h
  split at h
  · exact packBody_stageInv h
  · exact eccBody_stageInv h
  · exact placeBody_stageInv h
  · exact hs.maskBody h
  · exact encodeBody_stageInv h
  · exact hs.vectorBody h
  · exact hs.rsBody h
  · cases h

theorem stageInv_stable : StepStable StageInv where
  frame _ _ _ _ _ h := h.congr rfl rfl rfl rfl rfl
  dropWrite _ h := h.congr rfl rfl rfl rfl rfl
  abort _ hb h := h.abort hb
  accept _ op _ _ _ h := h.accept op
  writeReg _ o w _ h := h.writeReg o w
  writeBuf _ _ _ _ _ _ _ _ h := by
    refine h.congr ?_ ?_ ?_ ?_ (writeBuf_mside ..) <;> simp only [writeBuf_status, writeBuf_symbol]
  complete _ _ _ hbody h := (h.commandBody hbody).congr rfl rfl rfl rfl rfl
  errorEnd _ e _ _ h := h.errorEnd e
  resetTurn _ _ := stageInv_of_noFlag rfl rfl rfl

/-- Settles O58: PLACE sets V_PLACE with its version and side, MASK and VECTOR each need the flag below theirs, and
whatever writes the version or the side (a SYMBOL write, PACK, an ABORT) revokes the flags that rest on it. -/
theorem stepKeepsStageFlagsTruthful : Obligations.StepKeepsStageFlagsTruthful :=
  fun _ _ hs ht => stageInv_stable.step ht hs

end Sys2Proof.Machine
end

section
/-! SUPPORT. The register page as the host reaches it with R32 and W32: one lemma for a read, one for a write, and
the obligations on what the registers show and store (10_state.md R24-R47, R57; 60_exceptions.md R318, R319). -/

namespace Sys2Proof.Machine

/-! ## Transactions on a register -/

theorem busError_register {o : Nat} (h : o < 0x1000) (hal : o % 4 = 0) (we : Bool) :
    busError o 4 we = !(if we then isWritableRegister o else isRegister o) := by
  simp [busError, hal, placeOf_reg h]

theorem isRegister_iff (o : Nat) :
    isRegister o = true ↔ o % 4 = 0 ∧ (o ≤ 0x050 ∨ (0x060 ≤ o ∧ o ≤ 0x08C)) := by
  simp [isRegister]

/-- The writable registers are registers (10_state.md R23). -/
theorem isRegister_of_isWritableRegister {o : Nat} (h : isWritableRegister o = true) : isRegister o = true := by
  simp only [isWritableRegister, List.contains_iff_mem] at h
  revert o
  decide

/-- A read of a register that is not volatile now shows its word (40_host_bus.md R130). -/
theorem exec_r32_register {s : State} {o w : Word} (hreg : isRegister o.toNat = true)
    (hexact : s.volatilePlace (.reg o.toNat) = false) (hw : s.regWord o.toNat = some w) :
    exec (.r32 o) s = .next (s.respond w) := by
  obtain ⟨hal, hrange⟩ := (isRegister_iff _).1 hreg
  have hpage : o.toNat < 0x1000 := by omega
  have herr : busError o.toNat 4 false = false := by
    rw [busError_register hpage hal]; simp [hreg]
  simp only [exec, execR32, State.busRead, herr, placeOf_reg hpage, hexact, State.readData, hw,
    Option.getD_some, Bool.false_eq_true, if_false]

/-- A write to a register other than CMD, performed while idle, or to IRQ_EN or IRQ_PEND at any time
(40_host_bus.md R131, 70_reset_and_hazards.md R351). -/
theorem exec_w32_register {s : State} {o : Word} (w : Word) (hreg : isWritableRegister o.toNat = true)
    (hcmd : o.toNat ≠ 0x004) (hbusy : s.status.busy = true → o.toNat = 0x00C ∨ o.toNat = 0x010) :
    exec (.w32 o w) s = .next ((s.writeReg o.toNat w).respond 0#32) := by
  obtain ⟨hal, hrange⟩ := (isRegister_iff _).1 (isRegister_of_isWritableRegister hreg)
  have hpage : o.toNat < 0x1000 := by omega
  have herr : busError o.toNat 4 true = false := by
    rw [busError_register hpage hal]; simp [hreg]
  have hexec : exec (.w32 o w) s = .next (s.busWrite o.toNat 4 w) := rfl
  rw [hexec]
  rcases busWrite_cases s o.toNat 4 w with ⟨h, -⟩ | ⟨-, h, -⟩ | ⟨-, -, h1, h2, hb, -⟩ | ⟨-, -, -, h⟩
  · rw [herr] at h; cases h
  · exact absurd h hcmd
  · rcases hbusy hb with h | h
    · exact absurd h h1
    · exact absurd h h2
  · rw [h, store_reg s hpage]

/-! ## What the writes store (10_state.md R27-R44) -/

/-- Settles O44: each write is the register's own store, whose fields are the slices of the data that R29-R44 name. -/
theorem configurationWritesStoreTheirFields : Obligations.ConfigurationWritesStoreTheirFields := by
  intro s w hidle
  have hbusy {o : Nat} : s.status.busy = true → o = 0x00C ∨ o = 0x010 := by simp [hidle]
  refine ⟨?_, ?_, ?_, ?_, ?_, ?_, ?_, ?_⟩ <;>
    rw [exec_w32_register w (by decide) (by decide) hbusy] <;>
    simp [State.writeReg, State.respond, extractLsb'_eq_ofNat, clampQz_eq, clampRaster_eq]

/-- Settles O45: the write to SYMBOL takes VERSION and LEVEL from the data and MASK from the state. -/
theorem symbolWriteClearsTheStageFlags : Obligations.SymbolWriteClearsTheStageFlags := by
  intro s w hidle
  rw [exec_w32_register w (by decide) (by decide) (by simp [hidle])]
  simp [State.writeReg, State.respond, extractLsb'_eq_ofNat, State.withStages, Status.symbolWritten]

/-! ## The interrupt registers (10_state.md R27, R28, 60_exceptions.md R318, R319) -/

theorem irq_iff (s : State) : s.irq = true ↔
    (s.irqPend.doneP = true ∧ s.irqEn.doneIE = true) ∨ (s.irqPend.errP = true ∧ s.irqEn.errIE = true) := by
  simp [State.irq]

theorem clear_eq (p : IrqPending) (w : Word) :
    p.clear w =
      { doneP := p.doneP && decide (w.toNat % 2 = 0), errP := p.errP && decide (w.toNat / 2 % 2 = 0) } := by
  have bit (n : Nat) : (!decide (n % 2 = 1)) = decide (n % 2 = 0) := by
    rcases Nat.mod_two_eq_zero_or_one n with h | h <;> simp [h]
  simp [IrqPending.clear, bit_zero_eq, bit_one_eq, bit]

/-- Settles O46: neither write is dropped while BUSY, and irq is read off the state that each leaves. -/
theorem interruptRegisterWrites : Obligations.InterruptRegisterWrites := by
  intro s w
  refine ⟨irq_iff s, _, _, exec_w32_register w (by decide) (by decide) (fun _ => .inl rfl),
    exec_w32_register w (by decide) (by decide) (fun _ => .inr rfl), ?enable, ?pending, ?level, ?low⟩
  case enable => simp [State.writeReg, State.respond, bit_zero_eq, bit_one_eq]
  case pending => simp [State.writeReg, State.respond, State.clearPending, clear_eq]
  case level => simp [irq_iff, State.writeReg, bit_zero_eq, bit_one_eq]
  case low =>
    intro hboth
    have h0 : w.toNat % 2 ≠ 0 := by omega
    have h1 : w.toNat / 2 % 2 ≠ 0 := by omega
    simp [State.irq, State.writeReg, clear_eq, h0, h1]

/-! ## STATUS (10_state.md R24) -/

/-- No command writes STATUS before its end, so that STATUS is never volatile (40_host_bus.md R136). -/
theorem status_not_volatile (s : State) : s.volatilePlace (.reg 0x008) = false := by
  have never : ∀ op : BitVec 4, volatileFor op (.reg 0x008) = false := by decide
  rw [State.volatilePlace, never, Bool.and_false]

/-- The bits of STATUS from bit 0 up, as the table of R24 lists them. -/
def Status.bits (st : Status) : List Bool :=
  [st.busy, st.done, st.error, st.aborted, false, false, false, false,
    st.errcode.getLsbD 0, st.errcode.getLsbD 1, st.errcode.getLsbD 2, st.errcode.getLsbD 3,
    st.errstage.getLsbD 0, st.errstage.getLsbD 1, st.errstage.getLsbD 2, false,
    st.vPack, st.vEcc, st.vPlace, st.vMask, st.vVec, false, false, false, st.wrIgnored]

/-- The STATUS word has its table's bits, and 0 above them. -/
theorem getLsbD_statusWord (st : Status) (j : Nat) : st.word.getLsbD j = st.bits.getD j false := by
  by_cases hj : j < 32
  · simp only [Status.word, BitVec.getLsbD_or, getLsbD_flagBit, BitVec.getLsbD_shiftLeft, BitVec.getLsbD_setWidth]
    interval_cases j <;> simp [Status.bits]
  · rw [BitVec.getLsbD_of_ge _ _ (by omega), List.getD_eq_default _ _ (by simp [Status.bits]; omega)]

theorem extractLsb'_statusWord {st : Status} {lo n : Nat} {x : BitVec n}
    (h : ∀ i, i < n → st.bits.getD (lo + i) false = x.getLsbD i) : st.word.extractLsb' lo n = x := by
  refine BitVec.eq_of_getLsbD_eq fun i hi => ?_
  rw [BitVec.getLsbD_extractLsb', getLsbD_statusWord, h i hi, decide_eq_true hi, Bool.true_and]

/-- Settles O39: STATUS is exact at any time, and each field is read off the table of its bits. -/
theorem statusReadShowsEveryField : Obligations.StatusReadShowsEveryField := by
  intro s
  have flag := getLsbD_statusWord s.status
  refine ⟨s.status.word, exec_r32_register (by decide) (status_not_volatile s) rfl, flag 0, flag 1, flag 2, flag 3,
    extractLsb'_statusWord ?_, extractLsb'_statusWord ?_, extractLsb'_statusWord ?_, flag 15, flag 16, flag 17,
    flag 18, flag 19, flag 20, extractLsb'_statusWord ?_, flag 24, extractLsb'_statusWord ?_⟩ <;>
  · intro i hi
    interval_cases i <;> rfl

/-! ## Reserved bits and offsets (10_state.md R47) -/

/-- A read of a register while idle shows 0 in the bits that the register does not have. -/
theorem read_reserved_zero {s : State} {o m w : Word} (hidle : s.status.busy = false)
    (hreg : isRegister o.toNat = true) (hw : s.regWord o.toNat = some w) (hm : Within w m) :
    ∃ t, exec (.r32 o) s = .next t ∧ t.resp.err = false ∧ t.resp.data &&& ~~~m = 0#32 :=
  ⟨_, exec_r32_register hreg (volatilePlace_idle hidle _) hw, rfl, (within_iff _ _).1 hm⟩

/-- The data of a write to the register page counts only for the opcode in CMD and for the fields stored elsewhere. -/
theorem exec_w32_congr {s : State} {o v w : Word} (hpage : o.toNat < 0x1000)
    (hcmd : o.toNat = 0x004 → opcodeOf v = opcodeOf w) (hreg : s.writeReg o.toNat v = s.writeReg o.toNat w) :
    exec (.w32 o v) s = exec (.w32 o w) s := by
  simp only [exec, execW32, State.busWrite, store_reg s hpage, hreg]
  by_cases h : o.toNat = 0x004
  · rw [hcmd h]
  · simp only [h, if_false]

theorem isRegister_reserved {a : Nat} (h : (0x054 ≤ a ∧ a < 0x060) ∨ (0x090 ≤ a ∧ a < 0x1000)) :
    isRegister a = false := by
  rw [Bool.eq_false_iff, Ne, isRegister_iff]
  omega

/-- No transaction of any size finds a register at a reserved offset (20_memory.md R74). -/
theorem busError_reserved {a : Nat} (h : (0x054 ≤ a ∧ a < 0x060) ∨ (0x090 ≤ a ∧ a < 0x1000)) (n : Nat) (we : Bool) :
    busError a n we = true := by
  have hreg := isRegister_reserved h
  have hwritable : isWritableRegister a = false := by
    rw [Bool.eq_false_iff]
    exact fun hw => by rw [isRegister_of_isWritableRegister hw] at hreg; cases hreg
  unfold busError
  split
  · rfl
  · rw [placeOf_reg (by omega)]
    cases we <;> simp [hreg, hwritable]

theorem busRead_error {s : State} {a n : Nat} (h : busError a n false = true) : s.busRead a n = s.respondError := by
  simp only [State.busRead, h, if_true]

theorem busWrite_error {s : State} {a n : Nat} (w : Word) (h : busError a n true = true) :
    s.busWrite a n w = s.respondError := by
  simp only [State.busWrite, h, if_true]

/-- Every transaction at a reserved offset is a bus error (20_memory.md R75). -/
theorem exec_reserved_offset (s : State) {o : Word} (w : Word)
    (h : (0x054 ≤ o.toNat ∧ o.toNat < 0x060) ∨ (0x090 ≤ o.toNat ∧ o.toNat < 0x1000)) {i : Instr}
    (hi : i ∈ [Instr.r8 o, .r16 o, .r32 o, .w8 o w, .w16 o w, .w32 o w]) : exec i s = .next s.respondError := by
  have hread (n : Nat) : s.busRead o.toNat n = s.respondError := busRead_error (busError_reserved h n false)
  have hwrite (n : Nat) : s.busWrite o.toNat n w = s.respondError := busWrite_error w (busError_reserved h n true)
  simp only [List.mem_cons, List.not_mem_nil, or_false] at hi
  rcases hi with rfl | rfl | rfl | rfl | rfl | rfl
  · exact congrArg Host.Outcome.next (hread 1)
  · exact congrArg Host.Outcome.next (hread 2)
  · exact congrArg Host.Outcome.next (hread 4)
  · exact congrArg Host.Outcome.next (hwrite 1)
  · exact congrArg Host.Outcome.next (hwrite 2)
  · exact congrArg Host.Outcome.next (hwrite 4)

/-- Settles O40: a register word is an or of fields inside the register's bits; a write takes only fields inside the
bits that are written; and no transaction finds a register at a reserved offset. -/
theorem reservedBitsAndOffsets : Obligations.ReservedBitsAndOffsets := by
  refine ⟨?read, ?write, fun s o w hoff i hi => exec_reserved_offset s w hoff hi⟩
  case read =>
    intro s o m hmem hidle
    simp only [List.mem_cons, Prod.mk.injEq, List.not_mem_nil, or_false] at hmem
    rcases hmem with h | h | h | h | h | h | h | h | h | h | h | h | h | h | h | h | h | h | h | h | h <;>
      obtain ⟨rfl, rfl⟩ := h
    all_goals refine read_reserved_zero hidle (by decide) rfl ?_
    all_goals simp (disch := decide) only [Status.word, IrqEnable.word, IrqPending.word, ConfigReg.word,
      SymbolReg.word, RsParam.word, within_or, within_flagBit, within_field, within_setWidth, within_allOnes, and_self]
  case write =>
    intro s o m w hmem
    simp only [List.mem_cons, Prod.mk.injEq, List.not_mem_nil, or_false] at hmem
    rcases hmem with h | h | h | h | h | h | h | h | h | h | h | h <;> obtain ⟨rfl, rfl⟩ := h
    -- CMD stores nothing: its data is the opcode.
    case inl => exact exec_w32_congr (by decide) (fun _ => (extractLsb'_and_mask w (by decide)).symm) rfl
    all_goals refine exec_w32_congr (by decide) (absurd · (by decide)) ?_
    all_goals simp (disch := decide) [State.writeReg, State.clearPending, IrqPending.clear, extractLsb'_and_mask,
      and_wholeWord]

end Sys2Proof.Machine
end

section
/-! SUPPORT. What a HOST step of an idle QRE may change, and how it comes to be BUSY (10_state.md R24, R61;
40_host_bus.md R133). -/

namespace Sys2Proof.Machine

/-! ## Who writes what (10_state.md R61) -/

/-- `t` differs from `s` in locations that an idle HOST step may write: the record of acceptance, the host's
registers and buffers, and the response.  SYMBOL.MASK is the ENGINE's. -/
def HostWritesOnly (s t : State) : Prop :=
  t = { s with
        lastOp := t.lastOp, status := t.status, irqEn := t.irqEn, irqPend := t.irqPend, config := t.config
        inLen := t.inLen, jobTag := t.jobTag, resultTag := t.resultTag
        symbol := { t.symbol with mask := s.symbol.mask }
        cwCount := t.cwCount, rsParam := t.rsParam, rasterSize := t.rasterSize, colorDark := t.colorDark
        colorLight := t.colorLight, inbuf := t.inbuf, datacw := t.datacw, finalcw := t.finalcw
        pendingOp := t.pendingOp, pendingTag := t.pendingTag, resp := t.resp, nextDraw := t.nextDraw }

theorem HostWritesOnly.respond {s t : State} (h : HostWritesOnly s t) (r : Response) :
    HostWritesOnly s { t with resp := r } := by
  unfold HostWritesOnly at h ⊢
  rw [h]

theorem hostWritesOnly_accept (s : State) (op : BitVec 4) : HostWritesOnly s (s.accept op) := by
  by_cases hstage : op.toNat < 8
  · rw [accept_stage s hstage]; rfl
  · rw [accept_reserved s (by omega)]; rfl

theorem hostWritesOnly_writeReg (s : State) (o : Nat) (w : Word) : HostWritesOnly s (s.writeReg o w) := by
  unfold State.writeReg
  split <;> rfl

theorem hostWritesOnly_writeBuf (s : State) {b : BufId} (h : b.hostWritable = true) (k : Nat) (bs : List Byte) :
    HostWritesOnly s (s.writeBuf b k bs) := by
  cases b
  case inbuf | datacw | finalcw => rfl
  all_goals cases h

/-- A store goes to a writable register or to a buffer that the host may write (20_memory.md R73, R74). -/
theorem hostWritesOnly_store (s : State) {a n : Nat} (w : Word) (hlegal : busError a n true = false)
    (hn : n = 1 ∨ n = 2 ∨ n = 4) : HostWritesOnly s (s.store a n w) := by
  rcases legal_write hlegal hn with ⟨ha, -, -⟩ | ⟨b, k, hwritable, ha, -, hk⟩
  · rw [store_reg s ha]
    exact hostWritesOnly_writeReg s a w
  · rw [ha, store_window s b (by omega)]
    exact hostWritesOnly_writeBuf s hwritable k _

theorem exec_hostWritesOnly {i : Instr} {s t : State} (hidle : s.status.busy = false) (h : exec i s = .next t) :
    HostWritesOnly s t := by
  rcases host_cases h with ⟨r, d, rfl, -⟩ | ⟨r, hb, -⟩ | ⟨r, hb, -⟩ | ⟨r, op, -, -, -, rfl⟩
    | ⟨r, a, n, w, -, hlegal, -, hn, rfl⟩
  · rfl
  · rw [hidle] at hb; cases hb
  · rw [hidle] at hb; cases hb
  · exact (hostWritesOnly_accept s op).respond r
  · exact (hostWritesOnly_store s w hlegal hn).respond r

/-- Settles O49: an idle HOST step accepts a command, writes one of the host's registers or buffers, or writes
nothing, and none of these writes an output of the ENGINE. -/
theorem hostStepsLeaveEngineOutputs : Obligations.HostStepsLeaveEngineOutputs := by
  intro i s t hidle hexec
  rw [show t = _ from exec_hostWritesOnly hidle hexec]
  exact ⟨rfl, rfl, rfl, rfl, rfl, rfl, rfl, rfl, rfl, rfl, rfl, rfl, rfl, rfl, rfl⟩

/-! ## How QRE comes to be BUSY (10_state.md R24) -/

@[simp] theorem resetTurn_busy (s : State) : s.resetTurn.status.busy = false := rfl

@[simp] theorem store_busy (s : State) (a n : Nat) (w : Word) : (s.store a n w).status.busy = s.status.busy := by
  rcases store_status s a n w with h | ⟨-, h⟩ <;> rw [h]
  rfl

/-- The ENGINE's turn never makes QRE busy. -/
theorem engineTurn_idle_busy {s : State} (hidle : s.status.busy = false) : s.engineTurn.status.busy = false := by
  rw [engineTurn_idle hidle, hidle]

/-- `t` is BUSY with stage command `op`, accepted from `s` (40_host_bus.md R133). -/
structure Accepted (s : State) (op : BitVec 4) (t : State) : Prop where
  isStage : 1 ≤ op.toNat ∧ op.toNat ≤ 7
  pendingOp : t.pendingOp = op
  lastOp : t.lastOp = op
  pendingTag : t.pendingTag = s.jobTag

/-- Of all opcodes only a stage command makes an idle QRE busy. -/
theorem accepted_of_issueCommand {s : State} {op : BitVec 4} (hidle : s.status.busy = false)
    (hbusy : (s.issueCommand op).status.busy = true) : Accepted s op (s.issueCommand op) := by
  rcases issueCommand_cases s op with ⟨-, h⟩ | ⟨-, h⟩ | ⟨-, -, hb, -⟩ | ⟨h1, -, -, h⟩
  · rw [h, hidle] at hbusy; cases hbusy
  · rw [h, abort_idle hidle, hidle] at hbusy; cases hbusy
  · rw [hidle] at hb; cases hb
  · by_cases hstage : op.toNat < 8
    · rw [h, accept_stage s hstage]
      exact ⟨⟨h1, by omega⟩, rfl, rfl, rfl⟩
    · rw [h, accept_reserved s (by omega), errorEnd_busy] at hbusy
      cases hbusy

/-- CMD takes 32-bit writes only (20_memory.md R74). -/
theorem cmd_write_is_w32 {i : Instr} {n : Nat} {addr w : Word} (haddr : addr.toNat = 0x004)
    (hmem : (i, n) ∈ [(Instr.w8 addr w, 1), (.w16 addr w, 2), (.w32 addr w, 4)])
    (hlegal : busError addr.toNat n true = false) : i = .w32 0x00000004#32 w := by
  rw [haddr] at hlegal
  obtain rfl : addr = 0x00000004#32 := BitVec.eq_of_toNat_eq haddr
  simp only [List.mem_cons, Prod.mk.injEq, List.not_mem_nil, or_false] at hmem
  rcases hmem with ⟨-, rfl⟩ | ⟨-, rfl⟩ | ⟨hi, -⟩
  · exact absurd hlegal (by decide)
  · exact absurd hlegal (by decide)
  · exact hi

/-- A HOST step that makes QRE busy is a stage command, or the write to CMD that issues it. -/
theorem accepted_of_exec {i : Instr} {s t : State} (h : exec i s = .next t) (hidle : s.status.busy = false)
    (hbusy : t.status.busy = true) :
    ∃ op, Accepted s op t ∧ (i = commandOf op ∨ ∃ w : Word, i = .w32 0x00000004#32 w ∧ opcodeOf w = op) := by
  rcases exec_cases h with ⟨op, hi, rfl⟩ | ⟨addr, n, -, rfl⟩ | ⟨addr, n, w, hmem, rfl⟩
  · obtain ⟨hstage, hop, hlast, htag⟩ := accepted_of_issueCommand hidle hbusy
    exact ⟨op, ⟨hstage, hop, hlast, htag⟩, .inl hi⟩
  · rw [busRead_frame, hidle] at hbusy; cases hbusy
  · rcases busWrite_cases s addr.toNat n w with ⟨-, hw⟩ | ⟨hlegal, haddr, hw⟩ | ⟨-, -, -, -, hb, -⟩ | ⟨-, -, -, hw⟩
    · rw [hw] at hbusy; exact absurd hbusy (by simp [hidle])
    · rw [hw] at hbusy ⊢
      obtain ⟨hstage, hop, hlast, htag⟩ := accepted_of_issueCommand hidle hbusy
      exact ⟨opcodeOf w, ⟨hstage, hop, hlast, htag⟩, .inr ⟨w, cmd_write_is_w32 haddr hmem hlegal, rfl⟩⟩
    · rw [hidle] at hb; cases hb
    · rw [hw, respond_status, store_busy, hidle] at hbusy; cases hbusy

/-- Settles O51: the ENGINE's turn and reset never set BUSY, and of the HOST steps only an acceptance does. -/
theorem onlyAcceptanceSetsBusy : Obligations.OnlyAcceptanceSetsBusy := by
  intro s t hstep hidle hbusy
  rcases step_cases hstep with ⟨-, rfl⟩ | ⟨ts, -, rfl⟩ | ⟨ts, -, rfl⟩ | ⟨bytes, ts, i, hturns, hdecode, hexec⟩
  · rw [engineTurn_idle_busy hidle] at hbusy; cases hbusy
  · rw [engineTurn_idle_busy (s := { s with turns := ts }) hidle] at hbusy; cases hbusy
  · rw [resetTurn_busy] at hbusy; cases hbusy
  · obtain ⟨op, ⟨⟨h1, h7⟩, rfl, hlast, htag⟩, hi⟩ :=
      accepted_of_exec (s := { s with turns := ts }) hexec hidle hbusy
    exact ⟨bytes, ts, i, hturns, hdecode, h1, h7, hlast, htag, hi⟩

end Sys2Proof.Machine
end

section
/-! SUPPORT. How many bytes each command writes: never more than the buffer it writes them to stores
(10_state.md R48-R55, 20_memory.md R79). -/

namespace Sys2Proof.Machine

/-! ## PACK -/

/-- Version 40 has the most codewords. -/
theorem totalCw_le {v : Nat} (h : v ≤ 40) : totalCw v ≤ 3706 := by
  have all : ∀ v < 41, totalCw v ≤ 3706 := by decide
  exact all v (by omega)

theorem dataCodewords_le {v : Nat} (h : v ≤ 40) (l : Level) : dataCodewords v l ≤ 3706 :=
  (Nat.sub_le _ _).trans (totalCw_le h)

/-- PACK writes the D data codewords (41_packer.md R157). -/
theorem codewordsOf_packStream_length {v : Nat} {l : Level} {p : List Byte} (h : fits v l p.length = true) :
    (codewordsOf (packStream v l p)).length = dataCodewords v l := by
  rw [codewordsOf_length, packStream_length h, Nat.mul_div_cancel_left _ (by decide)]

/-! ## ECC -/

@[simp] theorem cutBlocks_length (ks : List Nat) (d : List Byte) : (cutBlocks ks d).length = ks.length := by
  induction ks generalizing d with
  | nil => rfl
  | cons k ks ih => rw [cutBlocks, List.length_cons, ih, List.length_cons]

/-- A column has at most one codeword of each block. -/
theorem roundRobin_length_le (n : Nat) (blocks : List (List Byte)) :
    (roundRobin n blocks).length ≤ n * blocks.length := by
  induction n with
  | zero => simp [roundRobin]
  | succ n ih =>
    have hcolumn : (blocks.filterMap fun blk => blk[n]?).length ≤ blocks.length := List.length_filterMap_le _ _
    simp only [roundRobin] at ih
    simp only [roundRobin, List.range_succ, List.flatMap_append, List.flatMap_cons, List.flatMap_nil,
      List.append_nil, List.length_append, Nat.succ_mul]
    omega

theorem finalSequence_length_le (v : Nat) (l : Level) (d : List Byte) :
    (finalSequence v l d).length ≤ (shortBlock v l + 1 + eccPerBlock v l) * (blockSizes v l).length := by
  have hdata := roundRobin_length_le (shortBlock v l + (if 0 < longBlocks v l then 1 else 0))
    (cutBlocks (blockSizes v l) d)
  have hparity := roundRobin_length_le (eccPerBlock v l)
    ((cutBlocks (blockSizes v l) d).map fun blk => rsParity blk (eccPerBlock v l))
  rw [List.length_map] at hparity
  rw [cutBlocks_length] at hdata hparity
  have hcolumns : shortBlock v l + (if 0 < longBlocks v l then 1 else 0) ≤ shortBlock v l + 1 := by
    split <;> omega
  rw [finalSequence, List.length_append, Nat.add_mul]
  exact Nat.add_le_add (hdata.trans (Nat.mul_le_mul_right _ hcolumns)) hparity

/-- FINALCW holds the columns of the largest version, counted with no block run out. -/
theorem finalSequence_fits {v : Nat} (h : v ≤ 40) (l : Level) (d : List Byte) :
    (finalSequence v l d).length ≤ 4096 := by
  have all : ∀ v < 41, ∀ l ∈ [Level.L, .M, .Q, .H],
      (shortBlock v l + 1 + eccPerBlock v l) * (blockSizes v l).length ≤ 4096 := by decide +kernel
  exact (finalSequence_length_le v l d).trans (all v (by omega) l (by cases l <;> decide))

/-! ## VECTOR -/

/-- A stored row has at most 177 dark modules, whatever width is read. -/
theorem matrixRow_dark_le (s : State) (b : BufId) (n r : Nat) : (s.matrixRow b n r).count true ≤ sideMax := by
  rw [State.matrixRow, List.count_append, List.count_replicate, if_neg (by decide), Nat.add_zero]
  exact List.count_le_length.trans ((List.length_take_le _ _).trans (Nat.min_le_right _ _))

/-- Past the 177 stored rows there is none. -/
theorem matrixRow_dark_past (s : State) {b : BufId} (hb : b.isMatrix = true) (n : Nat) {r : Nat} (hr : sideMax ≤ r) :
    (s.matrixRow b n r).count true = 0 := by
  rw [List.count_eq_zero, State.matrixRow, List.mem_append, not_or]
  refine ⟨fun hmem => ?_, by simp⟩
  obtain ⟨i, -, hbit⟩ := List.mem_flatMap.1 (List.mem_of_mem_take hmem)
  have hr' : 177 ≤ r := hr
  rw [windowByte_past s (by rw [storedSize_matrix hb]; omega)] at hbit
  exact absurd hbit (by decide)

theorem vectorRecords_length (s : State) (n q : Nat) :
    (vectorRecords s n q).length = ((List.range n).map fun r => (s.matrixRow .matrix n r).count true).sum := by
  have hrow (row : List Bool) : (row.zipIdx.filter (·.1)).length = row.count true := by
    rw [← List.countP_eq_length_filter, List.count]
    conv_rhs => rw [← List.zipIdx_map_fst 0 row, List.countP_map]
    exact congrArg (List.countP · row.zipIdx) (funext fun m => by simp)
  simp only [vectorRecords, List.length_flatMap, List.length_map, hrow]

/-- A sum of terms that are at most `k` and vanish from `k` up. -/
theorem sum_range_le_square {f : Nat → Nat} {k : Nat} (hle : ∀ r, f r ≤ k) (hzero : ∀ r, k ≤ r → f r = 0) (n : Nat) :
    ((List.range n).map f).sum ≤ k * k := by
  have key : ((List.range n).map f).sum ≤ min n k * k := by
    induction n with
    | zero => simp
    | succ n ih =>
      rw [List.range_succ, List.map_append, List.sum_append, List.map_singleton, List.sum_singleton]
      by_cases hn : n < k
      · rw [Nat.min_eq_left (by omega)] at ih ⊢
        have := hle n
        rw [Nat.succ_mul]; omega
      · rw [Nat.min_eq_right (by omega)] at ih ⊢
        rw [hzero n (by omega), Nat.add_zero]; exact ih
  exact key.trans (Nat.mul_le_mul_right k (Nat.min_le_right n k))

/-- VECBUF holds a record of every stored module, whatever side MSIDE gives (30_encoding.md R112). -/
theorem vectorBytes_fit (s : State) (n q : Nat) :
    ((vectorRecords s n q).flatMap bytesOfWord).length ≤ 131072 := by
  have hrecords : (vectorRecords s n q).length ≤ sideMax * sideMax := by
    rw [vectorRecords_length]
    exact sum_range_le_square (matrixRow_dark_le s .matrix n) (fun _ => matrixRow_dark_past s rfl n) n
  rw [flatMap_const_length bytesOfWord 4 bytesOfWord_length]
  have : sideMax * sideMax = 31329 := rfl
  omega

end Sys2Proof.Machine
end

section
/-! SUPPORT. The invariant of the memory (20_memory.md R79, 70_reset_and_hazards.md R341): a write that ends inside
its buffer keeps it, a draw keeps it, and every step is made of these two. -/

namespace Sys2Proof.Machine

theorem MemoryInv.congr {s t : State} (h : MemoryInv s) (hbuf : ∀ b, t.buf b = s.buf b)
    (hdraw : s.nextDraw ≤ t.nextDraw) : MemoryInv t where
  canonical b := hbuf b ▸ h.canonical b
  inside b := hbuf b ▸ h.inside b
  drawn b := hbuf b ▸ Nat.lt_of_lt_of_le (h.drawn b) hdraw

theorem MemoryInv.writeBuf {s : State} (h : MemoryInv s) {b : BufId} {k : Nat} {bs : List Byte}
    (hfits : k + bs.length ≤ b.storedSize) : MemoryInv (s.writeBuf b k bs) where
  canonical := writeBuf_wf h.canonical b k bs
  inside c := by
    rw [State.writeBuf, buf_setBuf]
    split
    case isTrue hc => subst hc; exact write_bounded (h.inside c) hfits
    case isFalse => exact h.inside c
  drawn c := by
    rw [writeBuf_nextDraw, State.writeBuf, buf_setBuf]
    split
    · exact h.drawn b
    · exact h.drawn c

theorem MemoryInv.writeMatrix {s : State} (h : MemoryInv s) {b : BufId} (hb : b.isMatrix = true) (m : Matrix) :
    MemoryInv (s.writeMatrix b m) :=
  h.writeBuf (by rw [windowBytes_length, storedSize_matrix hb])

/-- A new draw may be given to any of the buffers. -/
theorem MemoryInv.redraw {s t : State} (h : MemoryInv s) (hdraw : t.nextDraw = s.nextDraw + 1)
    (hbuf : ∀ b, t.buf b = Buffer.unspecified s.nextDraw ∨ t.buf b = s.buf b) : MemoryInv t := by
  refine ⟨fun b => ?_, fun b => ?_, fun b => ?_⟩ <;> rcases hbuf b with hb | hb <;> rw [hb]
  · exact unspecified_wf _
  · exact h.canonical b
  · exact fun c hc => absurd hc List.not_mem_nil
  · exact h.inside b
  · rw [hdraw]; exact Nat.lt_succ_self _
  · rw [hdraw]; exact Nat.lt_succ_of_lt (h.drawn b)

/-! ## The commands -/

theorem MemoryInv.packBody {s t : State} (hs : MemoryInv s) (h : packBody s = .ok t) : MemoryInv t := by
  rcases packBody_cases s with ⟨he, -⟩ | ⟨v, t', -, hn, hv⟩
  · rw [he] at h; cases h
  · rw [packBody_ok hn hv] at h; cases h
    obtain ⟨-, h40, hfits, -⟩ := chooseVersion_some hv
    have hlength := codewordsOf_packStream_length (p := s.bufBytes .inbuf 0 s.inLen.toNat) (by rwa [bufBytes_length])
    have hcapacity := dataCodewords_le h40 (Level.ofCode s.config.level)
    refine (hs.writeBuf (b := .datacw) ?_).congr (fun b => by cases b <;> rfl) (Nat.le_refl _)
    rw [hlength, show BufId.datacw.storedSize = 4096 from rfl]; omega

theorem MemoryInv.eccBody {s t : State} (hs : MemoryInv s) (h : eccBody s = .ok t) : MemoryInv t := by
  cases hv : isVersion s.symbol.version.toNat
  · rw [eccBody_error hv] at h; cases h
  · rw [eccBody_ok hv] at h; cases h
    refine (hs.writeBuf (b := .finalcw) ?_).congr (fun b => by cases b <;> rfl) (Nat.le_refl _)
    rw [Nat.zero_add]
    exact finalSequence_fits ((isVersion_iff _).1 hv).2 _ _

theorem MemoryInv.placeBody {s t : State} (hs : MemoryInv s) (h : placeBody s = .ok t) : MemoryInv t := by
  cases hv : isVersion s.symbol.version.toNat
  · rw [placeBody_badParam hv] at h; cases h
  by_cases hc : s.cwCount.toNat = totalCw s.symbol.version.toNat
  · rw [placeBody_ok hv hc] at h; cases h
    exact ((hs.writeMatrix (b := .funcmap) rfl _).writeMatrix (b := .placed) rfl _).congr
      (fun b => by cases b <;> rfl) (Nat.le_refl _)
  · rw [placeBody_overflow hv hc] at h; cases h

theorem MemoryInv.maskBody {s t : State} (hs : MemoryInv s) (h : maskBody s = .ok t) : MemoryInv t := by
  cases hv : s.status.vPlace
  · rw [maskBody_error hv] at h; cases h
  · simp only [Machine.maskBody, hv, if_true] at h; cases h
    exact (hs.writeMatrix (b := .matrix) rfl _).congr (fun b => by cases b <;> rfl) (Nat.le_refl _)

theorem MemoryInv.encodeBody {s t : State} (hs : MemoryInv s) (h : encodeBody s = .ok t) : MemoryInv t := by
  unfold Machine.encodeBody at h
  split at h
  · cases h
  · rename_i hpack
    split at h
    · cases h
    · rename_i hecc
      split at h
      · cases h
      · rename_i hplace
        exact (((hs.packBody hpack).eccBody hecc).placeBody hplace).maskBody h

theorem MemoryInv.vectorBody {s t : State} (hs : MemoryInv s) (h : vectorBody s = .ok t) : MemoryInv t := by
  cases hv : s.status.vMask
  · rw [vectorBody_error hv] at h; cases h
  · rw [vectorBody_ok hv] at h; cases h
    refine (hs.writeBuf (b := .vecbuf) ?_).congr (fun b => by cases b <;> rfl) (Nat.le_refl _)
    rw [Nat.zero_add]
    exact vectorBytes_fit s _ _

/-- RS writes at most 255 bytes, the limit of a register field. -/
theorem MemoryInv.rsBody {s t : State} (hs : MemoryInv s) (h : rsBody s = .ok t) : MemoryInv t := by
  cases hv : rsParamOk s.rsParam.k.toNat s.rsParam.e.toNat
  · rw [rsBody_error hv] at h; cases h
  · rw [rsBody_ok hv] at h; cases h
    refine hs.writeBuf (b := .rsout) ?_
    have he : s.rsParam.e.toNat < 256 := s.rsParam.e.isLt
    rw [rsParity_length, show BufId.rsout.storedSize = 256 from rfl]; omega

theorem MemoryInv.commandBody {s t : State} {op : BitVec 4} (hs : MemoryInv s) (h : commandBody op s = .ok t) :
    MemoryInv t := by
  unfold Machine.commandBody at h
  split at h
  · exact hs.packBody h
  · exact hs.eccBody h
  · exact hs.placeBody h
  · exact hs.maskBody h
  · exact hs.encodeBody h
  · exact hs.vectorBody h
  · exact hs.rsBody h
  · cases h

/-! ## The other operations -/

theorem MemoryInv.abort {s : State} (h : MemoryInv s) (hb : s.status.busy = true) : MemoryInv s.abort := by
  refine h.redraw (by rw [abort_busy hb]; rfl) fun b => ?_
  rw [abort_buf hb]
  split
  · exact .inl rfl
  · exact .inr rfl

@[simp] theorem accept_buf (s : State) (op : BitVec 4) (b : BufId) : (s.accept op).buf b = s.buf b := by
  unfold State.accept
  split <;> cases b <;> rfl

@[simp] theorem accept_nextDraw (s : State) (op : BitVec 4) : (s.accept op).nextDraw = s.nextDraw := by
  unfold State.accept
  split <;> rfl

/-- The host writes no matrix, so its buffers store their whole window. -/
theorem storedSize_hostWritable {b : BufId} (h : b.hostWritable = true) : b.storedSize = b.windowSize := by
  cases b
  case inbuf | datacw | finalcw => rfl
  all_goals cases h

theorem memoryInv_stable : StepStable MemoryInv where
  frame _ _ _ _ hd h := h.congr (fun b => by cases b <;> rfl) hd
  dropWrite s h := h.congr (dropWrite_buf s) (Nat.le_refl _)
  abort _ hb h := h.abort hb
  accept s op _ _ _ h := h.congr (accept_buf s op) (accept_nextDraw s op).ge
  writeReg s o w _ h := h.congr (writeReg_buf s o w) (writeReg_nextDraw s o w).ge
  writeBuf _ b k n w _ hwritable hk h := h.writeBuf (by
    rwa [List.length_map, List.length_range, storedSize_hostWritable hwritable])
  complete _ t _ hbody h := (h.commandBody hbody).congr (complete_buf t) (Nat.le_refl _)
  errorEnd s e _ _ h := h.congr (errorEnd_buf s e) (Nat.le_refl _)
  resetTurn _ h := h.redraw rfl fun b => .inl (by cases b <;> rfl)

/-- Settles O55: a step writes bytes that fit their buffer, gives buffers a new draw, or leaves them. -/
theorem stepKeepsMemoryCanonical : Obligations.StepKeepsMemoryCanonical :=
  fun _ _ hs ht => memoryInv_stable.step ht hs

end Sys2Proof.Machine
end

section
/-! SUPPORT. Which transactions are bus errors (20_memory.md R73-R75): the address map as conditions on the offset
(R70), and the answer of each transaction. -/

namespace Sys2Proof.Machine

/-! ## The address map -/

/-- The places of the address map, each with its offsets. -/
theorem placeOf_cases (a : Nat) :
    (a < 0x1000 ∧ placeOf a = .reg a) ∨
    (∃ b : BufId, b.covers a = true ∧ placeOf a = .window b (a - b.base)) ∨
    (rasterBase ≤ a ∧ a < rasterEnd ∧ placeOf a = .raster (a - rasterBase)) ∨
    (0x1000 ≤ a ∧ (∀ b : BufId, b.covers a = false) ∧ ¬ (rasterBase ≤ a ∧ a < rasterEnd) ∧ placeOf a = .unmapped) := by
  by_cases hpage : a < 0x1000
  · exact .inl ⟨hpage, placeOf_reg hpage⟩
  by_cases hraster : rasterBase ≤ a ∧ a < rasterEnd
  · exact .inr (.inr (.inl ⟨hraster.1, hraster.2, placeOf_raster hraster.1 hraster.2⟩))
  cases hfind : allBuffers.find? fun b : BufId => b.covers a with
  | some b =>
    have hcovers : b.covers a = true := List.find?_some (p := fun b : BufId => b.covers a) hfind
    exact .inr (.inl ⟨b, hcovers, placeOf_of_covers hcovers⟩)
  | none =>
    refine .inr (.inr (.inr ⟨Nat.le_of_not_lt hpage, fun b => ?_, hraster, ?_⟩))
    · simpa using List.find?_eq_none.1 hfind b (mem_allBuffers b)
    · simp only [placeOf, hpage, hraster, hfind, if_false]

/-- A transaction is legal when it is aligned and at a register of its kind, as a whole word, in a window that may
be accessed so, or a read of the raster window. -/
theorem busError_eq_false_iff (a n : Nat) (we : Bool) :
    busError a n we = false ↔ a % n = 0 ∧
      ((a < 0x1000 ∧ n = 4 ∧ (if we then isWritableRegister a else isRegister a) = true) ∨
        (∃ b : BufId, b.covers a = true ∧ (we = true → b.hostWritable = true)) ∨
        (we = false ∧ rasterBase ≤ a ∧ a < rasterEnd)) := by
  by_cases hal : a % n = 0
  swap
  · simp [busError, hal]
  have noWindow (h : a < 0x1000 ∨ rasterBase ≤ a) (b : BufId) : b.covers a = false := by
    rw [Bool.eq_false_iff]
    intro hb
    have := window_bounds b hb
    omega
  simp only [busError, hal, ne_eq, not_true_eq_false, if_false, true_and]
  rcases placeOf_cases a with ⟨hpage, hp⟩ | ⟨b, hb, hp⟩ | ⟨hlow, hhigh, hp⟩ | ⟨hpage, hb, hraster, hp⟩ <;> rw [hp]
  · have hlow : ¬ rasterBase ≤ a := by rw [rasterBase]; omega
    simp [hpage, hlow, noWindow (.inl hpage)]
  · obtain ⟨hpage, hlow⟩ := window_bounds b hb
    have hunique : (∃ c : BufId, c.covers a = true ∧ (we = true → c.hostWritable = true)) ↔
        (we = true → b.hostWritable = true) :=
      ⟨fun ⟨c, hc, h⟩ => covers_unique hc hb ▸ h, fun h => ⟨b, hb, h⟩⟩
    rw [hunique]
    cases we <;> simp [Nat.not_lt.2 hpage, Nat.not_le.2 hlow]
  · have hpage : ¬ a < 0x1000 := by rw [rasterBase] at hlow; omega
    simp [hpage, hlow, hhigh, noWindow (.inr hlow)]
  · simp [Nat.not_lt.2 hpage, hb, hraster]

/-- The windows of the address map, by who may access them (20_memory.md R70). -/
theorem window_access_iff (a : Nat) (we : Bool) :
    (∃ b : BufId, b.covers a = true ∧ (we = true → b.hostWritable = true)) ↔
      (0x1000 ≤ a ∧ a < 0x4000) ∨
        (we = false ∧ ((0x4000 ≤ a ∧ a < 0x4100) ∨ (0x6000 ≤ a ∧ a < 0xC000) ∨ (0x10000 ≤ a ∧ a < 0x30000))) := by
  have covered (b : BufId) := covers_iff b a
  constructor
  · rintro ⟨b, hb, hwritable⟩
    rw [covered] at hb
    cases b <;> cases we <;> simp [BufId.base, BufId.windowSize, BufId.hostWritable] at hb hwritable ⊢ <;> omega
  · rintro (h | ⟨rfl, h | h | h⟩)
    · rcases (by omega : a < 0x2000 ∨ (0x2000 ≤ a ∧ a < 0x3000) ∨ 0x3000 ≤ a) with h' | h' | h'
      · exact ⟨.inbuf, (covered _).2 ⟨h.1, h'⟩, fun _ => rfl⟩
      · exact ⟨.datacw, (covered _).2 h', fun _ => rfl⟩
      · exact ⟨.finalcw, (covered _).2 ⟨h', h.2⟩, fun _ => rfl⟩
    · exact ⟨.rsout, (covered _).2 h, nofun⟩
    · rcases (by omega : a < 0x8000 ∨ (0x8000 ≤ a ∧ a < 0xA000) ∨ 0xA000 ≤ a) with h' | h' | h'
      · exact ⟨.funcmap, (covered _).2 ⟨h.1, h'⟩, nofun⟩
      · exact ⟨.placed, (covered _).2 h', nofun⟩
      · exact ⟨.matrix, (covered _).2 ⟨h', h.2⟩, nofun⟩
    · exact ⟨.vecbuf, (covered _).2 h, nofun⟩

/-- The registers that take a write, and those that take a read, as the map lists their offsets (10_state.md R23). -/
theorem register_access_iff {a : Nat} (hal : a % 4 = 0) (we : Bool) :
    (if we then isWritableRegister a else isRegister a) = true ↔
      if we then a ∈ [0x004, 0x00C, 0x010, 0x014, 0x018, 0x01C, 0x024, 0x02C, 0x03C, 0x048, 0x04C, 0x050]
      else a ≤ 0x050 ∨ (0x060 ≤ a ∧ a ≤ 0x08F) := by
  cases we
  · simp only [Bool.false_eq_true, if_false, isRegister_iff]
    omega
  · simp only [if_true, isWritableRegister, List.contains_iff_mem]

/-! ## The answer of a transaction -/

theorem busRead_err {s : State} {a n : Nat} (h : busError a n false = false) : (s.busRead a n).resp.err = false := by
  rcases busRead_cases s a n with ⟨he, -⟩ | ⟨-, -, hr⟩ | ⟨-, -, hr⟩
  · rw [h] at he; cases he
  · rw [hr]; rfl
  · rw [hr]; rfl

theorem busWrite_err {s : State} {a n : Nat} (w : Word) (h : busError a n true = false) :
    (s.busWrite a n w).resp.err = false := by
  rcases busWrite_cases s a n w with ⟨he, -⟩ | ⟨-, -, hr⟩ | ⟨-, -, -, -, -, hr⟩ | ⟨-, -, -, hr⟩
  · rw [h] at he; cases he
  · rw [hr]; rfl
  · rw [hr]; rfl
  · rw [hr]; rfl

/-- The six transactions, by size and direction (40_host_bus.md R130, R131). -/
theorem exec_transaction (s : State) {addr w : Word} {i : Instr} {n : Nat} {we : Bool}
    (h : (i, n, we) ∈ [(Instr.r8 addr, 1, false), (.r16 addr, 2, false), (.r32 addr, 4, false),
      (.w8 addr w, 1, true), (.w16 addr w, 2, true), (.w32 addr w, 4, true)]) :
    exec i s = .next (if we then s.busWrite addr.toNat n w else s.busRead addr.toNat n) := by
  simp only [List.mem_cons, Prod.mk.injEq, List.not_mem_nil, or_false] at h
  rcases h with h | h | h | h | h | h <;> obtain ⟨rfl, rfl, rfl⟩ := h <;> rfl

/-- Settles O38: a bus error is what the address map does not allow, it is found before anything else, and every
other branch of a transaction answers err = 0. -/
theorem busErrorsExactlyWhen : Obligations.BusErrorsExactlyWhen := by
  intro s addr w i n we hmem a readable writable legal
  have hlegal : busError a n we = false ↔ legal := by
    rw [busError_eq_false_iff, window_access_iff]
    refine and_congr_right fun hal => ?_
    have hregister : (a < 0x1000 ∧ n = 4 ∧ (if we then isWritableRegister a else isRegister a) = true) ↔
        (a < 0x1000 ∧ n = 4 ∧ if we then writable else readable) :=
      and_congr_right fun _ => and_congr_right fun h4 => register_access_iff (h4 ▸ hal) we
    rw [hregister]
    simp only [rasterBase, rasterEnd, or_assoc, and_or_left]
  rw [exec_transaction s hmem, ← hlegal]
  cases we
  · exact ⟨fun h => congrArg _ (busRead_error (by simpa using h)), fun h => ⟨_, rfl, busRead_err h⟩⟩
  · exact ⟨fun h => congrArg _ (busWrite_error w (by simpa using h)), fun h => ⟨_, rfl, busWrite_err w h⟩⟩

end Sys2Proof.Machine
end

section
/-! SUPPORT. Reads and writes of the buffer windows (20_memory.md R76-R87): that a read leaves the state, what bytes
it shows in which lanes, read after write, and what a HOST step leaves while a command is pending. -/

namespace Sys2Proof.Machine

/-! ## Reads leave the state (20_memory.md R81) -/

theorem windowByte_respond (s : State) (d : Word) (b : BufId) (k : Nat) :
    (s.respond d).windowByte b k = s.windowByte b k := by
  unfold State.windowByte
  rw [bufByte_congr (respond_buf s d b)]

/-- The response is no part of what a read shows. -/
theorem readData_respond (s : State) (d : Word) (a n : Nat) : (s.respond d).readData a n = s.readData a n := by
  unfold State.readData
  cases placeOf a with
  | reg o => rfl
  | window b k => simp only [windowByte_respond]
  | raster k => rfl
  | unmapped => rfl

/-- A read that drew nothing reads the same again. -/
theorem busRead_idem {s : State} {a n : Nat} (h : (s.busRead a n).nextDraw = s.nextDraw) :
    (s.busRead a n).busRead a n = s.busRead a n := by
  rcases busRead_cases s a n with ⟨he, hr⟩ | ⟨-, -, hr⟩ | ⟨he, hv, hr⟩ <;> rw [hr] at h ⊢
  · rw [busRead_error he]; rfl
  · exact absurd h (Nat.succ_ne_self _)
  · have hv' : (s.respond (s.readData a n)).volatilePlace (placeOf a) = false := hv
    simp only [State.busRead, he, hv', Bool.false_eq_true, if_false, readData_respond]
    rfl

theorem busRead_idle_nextDraw {s : State} (hidle : s.status.busy = false) (a n : Nat) :
    (s.busRead a n).nextDraw = s.nextDraw := by
  rcases busRead_cases s a n with ⟨-, hr⟩ | ⟨-, hv, -⟩ | ⟨-, -, hr⟩
  · rw [hr]; rfl
  · rw [volatilePlace_idle hidle] at hv; cases hv
  · rw [hr]; rfl

/-- Settles O37: by the frame of a read, and the same read of the state it leaves. -/
theorem readsHaveNoSideEffect : Obligations.ReadsHaveNoSideEffect := by
  intro s addr i hi
  obtain ⟨n, hexec⟩ : ∃ n, ∀ u, exec i u = .next (u.busRead addr.toNat n) := by
    simp only [List.mem_cons, List.not_mem_nil, or_false] at hi
    rcases hi with rfl | rfl | rfl <;> exact ⟨_, fun _ => rfl⟩
  refine ⟨_, hexec s, busRead_frame s _ n, fun hdraw => ?_, fun hidle => busRead_idle_nextDraw hidle _ n⟩
  rw [hexec, busRead_idem hdraw]

/-! ## Lanes (20_memory.md R76) -/

/-- Bus data is the number whose digits to the base 256 are its bytes, the low lane first. -/
theorem busData_eq_ofDigits (bs : List Byte) :
    busData bs = BitVec.ofNat 32 (Nat.ofDigits 256 (bs.map BitVec.toNat)) := by
  induction bs with
  | nil => rfl
  | cons b bs ih =>
    have hlanes : b.setWidth 32 &&& busData bs <<< 8 = 0#32 := by
      refine BitVec.eq_of_getLsbD_eq fun i hi => ?_
      by_cases h8 : i < 8
      · simp [h8]
      · simp [BitVec.getLsbD_of_ge b i (by omega)]
    rw [busData, ← BitVec.add_eq_or_of_and_eq_zero _ _ hlanes, ih]
    refine BitVec.eq_of_toNat_eq ?_
    simp only [BitVec.toNat_add, BitVec.toNat_setWidth, BitVec.toNat_shiftLeft, BitVec.toNat_ofNat, List.map_cons,
      Nat.ofDigits_cons, Nat.shiftLeft_eq]
    omega

theorem ofDigits_range_one (f : Nat → Nat) : Nat.ofDigits 256 ((List.range 1).map f) = f 0 := by
  simp [List.range_succ]

theorem ofDigits_range_two (f : Nat → Nat) : Nat.ofDigits 256 ((List.range 2).map f) = f 0 + 256 * f 1 := by
  simp [List.range_succ, Nat.ofDigits_cons]

theorem ofDigits_range_four (f : Nat → Nat) :
    Nat.ofDigits 256 ((List.range 4).map f) = f 0 + 256 * f 1 + 65536 * f 2 + 16777216 * f 3 := by
  simp only [List.range_succ, List.range_zero, List.nil_append, List.cons_append, List.map_cons, List.map_nil,
    Nat.ofDigits_cons, Nat.ofDigits_nil]
  omega

/-- The four bytes of a word, as bus data, are the word. -/
theorem lowBytes_four (w : Word) : lowBytes 4 w = w := by
  refine BitVec.eq_of_toNat_eq ?_
  have hlt := w.isLt
  simp only [lowBytes, busData_eq_ofDigits, List.map_map, ofDigits_range_four, Function.comp_apply, wordByte,
    BitVec.toNat_ofNat, BitVec.toNat_setWidth, BitVec.toNat_ushiftRight, Nat.shiftRight_eq_div_pow]
  omega

/-! ## Aligned transactions in a window -/

/-- Every window begins at a multiple of the bus width. -/
theorem base_add_mod (b : BufId) (k : Nat) {n : Nat} (hn : n = 1 ∨ n = 2 ∨ n = 4) : (b.base + k) % n = k % n := by
  rcases hn with rfl | rfl | rfl <;> cases b <;> simp only [BufId.base] <;> omega

/-- An aligned transaction does not cross the end of its window (20_memory.md R78). -/
theorem aligned_fits (b : BufId) {k n : Nat} (hn : n = 1 ∨ n = 2 ∨ n = 4) (hk : k < b.windowSize) (hal : k % n = 0) :
    k + n ≤ b.windowSize := by
  rcases hn with rfl | rfl | rfl <;> cases b <;> simp only [BufId.windowSize] at hk ⊢ <;> omega

theorem window_addr_toNat (b : BufId) {k : Nat} (hk : k < b.windowSize) :
    (BitVec.ofNat 32 (b.base + k)).toNat = b.base + k := by
  rw [BitVec.toNat_ofNat]
  refine Nat.mod_eq_of_lt ?_
  cases b <;> simp only [BufId.base, BufId.windowSize] at hk ⊢ <;> omega

/-- An aligned transaction in a window is a bus error only as a write to a buffer that is not the host's. -/
theorem busError_window (b : BufId) {k n : Nat} {we : Bool} (hn : n = 1 ∨ n = 2 ∨ n = 4) (hk : k < b.windowSize)
    (hal : k % n = 0) (hwe : we = true → b.hostWritable = true) : busError (b.base + k) n we = false :=
  (busError_eq_false_iff _ _ _).2
    ⟨by rw [base_add_mod b k hn, hal], .inr (.inl ⟨b, (covers_iff _ _).2 ⟨by omega, by omega⟩, hwe⟩)⟩

theorem busRead_window {s : State} {b : BufId} {k n : Nat} (hn : n = 1 ∨ n = 2 ∨ n = 4) (hk : k < b.windowSize)
    (hal : k % n = 0) (hexact : s.volatilePlace (.window b k) = false) :
    s.busRead (b.base + k) n = s.respond (busData ((List.range n).map fun i => s.windowByte b (k + i))) := by
  have hlegal : busError (b.base + k) n false = false := busError_window b hn hk hal nofun
  simp only [State.busRead, hlegal, placeOf_window b hk, hexact, State.readData, Bool.false_eq_true, if_false]

theorem busWrite_window {s : State} {b : BufId} {k n : Nat} (w : Word) (hidle : s.status.busy = false)
    (hwritable : b.hostWritable = true) (hn : n = 1 ∨ n = 2 ∨ n = 4) (hk : k < b.windowSize) (hal : k % n = 0) :
    s.busWrite (b.base + k) n w = (s.writeBuf b k ((List.range n).map (wordByte w))).respond 0#32 := by
  have hcmd : b.base + k ≠ 0x004 := by cases b <;> simp only [BufId.base] <;> omega
  have hlegal : busError (b.base + k) n true = false := busError_window b hn hk hal fun _ => hwritable
  simp only [State.busWrite, hlegal, hcmd, hidle, store_window s b hk, Bool.false_and, Bool.false_eq_true, if_false]

/-! ## What a window shows -/

/-- A byte of a window as a read sees it: offsets past the storage of a matrix hold 0 (20_memory.md R79). -/
theorem windowByte_toNat (s : State) {b : BufId} {k : Nat} (hk : k < b.windowSize) :
    (s.windowByte b k).toNat =
      if b ∈ [BufId.funcmap, .placed, .matrix] ∧ 4248 ≤ k then 0 else (s.bufByte b k).toNat := by
  have hstored : k < b.storedSize ↔ ¬ (b ∈ [BufId.funcmap, .placed, .matrix] ∧ 4248 ≤ k) := by
    cases b <;> simp [BufId.storedSize, BufId.isMatrix, BufId.windowSize] at hk ⊢ <;> exact hk
  by_cases h : k < b.storedSize
  · rw [windowByte_stored s h, if_neg (hstored.1 h)]
  · rw [windowByte_past s (Nat.le_of_not_lt h), if_pos (not_not.1 (mt hstored.2 h))]
    rfl

/-- The windows of the three matrices are larger than their storage (20_memory.md R79). -/
theorem matrix_window {b : BufId} (h : b ∈ [BufId.funcmap, .placed, .matrix]) :
    b.storedSize = 4248 ∧ b.windowSize = 8192 := by
  simp only [List.mem_cons, List.not_mem_nil, or_false] at h
  rcases h with rfl | rfl | rfl <;> exact ⟨rfl, rfl⟩

theorem windowByte_hostWritable (s : State) {b : BufId} (hwritable : b.hostWritable = true) {k : Nat}
    (hk : k < b.windowSize) : s.windowByte b k = s.bufByte b k :=
  windowByte_stored s (by rwa [storedSize_hostWritable hwritable])

/-- No command writes past the storage of a buffer, so that those offsets are never volatile (40_host_bus.md R136). -/
theorem past_storage_not_volatile (s : State) {b : BufId} {k : Nat} (h : b.storedSize ≤ k) :
    s.volatilePlace (.window b k) = false := by
  have never (l : Loc) : l.touches (.window b k) = false := by
    cases l with
    | buf c =>
      by_cases hc : c = b
      · subst hc; simp [Loc.touches, h]
      · simp [Loc.touches, hc]
    | _ => rfl
  rw [State.volatilePlace, volatileFor, List.any_eq_false.2 fun l _ => by rw [never]; decide, Bool.and_false]

theorem size_of_read {i : Instr} {addr : Word} {n : Nat}
    (h : (i, n) ∈ [(Instr.r8 addr, 1), (.r16 addr, 2), (.r32 addr, 4)]) : n = 1 ∨ n = 2 ∨ n = 4 := by
  simp only [List.mem_cons, Prod.mk.injEq, List.not_mem_nil, or_false] at h
  exact h.imp (·.2) (·.imp (·.2) (·.2))

theorem exec_read (s : State) {i : Instr} {addr : Word} {n : Nat}
    (h : (i, n) ∈ [(Instr.r8 addr, 1), (.r16 addr, 2), (.r32 addr, 4)]) :
    exec i s = .next (s.busRead addr.toNat n) := by
  simp only [List.mem_cons, Prod.mk.injEq, List.not_mem_nil, or_false] at h
  rcases h with h | h | h <;> obtain ⟨rfl, rfl⟩ := h <;> rfl

/-- An exact aligned read shows the bytes of the window from its offset up. -/
theorem exec_read_window {s : State} {b : BufId} {k n : Nat} {i : Instr} {addr : Word}
    (hi : (i, n) ∈ [(Instr.r8 addr, 1), (.r16 addr, 2), (.r32 addr, 4)]) (haddr : addr.toNat = b.base + k)
    (hk : k < b.windowSize) (hal : k % n = 0) (hexact : s.volatilePlace (.window b k) = false) :
    exec i s = .next (s.respond (busData ((List.range n).map fun j => s.windowByte b (k + j)))) := by
  rw [exec_read s hi, haddr, busRead_window (size_of_read hi) hk hal hexact]

/-- Settles O41: an exact read shows the window's bytes in their lanes; past the storage of a matrix a read is always
exact, and each of its bytes is 0. -/
theorem bufferReadIsLittleEndian : Obligations.BufferReadIsLittleEndian := by
  intro s b k noStorage addr byte answer
  have hread {i : Instr} {n : Nat} (hk : k < b.windowSize) (hexact : s.volatilePlace (.window b k) = false)
      (hi : (i, n) ∈ [(Instr.r8 addr, 1), (.r16 addr, 2), (.r32 addr, 4)]) (hal : k % n = 0) :
      exec i s = answer (Nat.ofDigits 256 ((List.range n).map byte)) := by
    have hbytes : (List.range n).map (fun j => (s.windowByte b (k + j)).toNat) = (List.range n).map byte := by
      have hfits := aligned_fits b (size_of_read hi) hk hal
      refine List.map_congr_left fun j hj => windowByte_toNat s ?_
      have := List.mem_range.1 hj
      omega
    rw [exec_read_window hi (window_addr_toNat b hk) hk hal hexact, busData_eq_ofDigits, List.map_map, ← hbytes]
    rfl
  refine ⟨fun hidle hk => ?stored, fun hpast hk => ?past⟩
  case stored =>
    have hexact := volatilePlace_idle hidle (.window b k)
    rw [← ofDigits_range_four, ← ofDigits_range_two, ← ofDigits_range_one byte]
    exact ⟨hread hk hexact (by simp) (Nat.mod_one k), hread hk hexact (by simp), hread hk hexact (by simp)⟩
  case past =>
    obtain ⟨hmatrix, hstored⟩ := hpast
    obtain ⟨hstorage, hwindow⟩ := matrix_window hmatrix
    have hexact := past_storage_not_volatile s (b := b) (k := k) (by rwa [hstorage])
    have hzero (n : Nat) : Nat.ofDigits 256 ((List.range n).map byte) = 0 := by
      have hbyte : byte = fun _ => 0 := funext fun j => if_pos ⟨hmatrix, by omega⟩
      simp [hbyte]
    have hread0 {i : Instr} (n : Nat) (hi : (i, n) ∈ [(Instr.r8 addr, 1), (.r16 addr, 2), (.r32 addr, 4)])
        (hal : k % n = 0) : exec i s = answer 0 := by
      rw [hread (by rwa [hwindow]) hexact hi hal, hzero]
    exact ⟨hread0 1 (by simp) (Nat.mod_one k), hread0 2 (by simp), hread0 4 (by simp)⟩

/-! ## Read after write (20_memory.md R84) -/

/-- The window of a word of the three buffers the host may write. -/
theorem hostWord_window {a : Nat} (hal : a % 4 = 0) (hlow : 0x1000 ≤ a) (hhigh : a < 0x4000) :
    ∃ (b : BufId) (k : Nat), b.hostWritable = true ∧ a = b.base + k ∧ k % 4 = 0 ∧ k + 4 ≤ b.windowSize := by
  have hlegal : busError a 4 true = false :=
    (busError_eq_false_iff _ _ _).2 ⟨hal, .inr (.inl ((window_access_iff a true).2 (.inl ⟨hlow, hhigh⟩)))⟩
  rcases legal_write hlegal (by decide) with ⟨hpage, -, -⟩ | hwindow
  · omega
  · exact hwindow

/-- An idle read of a word of a buffer that the host may write. -/
theorem exec_r32_hostWord {s : State} {a : Word} {b : BufId} {k : Nat} (hidle : s.status.busy = false)
    (hwritable : b.hostWritable = true) (ha : a.toNat = b.base + k) (hal : k % 4 = 0) (hk : k + 4 ≤ b.windowSize) :
    exec (.r32 a) s = .next (s.respond (busData (s.bufBytes b k 4))) := by
  have hbytes : (List.range 4).map (fun j => s.windowByte b (k + j)) = s.bufBytes b k 4 := by
    refine List.map_congr_left fun j hj => windowByte_hostWritable s hwritable ?_
    have := List.mem_range.1 hj
    omega
  rw [exec_read_window (by simp) ha (by omega) hal (volatilePlace_idle hidle _), hbytes]

theorem exec_w32_hostWord {s : State} {a : Word} {b : BufId} {k : Nat} (w : Word) (hidle : s.status.busy = false)
    (hwritable : b.hostWritable = true) (ha : a.toNat = b.base + k) (hal : k % 4 = 0) (hk : k + 4 ≤ b.windowSize) :
    exec (.w32 a w) s = .next ((s.writeBuf b k ((List.range 4).map (wordByte w))).respond 0#32) := by
  rw [← busWrite_window w hidle hwritable (by decide) (by omega) hal, ← ha]
  rfl

theorem bufBytes_respond (s : State) (d : Word) (b : BufId) (k n : Nat) :
    (s.respond d).bufBytes b k n = s.bufBytes b k n :=
  bufBytes_congr fun _ _ => bufByte_congr (respond_buf s d b) _

/-- Reading back what was written, at any offset of a buffer. -/
theorem bufBytes_writeBuf_at (s : State) (b : BufId) (k : Nat) (bs : List Byte) :
    (s.writeBuf b k bs).bufBytes b k bs.length = bs := by
  refine List.ext_getElem (bufBytes_length ..) fun i _ hi => ?_
  simp [State.bufBytes, bufByte_writeBuf, hi]

/-- A write leaves the bytes of every range that it does not meet. -/
theorem bufBytes_writeBuf_apart (s : State) {b c : BufId} {k j n : Nat} {bs : List Byte}
    (h : c ≠ b ∨ j + n ≤ k ∨ k + bs.length ≤ j) : (s.writeBuf b k bs).bufBytes c j n = s.bufBytes c j n := by
  refine bufBytes_congr fun i hi => ?_
  rw [bufByte_writeBuf, if_neg]
  rintro ⟨hc, hlow, hhigh⟩
  rcases h with h | h | h
  · exact h hc
  · omega
  · omega

/-- Settles O43: two aligned words are the same or do not meet. -/
theorem readReturnsTheLatestWrite : Obligations.ReadReturnsTheLatestWrite := by
  intro s a a' w hidle hal hal' hlow hhigh hlow' hhigh'
  obtain ⟨b, k, hwritable, ha, hk, hfits⟩ := hostWord_window hal hlow hhigh
  obtain ⟨b', k', hwritable', ha', hk', hfits'⟩ := hostWord_window hal' hlow' hhigh'
  refine ⟨_, _, _, exec_w32_hostWord w hidle hwritable ha hk hfits,
    exec_r32_hostWord (by simp [hidle]) hwritable' ha' hk' hfits', exec_r32_hostWord hidle hwritable' ha' hk' hfits', ?_⟩
  simp only [respond_resp, bufBytes_respond]
  split
  case isTrue hsame =>
    rw [hsame, ha] at ha'
    obtain rfl : b' = b := covers_unique (a := b'.base + k') ((covers_iff _ _).2 ⟨by omega, by omega⟩)
      ((covers_iff _ _).2 ⟨by omega, by omega⟩)
    obtain rfl : k = k' := Nat.add_left_cancel ha'
    exact (congrArg busData (bufBytes_writeBuf_at s b' k _)).trans (lowBytes_four w)
  case isFalse hother =>
    rw [bufBytes_writeBuf_apart]
    rw [List.length_map, List.length_range]
    by_cases hb : b' = b
    · subst hb
      have hk : k' ≠ k := fun h => hother (BitVec.eq_of_toNat_eq (by rw [ha, ha', h]))
      omega
    · exact .inl hb

/-! ## While a command is pending (20_memory.md R87) -/

/-- Settles O50: of the HOST steps of a BUSY QRE, an ABORT ends the command, an acceptance does not happen, and a
store reaches only IRQ_EN and IRQ_PEND. -/
theorem pendingCommandKeepsItsInputs : Obligations.PendingCommandKeepsItsInputs := by
  intro i s t hbusy hexec hstill
  rcases host_cases hexec with ⟨r, d, rfl, -⟩ | ⟨r, -, rfl⟩ | ⟨r, -, rfl⟩ | ⟨r, op, hidle, -, -, -⟩
    | ⟨r, a, n, w, -, -, hwritten, -, rfl⟩
  · rfl
  · rfl
  · rw [abort_busy hbusy] at hstill; cases hstill
  · rw [hbusy] at hidle; cases hidle
  · rcases hwritten hbusy with rfl | rfl <;> rfl

end Sys2Proof.Machine
end

section
/-! SUPPORT. The decoder inverts the encoder, row by row of the two opcode tables (30_encoding.md R100, R101, R103), and
a command does the same as an instruction and as the data of a write to CMD. -/

namespace Sys2Proof

/-! ## Command words (30_encoding.md R100, R101) -/

theorem opcodeOf_toNat (w : Word) : (opcodeOf w).toNat = w.toNat % 16 := by simp [opcodeOf]

theorem opcodeOf_congr {v w : Word} (h : w.toNat % 16 = v.toNat % 16) : opcodeOf w = opcodeOf v :=
  BitVec.eq_of_toNat_eq (by rw [opcodeOf_toNat, opcodeOf_toNat, h])

theorem opcodeOf_setWidth (op : BitVec 4) : opcodeOf (op.setWidth 32) = op :=
  BitVec.eq_of_toNat_eq (by simp [opcodeOf_toNat, Nat.mod_eq_of_lt op.isLt])

theorem decode_encodeCommand (op : BitVec 4) : decode (encodeCommand op) = some (commandOf op) := by
  rw [encodeCommand, decode_bytesOfWord, decodeCommand, opcodeOf_setWidth]

/-- The command table as a list in the order of OPCODE. -/
theorem commandRows_getElem? : ∀ op : BitVec 4,
    [Instr.nop, .pack, .ecc, .place, .mask, .encode, .vector, .rs, .reserved8, .reserved9, .reservedA, .reservedB,
      .reservedC, .reservedD, .reservedE, .abort][op.toNat]? = some (commandOf op) := by decide

/-! ## Bus descriptors (30_encoding.md R103) -/

theorem decode_encodeBus (desc : BitVec 4) (addr wdata : Word) :
    decode (encodeBus desc addr wdata) = decodeBus (desc.setWidth 8) addr wdata :=
  decode_descriptor _ addr wdata

theorem and_lowBits (w : Word) (n : Nat) :
    w &&& BitVec.ofNat 32 (2 ^ n - 1) = BitVec.ofNat 32 (w.toNat % 2 ^ n) := by
  rw [← Nat.and_two_pow_sub_one_eq_mod, BitVec.ofNat_and, BitVec.ofNat_toNat, BitVec.setWidth_eq]

theorem decodeBus_w8 (addr wdata : Word) :
    decodeBus 0x08#8 addr wdata = some (.w8 addr (BitVec.ofNat 32 (wdata.toNat % 256))) :=
  congrArg (fun lanes => some (Instr.w8 addr lanes)) (and_lowBits wdata 8)

theorem decodeBus_w16 (addr wdata : Word) :
    decodeBus 0x09#8 addr wdata = some (.w16 addr (BitVec.ofNat 32 (wdata.toNat % 65536))) :=
  congrArg (fun lanes => some (Instr.w16 addr lanes)) (and_lowBits wdata 16)

/-- SZ = 3, DESC[2] = 1, and a bit above DESC[3] are no transaction. -/
theorem decodeBus_eq_none {d : Byte} (h : d ∉ [0x00#8, 0x01#8, 0x02#8, 0x08#8, 0x09#8, 0x0A#8]) (addr wdata : Word) :
    decodeBus d addr wdata = none := by
  simp only [List.mem_cons, List.not_mem_nil, or_false, not_or, ← BitVec.toNat_inj] at h
  obtain ⟨hr8, hr16, hr32, hw8, hw16, hw32⟩ := h
  unfold decodeBus
  split
  · exact absurd ‹_› hr8
  · exact absurd ‹_› hr16
  · exact absurd ‹_› hr32
  · exact absurd ‹_› hw8
  · exact absurd ‹_› hw16
  · exact absurd ‹_› hw32
  · rfl

/-! ## The decoder on what the encoder makes, and on written-out words -/

/-- Data that fits its lanes is what the lanes keep. -/
theorem ofNat_mod_of_lt {w : Word} {k : Nat} (h : w.toNat < k) : BitVec.ofNat 32 (w.toNat % k) = w := by
  rw [Nat.mod_eq_of_lt h, BitVec.ofNat_toNat, BitVec.setWidth_eq]

/-- Settles O1: a command comes back by its OPCODE and a transaction by its DESC, where well-formedness says that a
narrow write loses nothing of its data. -/
theorem decodeOfEncodeIsTheInstruction : Obligations.DecodeOfEncodeIsTheInstruction := by
  intro i hwf
  cases i with
  | r8 addr => exact decode_encodeBus 0x0#4 addr 0#32
  | r16 addr => exact decode_encodeBus 0x1#4 addr 0#32
  | r32 addr => exact decode_encodeBus 0x2#4 addr 0#32
  | w8 addr wdata =>
    have hlanes : wdata.toNat < 256 := of_decide_eq_true hwf
    calc decode (encode (.w8 addr wdata)) = decodeBus 0x08#8 addr wdata := decode_encodeBus 0x8#4 addr wdata
      _ = some (.w8 addr wdata) := by rw [decodeBus_w8, ofNat_mod_of_lt hlanes]
  | w16 addr wdata =>
    have hlanes : wdata.toNat < 65536 := of_decide_eq_true hwf
    calc decode (encode (.w16 addr wdata)) = decodeBus 0x09#8 addr wdata := decode_encodeBus 0x9#4 addr wdata
      _ = some (.w16 addr wdata) := by rw [decodeBus_w16, ofNat_mod_of_lt hlanes]
  | w32 addr wdata => exact decode_encodeBus 0xA#4 addr wdata
  | nop | pack | ecc | place | mask | encode | vector | rs | reserved8 | reserved9 | reservedA | reservedB | reservedC
  | reservedD | reservedE | abort => exact decode_encodeCommand _

/-- Settles O4: eleven closed words, each run through the decoder. -/
theorem writtenOutWordsDecode : Obligations.WrittenOutWordsDecode := by
  unfold Obligations.WrittenOutWordsDecode
  decide

end Sys2Proof

namespace Sys2Proof.Machine

/-! ## Commands as instructions and as writes to CMD (30_encoding.md R100, R114) -/

/-- Every row of the command table writes its own OPCODE to CMD. -/
theorem exec_commandOf (op : BitVec 4) (s : State) : exec (commandOf op) s = .next (s.commandWrite op) := by
  obtain ⟨⟨n, hn⟩⟩ := op
  change n < 16 at hn
  interval_cases n <;> rfl

theorem exec_w32_cmd (w : Word) (s : State) :
    exec (.w32 0x00000004#32 w) s = .next (s.commandWrite (opcodeOf w)) := by
  have hlegal : busError 0x004 4 true = false := by decide
  have hwrite : s.busWrite 0x004 4 w = s.commandWrite (opcodeOf w) := by
    simp [State.busWrite, State.commandWrite, hlegal]
  exact congrArg Host.Outcome.next hwrite

/-- A reserved opcode issued while idle ends at once in ILLEGAL_COMMAND (40_host_bus.md R139). -/
theorem commandWrite_reserved {s : State} {op : BitVec 4} (hidle : s.status.busy = false) (hlow : 8 ≤ op.toNat)
    (hhigh : op.toNat ≤ 14) :
    s.commandWrite op =
      ((s.acceptOutcome op).errorEnd { code := errIllegalCommand, stage := 0#3 }).respond 0#32 := by
  rw [State.commandWrite, ← accept_reserved s hlow]
  rcases issueCommand_cases s op with ⟨hnop, -⟩ | ⟨habort, -⟩ | ⟨-, -, hbusy, -⟩ | ⟨-, -, -, haccept⟩
  · omega
  · omega
  · rw [hidle] at hbusy; cases hbusy
  · rw [haccept]

/-- Settles O2: the decoder reads the row of the low four bits, and a reserved row is the error end. -/
theorem everyCommandWordDecodesByItsOpcode : Obligations.EveryCommandWordDecodesByItsOpcode := by
  intro w
  rw [← opcodeOf_toNat]
  refine ⟨⟨_, decode_bytesOfWord w, commandRows_getElem? _⟩, fun hlow hhigh s hidle =>
    ⟨_, _, decode_bytesOfWord w, exec_commandOf _ s, ?_⟩⟩
  rw [commandWrite_reserved hidle hlow hhigh]
  exact ⟨rfl, rfl, rfl⟩

/-- Settles O3: one row of the descriptor table per case, and the refusal of what no row lists. -/
theorem busDescriptorsDecode : Obligations.BusDescriptorsDecode := by
  intro d addr wdata
  rw [decode_descriptor]
  refine ⟨?decoded, fun hother s ts hturn => step_host_refused hturn ?refused⟩
  case decoded =>
    split_ifs with hr8 hr16 hr32 hw8 hw16 hw32
    · rw [hr8]; rfl
    · rw [hr16]; rfl
    · rw [hr32]; rfl
    · rw [hw8, decodeBus_w8]
    · rw [hw16, decodeBus_w16]
    · rw [hw32]; rfl
    · exact decodeBus_eq_none (by simp [hr8, hr16, hr32, hw8, hw16, hw32]) addr wdata
  case refused => rw [decode_descriptor, decodeBus_eq_none hother]

/-- Settles O6: the write and the instruction issue the same command, which never answers a bus error. -/
theorem commandIsTheWriteToCmd : Obligations.CommandIsTheWriteToCmd := by
  intro w s
  refine ⟨?asInstruction, fun v hlow => ?ignoredBits, _, exec_w32_cmd w s, rfl⟩
  case asInstruction => exact (exec_w32_cmd w s).trans (exec_commandOf _ s).symm
  case ignoredBits => rw [exec_w32_cmd, exec_w32_cmd, opcodeOf_congr hlow]

end Sys2Proof.Machine
end

section
/-! SUPPORT. Commands on the bus: what each opcode does while idle and while BUSY (40_host_bus.md R132-R134, R138,
R139), the free contents that an ABORT leaves (R135, R136), how the ENGINE's turn ends a command (R137), and the bytes
that a write to a window stores (R131). -/

namespace Sys2Proof.Machine

/-! ## NOP, acceptance and dropping -/

theorem exec_nop (s : State) : exec .nop s = .next (s.respond 0#32) := rfl

theorem exec_abort (s : State) : exec .abort s = .next (s.abort.respond 0#32) := rfl

/-- Any other opcode is dropped while BUSY and accepted while idle (40_host_bus.md R133, R134). -/
theorem commandWrite_other (s : State) {op : BitVec 4} (hlow : 1 ≤ op.toNat) (hhigh : op.toNat ≤ 14) :
    s.commandWrite op = (if s.status.busy = true then s.dropWrite else s.accept op).respond 0#32 := by
  rw [State.commandWrite]
  rcases issueCommand_cases s op with ⟨hnop, -⟩ | ⟨habort, -⟩ | ⟨-, -, hbusy, hdrop⟩ | ⟨-, -, hidle, haccept⟩
  · omega
  · omega
  · rw [hdrop, if_pos hbusy]
  · rw [haccept, if_neg (by simp [hidle])]

/-- The stage commands, with their opcodes (30_encoding.md R101). -/
def stageRows : List (Instr × BitVec 4) :=
  [(.pack, 1#4), (.ecc, 2#4), (.place, 3#4), (.mask, 4#4), (.encode, 5#4), (.vector, 6#4), (.rs, 7#4)]

/-- The reserved opcodes. -/
def reservedRows : List (Instr × BitVec 4) :=
  [(.reserved8, 8#4), (.reserved9, 9#4), (.reservedA, 10#4), (.reservedB, 11#4), (.reservedC, 12#4),
    (.reservedD, 13#4), (.reservedE, 14#4)]

theorem stageRows_spec {i : Instr} {op : BitVec 4} (hrow : (i, op) ∈ stageRows) :
    i = commandOf op ∧ 1 ≤ op.toNat ∧ op.toNat < 8 := by
  have hrows : ∀ row ∈ stageRows, row.1 = commandOf row.2 ∧ 1 ≤ row.2.toNat ∧ row.2.toNat < 8 := by decide
  exact hrows (i, op) hrow

theorem reservedRows_spec {i : Instr} {op : BitVec 4} (hrow : (i, op) ∈ reservedRows) :
    i = commandOf op ∧ 8 ≤ op.toNat ∧ op.toNat ≤ 14 := by
  have hrows : ∀ row ∈ reservedRows, row.1 = commandOf row.2 ∧ 8 ≤ row.2.toNat ∧ row.2.toNat ≤ 14 := by decide
  exact hrows (i, op) hrow

theorem exec_stage_idle {s : State} {i : Instr} {op : BitVec 4} (hidle : s.status.busy = false)
    (hrow : (i, op) ∈ stageRows) :
    exec i s = .next
      (State.respond
        { s.acceptOutcome op with
          pendingOp := op, status := { (s.acceptOutcome op).status with busy := true } } 0#32) := by
  obtain ⟨rfl, hlow, hhigh⟩ := stageRows_spec hrow
  rw [exec_commandOf, commandWrite_other s hlow (by omega), if_neg (by simp [hidle]), accept_stage s hhigh]

theorem exec_reserved_idle {s : State} {i : Instr} {op : BitVec 4} (hidle : s.status.busy = false)
    (hrow : (i, op) ∈ reservedRows) :
    exec i s = .next
      (((s.acceptOutcome op).errorEnd { code := errIllegalCommand, stage := 0#3 }).respond 0#32) := by
  obtain ⟨rfl, hlow, hhigh⟩ := reservedRows_spec hrow
  rw [exec_commandOf, commandWrite_reserved hidle hlow hhigh]

/-- While BUSY every command but NOP and ABORT is dropped (40_host_bus.md R134). -/
theorem exec_dropped {s : State} {i : Instr} (hbusy : s.status.busy = true)
    (hrow : i ∈ (stageRows ++ reservedRows).map Prod.fst) : exec i s = .next (s.dropWrite.respond 0#32) := by
  obtain ⟨⟨j, op⟩, hmem, rfl⟩ := List.mem_map.1 hrow
  obtain ⟨rfl, hlow, hhigh⟩ : j = commandOf op ∧ 1 ≤ op.toNat ∧ op.toNat ≤ 14 := by
    rcases List.mem_append.1 hmem with hstage | hreserved
    · exact (stageRows_spec hstage).imp_right fun ⟨hlow, hhigh⟩ => ⟨hlow, by omega⟩
    · exact (reservedRows_spec hreserved).imp_right fun ⟨hlow, hhigh⟩ => ⟨by omega, hhigh⟩
  rw [exec_commandOf, commandWrite_other s hlow hhigh, if_pos hbusy]

/-- Settles O7: NOP leaves the state to the response, and the word's low four bits alone make it a NOP. -/
theorem nopChangesNoState : Obligations.NopChangesNoState := by
  intro s w
  refine ⟨exec_nop s, fun hlow => ?_⟩
  have hnop : opcodeOf w = 0x0#4 := BitVec.eq_of_toNat_eq ((opcodeOf_toNat w).trans hlow)
  rw [exec_w32_cmd, hnop]
  exact exec_nop s

/-- Settles O8: a stage row is accepted as pending, a reserved row is accepted into its error end, whose row revokes
no flag, and a reserved row is dropped while BUSY. -/
theorem idleCommandIsAccepted : Obligations.IdleCommandIsAccepted := by
  refine fun s => ⟨fun hidle => ⟨fun i op hrow => ?stage, fun i op hrow => ?reserved⟩, fun hbusy i hrow => ?dropped⟩
  case stage => exact exec_stage_idle hidle hrow
  case reserved => exact exec_reserved_idle hidle hrow
  case dropped => exact exec_dropped hbusy (List.mem_append_right (stageRows.map Prod.fst) hrow)

/-- Settles O9: of the sixteen opcodes only NOP and ABORT are not dropped while BUSY. -/
theorem commandWriteWhileBusy : Obligations.CommandWriteWhileBusy := by
  refine fun s hbusy => ⟨fun i hrow => exec_dropped hbusy hrow, exec_nop s, _, exec_abort s, ?_⟩
  rw [abort_busy hbusy]
  exact ⟨rfl, rfl⟩

/-! ## The free contents that an ABORT leaves -/

/-- What a location of a WriteSet holds. -/
def Loc.Contents : Loc → Type
  | .buf _ => Buffer
  | .symbolVersion => BitVec 6
  | .symbolLevel => BitVec 2
  | .symbolMask => BitVec 3
  | .dataCount => BitVec 12
  | .cwCount => BitVec 12
  | .mside => BitVec 8
  | .formatBits => BitVec 15
  | .versionBits => BitVec 18
  | .penalties => Penalties
  | .penaltyTerms => PenaltyTerms
  | .vecCount => BitVec 16
  | .vecExtent => BitVec 8

/-- The contents of a location in the state. -/
def State.contents (s : State) : (l : Loc) → l.Contents
  | .buf b => s.buf b
  | .symbolVersion => s.symbol.version
  | .symbolLevel => s.symbol.level
  | .symbolMask => s.symbol.mask
  | .dataCount => s.dataCount
  | .cwCount => s.cwCount
  | .mside => s.mside
  | .formatBits => s.formatBits
  | .versionBits => s.versionBits
  | .penalties => s.penalty
  | .penaltyTerms => s.penTerms
  | .vecCount => s.vecCount
  | .vecExtent => s.vecExtent

/-- The free contents that draw `d` gives a location (40_host_bus.md R135). -/
def Loc.drawn (d : Nat) : (l : Loc) → l.Contents
  | .buf _ => Buffer.unspecified d
  | .symbolVersion => drawnField d 0x024 0 6
  | .symbolLevel => drawnField d 0x024 8 2
  | .symbolMask => drawnField d 0x024 12 3
  | .dataCount => drawnField d 0x028 0 12
  | .cwCount => drawnField d 0x02C 0 12
  | .mside => drawnField d 0x030 0 8
  | .formatBits => drawnField d 0x034 0 15
  | .versionBits => drawnField d 0x038 0 18
  | .penalties =>
    { p0 := drawnField d 0x060 0 32, p1 := drawnField d 0x064 0 32, p2 := drawnField d 0x068 0 32
      p3 := drawnField d 0x06C 0 32, p4 := drawnField d 0x070 0 32, p5 := drawnField d 0x074 0 32
      p6 := drawnField d 0x078 0 32, p7 := drawnField d 0x07C 0 32 }
  | .penaltyTerms =>
    { n1 := drawnField d 0x080 0 32, n2 := drawnField d 0x084 0 32, n3 := drawnField d 0x088 0 32
      n4 := drawnField d 0x08C 0 32 }
  | .vecCount => drawnField d 0x040 0 16
  | .vecExtent => drawnField d 0x044 0 8

/-- The commands whose WriteSet has the location (40_host_bus.md R136, read by location). -/
def Loc.writers : Loc → List Nat
  | .buf .inbuf => []
  | .buf .datacw => [1, 5]
  | .buf .finalcw => [2, 5]
  | .buf .rsout => [7]
  | .buf .funcmap => [3, 5]
  | .buf .placed => [3, 5]
  | .buf .matrix => [4, 5]
  | .buf .vecbuf => [6]
  | .symbolVersion => [1, 5]
  | .symbolLevel => [1, 5]
  | .symbolMask => [4, 5]
  | .dataCount => [1, 2, 5]
  | .cwCount => [2, 5]
  | .mside => [3, 5]
  | .formatBits => [4, 5]
  | .versionBits => [4, 5]
  | .penalties => [4, 5]
  | .penaltyTerms => [4, 5]
  | .vecCount => [6]
  | .vecExtent => [6]

theorem mem_writeSet_iff (l : Loc) (op : BitVec 4) : l ∈ writeSet op ↔ op.toNat ∈ l.writers := by
  revert op
  cases l with
  | buf b => cases b <;> decide
  | _ => decide

/-- A forgotten location is at its drawn contents, every other is as it was. -/
theorem contents_forget (d : Nat) (s : State) (l l' : Loc) :
    (s.forget d l').contents l = if l' = l then l.drawn d else s.contents l := by
  cases l with
  | buf b => exact forget_buf d s l' b
  | _ =>
    cases l' with
    | buf c => cases c <;> rfl
    | _ => rfl

theorem contents_foldl_forget (d : Nat) (ls : List Loc) (s : State) (l : Loc) :
    (ls.foldl (State.forget d) s).contents l = if l ∈ ls then l.drawn d else s.contents l := by
  induction ls generalizing s with
  | nil => simp
  | cons l' ls ih =>
    rw [List.foldl_cons, ih, contents_forget]
    by_cases hlater : l ∈ ls <;> simp [hlater, eq_comm (a := l)]

/-- Everything an ABORT while BUSY does to the locations of WriteSets. -/
theorem contents_abort {s : State} (hbusy : s.status.busy = true) (l : Loc) :
    s.abort.contents l = if s.pendingOp.toNat ∈ l.writers then l.drawn s.nextDraw else s.contents l := by
  have hforgotten : s.abort.contents l = if l ∈ writeSet s.pendingOp then l.drawn s.nextDraw else s.contents l := by
    rw [← contents_foldl_forget, abort_busy hbusy]
    cases l with
    | buf b => cases b <;> rfl
    | _ => rfl
  simpa only [mem_writeSet_iff] using hforgotten

theorem get_drawn_penalties (d : Nat) {m : Nat} (hm : m < 8) :
    Penalties.get (Loc.penalties.drawn d) m = drawnField d (0x060 + 4 * m) 0 32 := by
  interval_cases m <;> rfl

/-- A byte of a buffer after an ABORT. -/
theorem bufByte_abort {s : State} (hbusy : s.status.busy = true) (b : BufId) (k : Nat) :
    s.abort.bufByte b k =
      if s.pendingOp.toNat ∈ (Loc.buf b).writers then Config.unspecifiedByte s.nextDraw (b.base + k)
      else s.bufByte b k := by
  have hbuf : s.abort.buf b =
      if s.pendingOp.toNat ∈ (Loc.buf b).writers then Buffer.unspecified s.nextDraw else s.buf b :=
    contents_abort hbusy (.buf b)
  rw [State.bufByte, hbuf]
  split <;> rfl

/-- The error row of a pending command, by its opcode (10_state.md R57, 40_host_bus.md R135). -/
theorem errorRow_stageOfCommand (op : BitVec 4) (st : Status) :
    st.errorRow (stageOfCommand op) =
      { st with
        vPack := st.vPack && !decide (op.toNat ∈ [1, 5])
        vEcc := st.vEcc && !decide (op.toNat ∈ [1, 2, 5])
        vPlace := st.vPlace && !decide (op.toNat ∈ [1, 2, 3, 5])
        vMask := st.vMask && !decide (op.toNat ∈ [1, 2, 3, 4, 5])
        vVec := st.vVec && !decide (op.toNat ∈ [1, 2, 3, 4, 5, 6]) } := by
  obtain ⟨⟨n, hn⟩⟩ := op
  change n < 16 at hn
  interval_cases n <;> simp [Status.errorRow, stageOfCommand]

/-- The buffers of the address map, each with the commands that write it. -/
theorem writers_of_buffer : ∀ row ∈ [(BufId.inbuf, []), (.datacw, [1, 5]), (.finalcw, [2, 5]), (.rsout, [7]),
    (.funcmap, [3, 5]), (.placed, [3, 5]), (.matrix, [4, 5]), (.vecbuf, [6])],
    (Loc.buf row.1).writers = row.2 := by
  decide

/-- Settles O10: idle, ABORT is nothing; BUSY, each register and buffer is a location whose contents `contents_abort`
gives, or a field that no WriteSet names. -/
theorem abortEndsThePendingCommand : Obligations.AbortEndsThePendingCommand := by
  refine fun s => ⟨fun hidle => ?idle, fun hbusy => ⟨_, exec_abort s, ?busy⟩⟩
  case idle =>
    rw [exec_abort, abort_idle hidle]
    rfl
  case busy =>
    intro p d
    have hlast : s.abort.lastOp = 0xF#4 := by rw [abort_busy hbusy]
    have hstatus : s.abort.status =
        { s.status.errorRow (stageOfCommand s.pendingOp) with
          busy := false, aborted := true, done := false, error := false, errcode := 0#4, errstage := 0#3 } := by
      rw [abort_busy hbusy]
    have hpenalty : s.abort.penalty = if p ∈ [4, 5] then Loc.penalties.drawn d else s.penalty :=
      contents_abort hbusy .penalties
    rw [errorRow_stageOfCommand] at hstatus
    refine ⟨hstatus, hlast, abort_irqPend s, abort_resultTag s, abort_irqEn s, abort_config s, abort_inLen s,
      abort_jobTag s, abort_rsParam s, abort_rasterSize s, abort_colorDark s, abort_colorLight s, abort_turns s,
      abort_pendingOp s, abort_pendingTag s, rfl, contents_abort hbusy .symbolVersion,
      contents_abort hbusy .symbolLevel, contents_abort hbusy .symbolMask, contents_abort hbusy .dataCount,
      contents_abort hbusy .cwCount, contents_abort hbusy .mside, contents_abort hbusy .formatBits,
      contents_abort hbusy .versionBits, contents_abort hbusy .vecCount, contents_abort hbusy .vecExtent,
      fun m hm => ?penalty, contents_abort hbusy .penaltyTerms, fun b ops hrow k => ?byte⟩
    case penalty =>
      rw [respond_penalty, hpenalty, ← get_drawn_penalties d hm]
      exact apply_ite (Penalties.get · m) _ _ _
    case byte =>
      obtain rfl : (Loc.buf b).writers = ops := writers_of_buffer (b, ops) hrow
      rw [bufByte_congr (respond_buf s.abort 0#32 b)]
      exact bufByte_abort hbusy b k

/-! ## The ENGINE's turn -/

/-- Settles O11: the body either completes, over a state that keeps the schedule, the tags and the interrupt registers,
or ends in the error end. -/
theorem engineTurnEndsThePendingCommand : Obligations.EngineTurnEndsThePendingCommand := by
  intro s ts hturn hbusy
  refine ⟨_, step_engine hturn, ?_⟩
  rw [engineTurn_busy (s := { s with turns := ts }) hbusy]
  rcases engineComplete_cases { s with turns := ts } with ⟨t, hbody, hend⟩ | ⟨e, -, hend⟩ <;> rw [hend]
  · have hframe := commandBody_frame hbody
    refine ⟨rfl, hframe.turns, hframe.pendingTag, hframe.lastOp, hframe.irqEn, hframe.resp, .inl ⟨rfl, ?_⟩⟩
    rw [complete_irqPend, hframe.irqPend]
  · exact ⟨rfl, rfl, rfl, rfl, rfl, rfl, .inr ⟨rfl, rfl, rfl⟩⟩

/-! ## The bytes that a write stores -/

theorem wordByte_eq_ofNat (w : Word) (i : Nat) : wordByte w i = BitVec.ofNat 8 (w.toNat / 256 ^ i) := by
  refine BitVec.eq_of_toNat_eq ?_
  rw [wordByte, BitVec.toNat_setWidth, BitVec.toNat_ushiftRight, Nat.shiftRight_eq_div_pow, Nat.pow_mul,
    BitVec.toNat_ofNat]

theorem size_of_write {i : Instr} {addr w : Word} {n : Nat}
    (h : (i, n) ∈ [(Instr.w8 addr w, 1), (.w16 addr w, 2), (.w32 addr w, 4)]) : n = 1 ∨ n = 2 ∨ n = 4 := by
  simp only [List.mem_cons, Prod.mk.injEq, List.not_mem_nil, or_false] at h
  exact h.imp (·.2) (·.imp (·.2) (·.2))

theorem exec_write (s : State) {i : Instr} {addr w : Word} {n : Nat}
    (h : (i, n) ∈ [(Instr.w8 addr w, 1), (.w16 addr w, 2), (.w32 addr w, 4)]) :
    exec i s = .next (s.busWrite addr.toNat n w) := by
  simp only [List.mem_cons, Prod.mk.injEq, List.not_mem_nil, or_false] at h
  rcases h with h | h | h <;> obtain ⟨rfl, rfl⟩ := h <;> rfl

/-- The bytes of every buffer after the low `n` bytes of a word are written to one of them. -/
theorem bufByte_writeBuf_word (s : State) (b c : BufId) (k n j : Nat) (w : Word) :
    (s.writeBuf b k ((List.range n).map (wordByte w))).bufByte c j =
      if c = b ∧ k ≤ j ∧ j < k + n then BitVec.ofNat 8 (w.toNat / 256 ^ (j - k)) else s.bufByte c j := by
  rw [bufByte_writeBuf, List.length_map, List.length_range]
  refine if_ctx_congr Iff.rfl (fun hin => ?_) fun _ => rfl
  obtain ⟨-, hlow, hhigh⟩ := hin
  have hlane : j - k < n := by omega
  simp [hlane, wordByte_eq_ofNat]

/-- Settles O42: an aligned write in a window the host may write is a write of that buffer, byte by byte. -/
theorem bufferWriteStoresItsBytes : Obligations.BufferWriteStoresItsBytes := by
  intro s b k w i n hidle hb hk hal addr hi
  have hwindow : b.hostWritable = true ∧ b.windowSize = 4096 := by
    simp only [List.mem_cons, List.not_mem_nil, or_false] at hb
    rcases hb with rfl | rfl | rfl <;> exact ⟨rfl, rfl⟩
  obtain ⟨hwritable, hsize⟩ := hwindow
  rw [← hsize] at hk
  have hwrite : s.busWrite addr.toNat n w = (s.writeBuf b k ((List.range n).map (wordByte w))).respond 0#32 := by
    rw [window_addr_toNat b hk, busWrite_window w hidle hwritable (size_of_write hi) hk hal]
  refine ⟨_, exec_write s hi, ?_⟩
  rw [hwrite]
  refine ⟨?registers, fun c j => ?bytes⟩
  case registers =>
    cases b
    case inbuf | datacw | finalcw => rfl
    all_goals cases hwritable
  case bytes => rw [bufByte_congr (respond_buf _ 0#32 c), bufByte_writeBuf_word]

end Sys2Proof.Machine
end

section
/-! SUPPORT. A stage command from its issue to its end, and PACK (41_packer.md R150-R162): the capacity of each level,
the packed stream as codewords, and what a host sees of the command. -/

namespace Sys2Proof.Machine

/-! ## A stage command from its issue to its end -/

/-- The state in which the ENGINE completes command `op`, accepted in `s` while idle (40_host_bus.md R133, R137). -/
def State.issued (s : State) (op : BitVec 4) (ts : List Turn) : State :=
  { s.acceptOutcome op with
    pendingOp := op
    status := { (s.acceptOutcome op).status with busy := true }
    turns := ts
    resp := { err := false, data := 0#32 } }

/-- A stage command issued while idle, with the ENGINE's turn next, is accepted, and the next step ends it. -/
theorem exec_stage_then_step {s : State} {ts : List Turn} {i : Instr} {op : BitVec 4} (hidle : s.status.busy = false)
    (hturn : s.turns = .engine :: ts) (hrow : (i, op) ∈ stageRows) :
    ∃ t, exec i s = .next t ∧ step t = .next (s.issued op ts).engineComplete := by
  refine ⟨_, exec_stage_idle hidle hrow, (step_engine (ts := ts) ?next).trans ?turn⟩
  case next => exact hturn
  case turn => exact congrArg Host.Outcome.next (engineTurn_busy (s := s.issued op ts) rfl)

/-! ## The capacity of a level -/

/-- Cap(40, L) of the level with the given register code, the most payload bytes it holds (41_packer.md R162). -/
def capacity (code : BitVec 2) : Nat := [2953, 2331, 1663, 1273].getD code.toNat 0

theorem fits_mono {v n m : Nat} {l : Level} (hnm : n ≤ m) (hm : fits v l m = true) : fits v l n = true := by
  rw [fits_iff] at hm ⊢
  omega

/-- The capacity fits in version 40. -/
theorem fits_capacity : ∀ code : BitVec 2, fits 40 (Level.ofCode code) (capacity code) = true := by decide

/-- One byte more fits in no version. -/
theorem not_fits_capacity_succ :
    ∀ code : BitVec 2, ∀ v < 41, fits v (Level.ofCode code) (capacity code + 1) = false := by decide

theorem capacity_le_maxPayload : ∀ code : BitVec 2, capacity code ≤ maxPayload := by decide

/-- ChooseVersion fails exactly above the capacity (41_packer.md R152, R162). -/
theorem chooseVersion_eq_none_iff (code : BitVec 2) (n : Nat) :
    chooseVersion (Level.ofCode code) n = none ↔ capacity code < n := by
  constructor
  · intro hnone
    by_contra hle
    have hfits : fits 40 (Level.ofCode code) n = true := fits_mono (Nat.not_lt.1 hle) (fits_capacity code)
    rw [chooseVersion_none hnone 40 (by decide) (by decide)] at hfits
    cases hfits
  · intro hlt
    cases hchosen : chooseVersion (Level.ofCode code) n with
    | none => rfl
    | some v =>
      obtain ⟨-, h40, hfits, -⟩ := chooseVersion_some hchosen
      have hmore := fits_mono (Nat.succ_le_of_lt hlt) hfits
      rw [not_fits_capacity_succ code v (by omega)] at hmore
      cases hmore

theorem exists_chooseVersion_of_le_capacity {code : BitVec 2} {n : Nat} (hn : n ≤ capacity code) :
    ∃ v, chooseVersion (Level.ofCode code) n = some v :=
  Option.ne_none_iff_exists'.1 fun hnone => Nat.not_lt.2 hn ((chooseVersion_eq_none_iff code n).1 hnone)

/-- Above the capacity of the level PACK errs (41_packer.md R157). -/
theorem packBody_above_capacity {s : State} (hn : capacity s.config.level < s.inLen.toNat) :
    packBody s = .error { code := errPayloadTooLarge, stage := 1#3 } := by
  rcases packBody_cases s with ⟨herr, -⟩ | ⟨v, -, -, -, hchosen⟩
  · exact herr
  · rw [(chooseVersion_eq_none_iff _ _).2 hn] at hchosen
    cases hchosen

/-! ## The packed stream as codewords -/

theorem bitsOfByte_byteOfBits : ∀ b7 b6 b5 b4 b3 b2 b1 b0 : Bool,
    bitsOfByte (byteOfBits b7 b6 b5 b4 b3 b2 b1 b0) = [b7, b6, b5, b4, b3, b2, b1, b0] := by decide

/-- The codewords of a stream of whole bytes have its bits (00_scope.md R12). -/
theorem flatMap_bitsOfByte_codewordsOf {bits : List Bool} (h : 8 ∣ bits.length) :
    (codewordsOf bits).flatMap bitsOfByte = bits := by
  induction bits using codewordsOf.induct with
  | case1 b7 b6 b5 b4 b3 b2 b1 b0 rest ih =>
    have hrest : 8 ∣ rest.length := by simp only [List.length_cons] at h; omega
    rw [codewordsOf, List.flatMap_cons, ih hrest, bitsOfByte_byteOfBits]
    rfl
  | case2 bits hshort =>
    have hnone : codewordsOf bits = [] := by
      rw [codewordsOf]
      exact hshort
    have hlength := codewordsOf_length bits
    rw [hnone, List.length_nil] at hlength
    have hempty : bits = [] := List.eq_nil_of_length_eq_zero (by omega)
    rw [hnone, hempty, List.flatMap_nil]

/-- The packed stream, written out (41_packer.md R150, R153-R156, R158). -/
theorem packStream_written_out {v : Nat} {l : Level} {p : List Byte} (h : fits v l p.length = true) :
    packStream v l p =
      [false, true, false, false] ++ putBits p.length (ccBits v) ++ p.flatMap bitsOfByte
        ++ [false, false, false, false]
        ++ (List.range (dataCodewords v l - (4 + ccBits v + 8 * p.length + 4) / 8)).flatMap
            (fun i => bitsOfByte (if i % 2 = 0 then 0xEC#8 else 0x11#8)) := by
  have hmode : putBits 0b0100 4 = [false, true, false, false] := by decide
  rw [packStream_eq h, headerAndPayload, hmode, padBytes, List.flatMap_map]
  rfl

/-! ## The command -/

/-- The codewords PACK writes at version `v`. -/
def State.packedCodewords (s : State) (v : Nat) : List Byte :=
  codewordsOf (packStream v (Level.ofCode s.config.level) (s.bufBytes .inbuf 0 s.inLen.toNat))

/-- The state PACK ends in at the chosen version `v` (41_packer.md R157). -/
def State.packed (s : State) (v : Nat) (ts : List Turn) : State :=
  { (s.afterOk 1#4 ts).withStages true false false false false with
    symbol := { version := BitVec.ofNat 6 v, level := s.config.level, mask := s.symbol.mask }
    dataCount := BitVec.ofNat 12 (dataCodewords v (Level.ofCode s.config.level))
    datacw := (s.writeBuf .datacw 0 (s.packedCodewords v)).datacw }

/-- PACK with a version chosen. -/
theorem engineComplete_pack {s : State} {v : Nat} (ts : List Turn) (hn : s.inLen.toNat ≤ capacity s.config.level)
    (hchosen : chooseVersion (Level.ofCode s.config.level) s.inLen.toNat = some v) :
    (s.issued 1#4 ts).engineComplete = s.packed v ts :=
  engineComplete_ok (s := s.issued 1#4 ts) (packBody_ok (hn.trans (capacity_le_maxPayload _)) hchosen)

/-- PACK above the capacity. -/
theorem engineComplete_pack_error {s : State} (ts : List Turn) (hn : capacity s.config.level < s.inLen.toNat) :
    (s.issued 1#4 ts).engineComplete = (s.afterError 1#4 1#4 1#3 ts).withStages false false false false false :=
  engineComplete_error (s := s.issued 1#4 ts) (packBody_above_capacity (s := s.issued 1#4 ts) hn)

/-- DATACW after PACK is DATACW after a write of the codewords. -/
theorem bufByte_packed_datacw (s : State) (v : Nat) (ts : List Turn) (k : Nat) :
    (s.packed v ts).bufByte .datacw k = (s.writeBuf .datacw 0 (s.packedCodewords v)).bufByte .datacw k :=
  rfl

section Fitting

variable {s : State} {v : Nat} (ts : List Turn)
  (hfits : fits v (Level.ofCode s.config.level) s.inLen.toNat = true)
include hfits

theorem fits_payload : fits v (Level.ofCode s.config.level) (s.bufBytes .inbuf 0 s.inLen.toNat).length = true := by
  rwa [bufBytes_length]

theorem packedCodewords_length : (s.packedCodewords v).length = dataCodewords v (Level.ofCode s.config.level) :=
  codewordsOf_packStream_length (fits_payload hfits)

/-- The first D bytes of DATACW after PACK are the packed stream. -/
theorem bits_packed_datacw :
    ((s.packed v ts).bufBytes .datacw 0 (dataCodewords v (Level.ofCode s.config.level))).flatMap bitsOfByte =
      packStream v (Level.ofCode s.config.level) (s.bufBytes .inbuf 0 s.inLen.toNat) := by
  rw [bufBytes_congr fun i _ => bufByte_packed_datacw s v ts (0 + i), ← packedCodewords_length hfits,
    bufBytes_writeBuf_same]
  exact flatMap_bitsOfByte_codewordsOf (Dvd.intro _ (packStream_length (fits_payload hfits)).symm)

/-- PACK leaves DATACW from D up (10_state.md R49). -/
theorem bufByte_packed_datacw_past {k : Nat} (hk : dataCodewords v (Level.ofCode s.config.level) ≤ k) :
    (s.packed v ts).bufByte .datacw k = s.bufByte .datacw k := by
  rw [bufByte_packed_datacw, bufByte_writeBuf, packedCodewords_length hfits, if_neg (by omega)]

end Fitting

/-- Settles O14: up to the capacity ChooseVersion finds the least version that fits and PACK ends in `State.packed`;
above it PACK ends in the error. -/
theorem packCommandWritesTheStream : Obligations.PackCommandWritesTheStream := by
  intro s ts hidle hturn n l cap
  obtain ⟨t, hexec, hstep⟩ := exec_stage_then_step (i := .pack) (op := 1#4) hidle hturn List.mem_cons_self
  refine ⟨t, _, hexec, hstep, fun hn => ?packed, fun hn => engineComplete_pack_error ts hn⟩
  case packed =>
    obtain ⟨v, hchosen⟩ := exists_chooseVersion_of_le_capacity hn
    obtain ⟨h1, h40, hfits, hleast⟩ := chooseVersion_some hchosen
    rw [engineComplete_pack ts hn hchosen]
    refine ⟨v, h1, h40, (fits_iff v l n).1 hfits, fun w hw hwv => ?least, rfl, ?stream, fun k hk =>
      bufByte_packed_datacw_past ts hfits hk⟩
    case least =>
      have hnot : ¬ fits w l n = true := by simp [hleast w hw hwv, l, n]
      rw [fits_iff] at hnot
      exact Nat.not_le.1 hnot
    case stream =>
      have hwritten := packStream_written_out (fits_payload hfits)
      rw [bufBytes_length] at hwritten
      exact (bits_packed_datacw ts hfits).trans hwritten

end Sys2Proof.Machine
end

section
/-! SUPPORT. The field GF(256) and the Reed-Solomon code (42_rs_ecc.md R170-R179, R191): ⊗ is linear in both factors, the
powers of α, and the value of data and parity at the roots of the generator. -/

namespace Sys2Proof.Machine

/-! ## ⊗ is linear in both factors (42_rs_ecc.md R170, R171) -/

theorem xor_xor_xor_cancel {n : Nat} (p q c : BitVec n) : p ^^^ c ^^^ (q ^^^ c) = p ^^^ q :=
  calc p ^^^ c ^^^ (q ^^^ c) = p ^^^ q ^^^ (c ^^^ c) := by ac_rfl
    _ = p ^^^ q := by rw [BitVec.xor_self, BitVec.xor_zero]

/-- ⊕ of a fixed vector under a condition is linear in the condition and in the vector added to. -/
theorem ite_xor {n : Nat} (x y : Bool) (p q c : BitVec n) :
    (if (x ^^ y) = true then p ^^^ q ^^^ c else p ^^^ q) =
      (if x = true then p ^^^ c else p) ^^^ (if y = true then q ^^^ c else q) := by
  cases x <;> cases y
  · rfl
  · exact BitVec.xor_assoc p q c
  · change p ^^^ q ^^^ c = p ^^^ c ^^^ q
    ac_rfl
  · exact (xor_xor_xor_cancel p q c).symm

theorem gfMulStep_xor_left (a a' b : Byte) (p p' : BitVec 9) (i : Nat) :
    gfMulStep (a ^^^ a') b (p ^^^ p') i = gfMulStep a b p i ^^^ gfMulStep a' b p' i := by
  simp only [gfMulStep, BitVec.shiftLeft_xor_distrib, BitVec.getLsbD_xor, ite_xor, BitVec.setWidth_xor]
  split
  · ac_rfl
  · rfl

theorem gfMulStep_xor_right (a b b' : Byte) (p p' : BitVec 9) (i : Nat) :
    gfMulStep a (b ^^^ b') (p ^^^ p') i = gfMulStep a b p i ^^^ gfMulStep a b' p' i := by
  simp only [gfMulStep, BitVec.shiftLeft_xor_distrib, BitVec.getLsbD_xor, ite_xor]

theorem gfMul_xor_left (a a' b : Byte) : gfMul (a ^^^ a') b = gfMul a b ^^^ gfMul a' b := by
  have hfold := List.foldl_hom₂ [7, 6, 5, 4, 3, 2, 1, 0] (fun x y : BitVec 9 => x ^^^ y) (gfMulStep a b)
    (gfMulStep a' b) (gfMulStep (a ^^^ a') b) 0#9 0#9 fun p p' i => (gfMulStep_xor_left a a' b p p' i).symm
  exact (congrArg (BitVec.setWidth 8) hfold).trans BitVec.setWidth_xor

theorem gfMul_xor_right (a b b' : Byte) : gfMul a (b ^^^ b') = gfMul a b ^^^ gfMul a b' := by
  have hfold := List.foldl_hom₂ [7, 6, 5, 4, 3, 2, 1, 0] (fun x y : BitVec 9 => x ^^^ y) (gfMulStep a b)
    (gfMulStep a b') (gfMulStep a (b ^^^ b')) 0#9 0#9 fun p p' i => (gfMulStep_xor_right a b b' p p' i).symm
  exact (congrArg (BitVec.setWidth 8) hfold).trans BitVec.setWidth_xor

@[simp] theorem zero_gfMul (a : Byte) : gfMul 0x00#8 a = 0x00#8 := by
  have h := gfMul_xor_left 0x00#8 0x00#8 a
  rwa [BitVec.xor_self, BitVec.xor_self] at h

@[simp] theorem gfMul_zero (a : Byte) : gfMul a 0x00#8 = 0x00#8 := by
  have h := gfMul_xor_right a 0x00#8 0x00#8
  rwa [BitVec.xor_self, BitVec.xor_self] at h

/-- A fact that ⊕ keeps and that holds of the eight powers x⁰, …, x⁷ holds of every byte. -/
theorem byte_induction {P : Byte → Prop} (xor : ∀ a b, P a → P b → P (a ^^^ b))
    (basis : ∀ i < 8, P (1#8 <<< i)) (a : Byte) : P a := by
  have hsum : ∀ a : Byte, a = ((List.range 8).filter a.getLsbD).foldr (fun i x => 1#8 <<< i ^^^ x) 0#8 := by
    decide +kernel
  have hzero : P 0#8 := by simpa using xor _ _ (basis 0 (by decide)) (basis 0 (by decide))
  rw [hsum a]
  refine List.foldrRecOn _ _ hzero fun x hx i hi => xor _ _ (basis i ?_) hx
  exact List.mem_range.1 (List.mem_filter.1 hi).1

/-- 1 is neutral. -/
@[simp] theorem gfMul_one (a : Byte) : gfMul a 0x01#8 = a := by
  induction a using byte_induction with
  | xor a b ha hb => rw [gfMul_xor_left, ha, hb]
  | basis i hi => exact (by decide : ∀ i < 8, gfMul (1#8 <<< i) 0x01#8 = 1#8 <<< i) i hi

/-- A factor α may be multiplied in last: both sides are linear in `a` and in `b`. -/
theorem gfMul_gfMul_alpha (a b : Byte) : gfMul a (gfMul b 0x02#8) = gfMul (gfMul a b) 0x02#8 := by
  induction a using byte_induction with
  | xor a a' ha ha' => simp only [gfMul_xor_left, ha, ha']
  | basis i hi =>
    induction b using byte_induction with
    | xor b b' hb hb' => simp only [gfMul_xor_left, gfMul_xor_right, hb, hb']
    | basis j hj =>
      have all : ∀ i < 8, ∀ j < 8, gfMul (1#8 <<< i) (gfMul (1#8 <<< j) 0x02#8) =
          gfMul (gfMul (1#8 <<< i) (1#8 <<< j)) 0x02#8 := by decide +kernel
      exact all i hi j hj

/-! ## The powers of α (42_rs_ecc.md R172) -/

theorem gfMul_gfExp (i j : Nat) : gfMul (gfExp i) (gfExp j) = gfExp (i + j) := by
  induction j with
  | zero => exact gfMul_one _
  | succ j ih => rw [← Nat.add_assoc, gfExp, gfExp, gfMul_gfMul_alpha, ih]

theorem gfExp_255 : gfExp 255 = 0x01#8 := by decide +kernel

theorem gfExp_add_255 (i : Nat) : gfExp (i + 255) = gfExp i := by
  rw [← gfMul_gfExp, gfExp_255, gfMul_one]

theorem gfExp_ne_zero (i : Nat) : gfExp i ≠ 0x00#8 := by
  intro hzero
  have hone : gfExp (i * 255) = gfExp 0 := Function.Periodic.nat_mul_eq gfExp_add_255 i
  rw [show i * 255 = i + i * 254 by omega, ← gfMul_gfExp, hzero, zero_gfMul] at hone
  exact absurd hone (by decide)

theorem gfExp_eq_iterate (i : Nat) : gfExp i = (fun a => gfMul a 0x02#8)^[i] 0x01#8 := by
  induction i with
  | zero => rfl
  | succ i ih => rw [gfExp, ih, Function.iterate_succ_apply']

theorem minimalPeriod_alpha : Function.minimalPeriod (fun a => gfMul a 0x02#8) 0x01#8 = 255 := by
  have hdivisors : ∀ n ∈ Nat.divisors 255, gfExp n = 0x01#8 → n = 255 := by decide +kernel
  have hperiod : Function.IsPeriodicPt (fun a => gfMul a 0x02#8) 255 0x01#8 :=
    (gfExp_eq_iterate 255).symm.trans gfExp_255
  refine hdivisors _ (Nat.mem_divisors.2 ⟨hperiod.minimalPeriod_dvd, by decide⟩) ?_
  rw [gfExp_eq_iterate]
  exact Function.iterate_minimalPeriod

theorem injOn_gfExp : Set.InjOn gfExp (Finset.range 255) := by
  have hinj := Function.iterate_injOn_Iio_minimalPeriod (f := fun a => gfMul a 0x02#8) (x := 0x01#8)
  rw [minimalPeriod_alpha] at hinj
  rw [Finset.coe_range]
  exact hinj.congr fun i _ => (gfExp_eq_iterate i).symm

/-- The 255 powers below the order of α are distinct and not 0, so they are all the 255 nonzero bytes. -/
theorem image_gfExp : (Finset.range 255).image gfExp = Finset.univ.erase 0x00#8 := by
  refine Finset.eq_of_subset_of_card_le ?nonzero ?card
  case nonzero =>
    intro x hx
    obtain ⟨i, -, rfl⟩ := Finset.mem_image.1 hx
    exact Finset.mem_erase.2 ⟨gfExp_ne_zero i, Finset.mem_univ _⟩
  case card =>
    rw [Finset.card_image_of_injOn injOn_gfExp, Finset.card_range, Finset.card_erase_of_mem (Finset.mem_univ _),
      Finset.card_univ, ← FinEnum.card_eq_fintypeCard, FinEnum.card_bitVec]
    decide

theorem exists_gfExp {a : Byte} (ha : a ≠ 0x00#8) : ∃ i, i < 255 ∧ gfExp i = a := by
  have hmem : a ∈ (Finset.range 255).image gfExp := by
    rw [image_gfExp]
    exact Finset.mem_erase.2 ⟨ha, Finset.mem_univ a⟩
  obtain ⟨i, hi, hpower⟩ := Finset.mem_image.1 hmem
  exact ⟨i, Finset.mem_range.1 hi, hpower⟩

@[simp] theorem one_gfMul (a : Byte) : gfMul 0x01#8 a = a := by
  by_cases ha : a = 0x00#8
  · rw [ha, gfMul_zero]
  · obtain ⟨i, -, rfl⟩ := exists_gfExp ha
    exact (gfMul_gfExp 0 i).trans (congrArg gfExp (Nat.zero_add i))

theorem gfMul_right_comm (a b c : Byte) : gfMul (gfMul a b) c = gfMul (gfMul a c) b := by
  by_cases ha : a = 0x00#8
  · simp [ha]
  by_cases hb : b = 0x00#8
  · simp [hb]
  by_cases hc : c = 0x00#8
  · simp [hc]
  obtain ⟨i, -, rfl⟩ := exists_gfExp ha
  obtain ⟨j, -, rfl⟩ := exists_gfExp hb
  obtain ⟨k, -, rfl⟩ := exists_gfExp hc
  simp only [gfMul_gfExp, Nat.add_right_comm]

/-- Settles O19: powers multiply by their exponents because a factor α may come last, and α has the order 255 because
no proper divisor of 255 is a period. -/
theorem powersOfAlphaMultiplyByAddingExponents : Obligations.PowersOfAlphaMultiplyByAddingExponents :=
  ⟨gfMul_gfExp, gfExp_add_255, fun _ => exists_gfExp, fun a => ⟨zero_gfMul a, gfMul_zero a⟩⟩

/-! ## Polynomials over GF(256) (42_rs_ecc.md R174, R178, R179) -/

/-- Horner's rule at `x` through the coefficients `p`, highest degree first, from the accumulator `acc`. -/
def gfHorner (x acc : Byte) (p : List Byte) : Byte := p.foldl (fun acc c => gfMul acc x ^^^ c) acc

theorem gfEval_eq_gfHorner (p : List Byte) (x : Byte) : gfEval p x = gfHorner x 0x00#8 p := rfl

@[simp] theorem gfHorner_cons (x acc c : Byte) (p : List Byte) :
    gfHorner x acc (c :: p) = gfHorner x (gfMul acc x ^^^ c) p := rfl

theorem gfHorner_append (x acc : Byte) (p q : List Byte) :
    gfHorner x acc (p ++ q) = gfHorner x (gfHorner x acc p) q := List.foldl_append

/-- A coefficient 0 at the end multiplies by `x`. -/
theorem gfHorner_concat_zero (x acc : Byte) (p : List Byte) :
    gfHorner x acc (p ++ [0x00#8]) = gfMul (gfHorner x acc p) x :=
  (gfHorner_append x acc p _).trans BitVec.xor_zero

/-- The value of a sum is the sum of the values. -/
theorem gfHorner_zipWith_xor (x : Byte) {p q : List Byte} (h : p.length = q.length) (a b : Byte) :
    gfHorner x (a ^^^ b) (List.zipWith (fun c d => c ^^^ d) p q) = gfHorner x a p ^^^ gfHorner x b q := by
  induction p generalizing q a b with
  | nil => rw [List.eq_nil_of_length_eq_zero h.symm]; rfl
  | cons c p ih =>
    obtain ⟨d, q, rfl⟩ := List.exists_cons_of_length_eq_add_one h.symm
    have hacc : gfMul (a ^^^ b) x ^^^ (c ^^^ d) = gfMul a x ^^^ c ^^^ (gfMul b x ^^^ d) := by
      rw [gfMul_xor_left]
      ac_rfl
    rw [List.zipWith_cons_cons, gfHorner_cons, hacc, ih (Nat.succ.inj h), gfHorner_cons, gfHorner_cons]

/-- The value of a multiple is the multiple of the value. -/
theorem gfHorner_map_gfMul (x f acc : Byte) (p : List Byte) :
    gfHorner x (gfMul acc f) (p.map fun c => gfMul c f) = gfMul (gfHorner x acc p) f := by
  induction p generalizing acc with
  | nil => rfl
  | cons c p ih => rw [List.map_cons, gfHorner_cons, gfMul_right_comm, ← gfMul_xor_left, ih, gfHorner_cons]

/-- The polynomial times (x + a) has the value times (x ⊕ a) (42_rs_ecc.md R174). -/
theorem gfEval_mulLinear (g : List Byte) (a x : Byte) : gfEval (mulLinear g a) x = gfMul (gfEval g x) (x ^^^ a) := by
  have hscaled := gfHorner_map_gfMul x a 0x00#8 g
  have hsum := gfHorner_zipWith_xor x (p := g ++ [0x00#8]) (q := 0x00#8 :: g.map fun c => gfMul c a) (by simp)
    0x00#8 0x00#8
  rw [gfHorner_concat_zero, gfHorner_cons] at hsum
  simp only [zero_gfMul, BitVec.xor_self] at hscaled hsum
  rw [hscaled] at hsum
  rw [gfMul_xor_right]
  exact hsum

/-- α⁰, …, α^(e−1) are roots of Gen(e) (42_rs_ecc.md R174). -/
theorem gfEval_genPoly {e i : Nat} (h : i < e) : gfEval (genPoly e) (gfExp i) = 0x00#8 := by
  induction e with
  | zero => omega
  | succ e ih =>
    rw [genPoly, gfEval_mulLinear]
    rcases Nat.lt_succ_iff_lt_or_eq.1 h with hlt | rfl
    · rw [ih hlt, zero_gfMul]
    · rw [BitVec.xor_self, gfMul_zero]

/-- Gen(e) is monic (42_rs_ecc.md R174). -/
theorem genPoly_eq_cons (e : Nat) : genPoly e = 0x01#8 :: (genPoly e).tail := by
  induction e with
  | zero => rfl
  | succ e ih => rw [genPoly, ih]; rfl

theorem parityStep_cons (g : List Byte) (r₀ d : Byte) (r : List Byte) :
    parityStep g (r₀ :: r) d =
      List.zipWith (fun x y => x ^^^ y) (r ++ [0x00#8]) (g.tail.map fun c => gfMul c (d ^^^ r₀)) := by
  rw [List.zipWith_map_right]
  rfl

/-- One step of the division at a root of Gen(e): the value of the data followed by the remainder is multiplied by
the root (42_rs_ecc.md R178, R179). -/
theorem gfHorner_parityStep {e i : Nat} (h : i < e) {r : List Byte} (hlength : r.length = e) (acc d : Byte) :
    gfHorner (gfExp i) (gfMul acc (gfExp i) ^^^ d) (parityStep (genPoly e) r d) =
      gfMul (gfHorner (gfExp i) acc r) (gfExp i) := by
  obtain ⟨r₀, r, rfl⟩ := List.exists_cons_of_length_pos (l := r) (by omega)
  have hsame : (r ++ [0x00#8]).length = ((genPoly e).tail.map fun c => gfMul c (d ^^^ r₀)).length := by
    simpa using hlength
  have hroot : gfHorner (gfExp i) 0x01#8 (genPoly e).tail = 0x00#8 := by
    have hvalue := gfEval_genPoly h
    rwa [genPoly_eq_cons, gfEval_eq_gfHorner, gfHorner_cons, zero_gfMul, BitVec.zero_xor] at hvalue
  have hacc : gfMul acc (gfExp i) ^^^ d = gfMul acc (gfExp i) ^^^ r₀ ^^^ gfMul 0x01#8 (d ^^^ r₀) := by
    rw [one_gfMul, xor_xor_xor_cancel]
  rw [parityStep_cons, hacc, gfHorner_zipWith_xor _ hsame, gfHorner_map_gfMul, hroot, zero_gfMul, BitVec.xor_zero,
    gfHorner_concat_zero, gfHorner_cons]

/-- The division keeps the value 0 of the data followed by the remainder at each root of Gen(e). -/
theorem gfHorner_foldl_parityStep {e i : Nat} (h : i < e) (d : List Byte) {r : List Byte} {acc : Byte}
    (hlength : r.length = e) (hzero : gfHorner (gfExp i) acc r = 0x00#8) :
    gfHorner (gfExp i) (gfHorner (gfExp i) acc d) (d.foldl (parityStep (genPoly e)) r) = 0x00#8 := by
  induction d generalizing r acc with
  | nil => exact hzero
  | cons c d ih =>
    refine ih (r := parityStep (genPoly e) r c) ?length ?value
    case length =>
      rw [parityStep_length (by rw [genPoly_length, hlength]) (List.ne_nil_of_length_pos (by omega)), hlength]
    case value => rw [gfHorner_parityStep h hlength, hzero, zero_gfMul]

theorem gfHorner_replicate_zero (x : Byte) (e : Nat) : gfHorner x 0x00#8 (List.replicate e 0x00#8) = 0x00#8 := by
  induction e with
  | zero => rfl
  | succ e ih => rw [List.replicate_succ, gfHorner_cons, zero_gfMul, BitVec.xor_self, ih]

/-- Settles O17: before the first data codeword data and remainder are 0, and each step of the division multiplies
their value at a root by the root. -/
theorem rsCodewordHasTheGeneratorRoots : Obligations.RsCodewordHasTheGeneratorRoots := by
  intro d e i h
  have hvalue := gfHorner_foldl_parityStep h d (List.length_replicate ..) (gfHorner_replicate_zero (gfExp i) e)
  exact (gfHorner_append _ _ _ _).trans hvalue

/-! ## One parity codeword (42_rs_ecc.md R191) -/

theorem genPoly_one : genPoly 1 = [0x01#8, 0x01#8] := by decide

theorem parityStep_genPoly_one (r d : Byte) : parityStep (genPoly 1) [r] d = [r ^^^ d] := by
  rw [genPoly_one, parityStep_cons, BitVec.xor_comm r d]
  simp

/-- Settles O18: the one-codeword remainder is the running XOR. -/
theorem oneParityCodewordIsTheXor : Obligations.OneParityCodewordIsTheXor := fun _ =>
  List.foldl_hom (fun r : Byte => [r]) parityStep_genPoly_one

end Sys2Proof.Machine
end

section
/-! SUPPORT. The commands RS and ECC from their issue to their end (42_rs_ecc.md R180-R191): the block split of DATACW, the
interleaved sequence codeword by codeword, and what a host sees of the commands. -/

namespace Sys2Proof.Machine

/-! ## RS (42_rs_ecc.md R190, R191) -/

theorem rsParamOk_iff (k e : Nat) : rsParamOk k e = true ↔ 1 ≤ k ∧ k ≤ 254 ∧ 1 ≤ e ∧ k + e ≤ 255 := by
  simp [rsParamOk, and_assoc]

/-- The parity RS writes. -/
def State.rsCodewords (s : State) : List Byte :=
  rsParity (s.bufBytes .datacw 0 s.rsParam.k.toNat) s.rsParam.e.toNat

theorem rsCodewords_length (s : State) : s.rsCodewords.length = s.rsParam.e.toNat := rsParity_length ..

/-- The state RS ends in with legal parameters (42_rs_ecc.md R191). -/
def State.rsWritten (s : State) (ts : List Turn) : State :=
  { s.afterOk 7#4 ts with rsout := (s.writeBuf .rsout 0 s.rsCodewords).rsout }

theorem engineComplete_rs {s : State} (ts : List Turn) (h : rsParamOk s.rsParam.k.toNat s.rsParam.e.toNat = true) :
    (s.issued 7#4 ts).engineComplete = s.rsWritten ts :=
  engineComplete_ok (s := s.issued 7#4 ts) (rsBody_ok (s := s.issued 7#4 ts) h)

theorem engineComplete_rs_error {s : State} (ts : List Turn)
    (h : rsParamOk s.rsParam.k.toNat s.rsParam.e.toNat = false) :
    (s.issued 7#4 ts).engineComplete = s.afterError 7#4 5#4 6#3 ts :=
  engineComplete_error (s := s.issued 7#4 ts) (rsBody_error (s := s.issued 7#4 ts) h)

/-- RSOUT after RS: the parity, and the bytes of before past it. -/
theorem bufByte_rsWritten (s : State) (ts : List Turn) (j : Nat) :
    (s.rsWritten ts).bufByte .rsout j =
      if j < s.rsParam.e.toNat then s.rsCodewords.getD j 0#8 else s.bufByte .rsout j := by
  have hwrite : (s.rsWritten ts).bufByte .rsout j = (s.writeBuf .rsout 0 s.rsCodewords).bufByte .rsout j := rfl
  rw [hwrite, bufByte_writeBuf, rsCodewords_length]
  simp only [true_and, Nat.zero_le, Nat.zero_add, Nat.sub_zero]

/-- Settles O16: RS ends with the parity written at the start of RSOUT, or in the error of its parameter check. -/
theorem rsCommandWritesTheParity : Obligations.RsCommandWritesTheParity := by
  intro s ts hidle hturn k e
  obtain ⟨t, hexec, hstep⟩ := exec_stage_then_step (i := .rs) (op := 7#4) hidle hturn (by simp [stageRows])
  refine ⟨t, _, hexec, hstep, fun hok => ?written, fun hbad => ?refused⟩
  case written =>
    rw [engineComplete_rs ts ((rsParamOk_iff k e).2 hok)]
    exact ⟨rfl, rsCodewords_length s, fun j hj => (bufByte_rsWritten s ts j).trans (if_pos hj),
      fun j hj => (bufByte_rsWritten s ts j).trans (if_neg (Nat.not_lt.2 hj))⟩
  case refused => exact engineComplete_rs_error ts (Bool.eq_false_iff.2 fun h => hbad ((rsParamOk_iff k e).1 h))

/-! ## The block split (42_rs_ecc.md R180) -/

/-- At least one block, and a short block has its e parity codewords among its T div b (42_rs_ecc.md R176, R182). -/
theorem blockTable_fits {v : Nat} (h1 : 1 ≤ v) (h40 : v ≤ 40) (l : Level) :
    0 < blockCount v l ∧ eccPerBlock v l ≤ totalCw v / blockCount v l := by
  have all : ∀ v < 41, 1 ≤ v → ∀ l ∈ [Level.L, .M, .Q, .H],
      0 < blockCount v l ∧ eccPerBlock v l ≤ totalCw v / blockCount v l := by decide +kernel
  exact all v (by omega) h1 l (by cases l <;> decide)

/-- The number of short blocks. -/
def shortBlocks (v : Nat) (l : Level) : Nat := blockCount v l - longBlocks v l

/-- The data codeword count of block `i`. -/
def blockSize (v : Nat) (l : Level) (i : Nat) : Nat :=
  if i < shortBlocks v l then shortBlock v l else shortBlock v l + 1

/-- The offset of block `i` in the data codewords. -/
def blockStart (v : Nat) (l : Level) (i : Nat) : Nat := i * shortBlock v l + (i - shortBlocks v l)

theorem blockStart_succ (v : Nat) (l : Level) (i : Nat) :
    blockStart v l (i + 1) = blockStart v l i + blockSize v l i := by
  simp only [blockStart, blockSize, Nat.succ_mul]
  split <;> omega

/-- Block `i` of the data codewords in DATACW. -/
def State.dataBlock (s : State) (v : Nat) (l : Level) (i : Nat) : List Byte :=
  s.bufBytes .datacw (blockStart v l i) (blockSize v l i)

theorem dataBlock_length (s : State) (v : Nat) (l : Level) (i : Nat) :
    (s.dataBlock v l i).length = blockSize v l i := bufBytes_length ..

theorem map_range_const {n k : Nat} {f : Nat → Nat} (h : ∀ i < n, f i = k) :
    (List.range n).map f = List.replicate n k :=
  List.eq_replicate_iff.2 ⟨by simp, by simpa using h⟩

section Table

variable {v : Nat} (h1 : 1 ≤ v) (h40 : v ≤ 40) (l : Level)
include h1 h40

theorem shortBlocks_add_longBlocks : shortBlocks v l + longBlocks v l = blockCount v l :=
  Nat.sub_add_cancel (Nat.mod_lt _ (blockTable_fits h1 h40 l).1).le

/-- Every codeword of the version is a data or a parity codeword of one block. -/
theorem totalCw_eq_columns :
    totalCw v = shortBlock v l * blockCount v l + longBlocks v l + eccPerBlock v l * blockCount v l := by
  have hsplit := Nat.div_add_mod (totalCw v) (blockCount v l)
  have hshort : shortBlock v l + eccPerBlock v l = totalCw v / blockCount v l :=
    Nat.sub_add_cancel (blockTable_fits h1 h40 l).2
  rw [← hshort, Nat.mul_comm, Nat.add_mul] at hsplit
  rw [longBlocks]
  omega

theorem dataCodewords_eq_columns : dataCodewords v l = shortBlock v l * blockCount v l + longBlocks v l := by
  have htotal := totalCw_eq_columns h1 h40 l
  rw [dataCodewords, Nat.mul_comm (blockCount v l)]
  omega

theorem blockStart_blockCount : blockStart v l (blockCount v l) = dataCodewords v l := by
  have hblocks := shortBlocks_add_longBlocks h1 h40 l
  rw [dataCodewords_eq_columns h1 h40 l, blockStart, Nat.mul_comm]
  omega

theorem blockSizes_eq_map : blockSizes v l = (List.range (blockCount v l)).map (blockSize v l) := by
  rw [blockSizes, ← shortBlocks, ← shortBlocks_add_longBlocks h1 h40 l, List.range_add, List.map_append,
    List.map_map]
  refine congrArg₂ (· ++ ·) ?short ?long
  case short => exact (map_range_const fun i hi => if_pos hi).symm
  case long => exact (map_range_const fun i _ => if_neg (Nat.not_lt.2 (Nat.le_add_right _ _))).symm

end Table

theorem cutBlocks_append (ks ls : List Nat) (d : List Byte) :
    cutBlocks (ks ++ ls) d = cutBlocks ks d ++ cutBlocks ls (d.drop ks.sum) := by
  induction ks generalizing d with
  | nil => rfl
  | cons k ks ih => simp only [List.cons_append, cutBlocks, ih, List.drop_drop, List.sum_cons]

theorem bufBytes_slice (s : State) (b : BufId) {o k n : Nat} (h : o + k ≤ n) :
    ((s.bufBytes b 0 n).drop o).take k = s.bufBytes b o k := by
  refine List.ext_getElem (by simp; omega) fun i _ _ => ?_
  simp [State.bufBytes]

theorem sum_blockSize (v : Nat) (l : Level) (m : Nat) :
    ((List.range m).map (blockSize v l)).sum = blockStart v l m := by
  induction m with
  | zero => simp [blockStart]
  | succ m ih => rw [List.range_succ, List.map_append, List.sum_append, ih, blockStart_succ]; simp

/-- The cut of the data codewords in DATACW, block by block. -/
theorem cutBlocks_blockSize (s : State) (v : Nat) (l : Level) {m n : Nat} (h : blockStart v l m ≤ n) :
    cutBlocks ((List.range m).map (blockSize v l)) (s.bufBytes .datacw 0 n) =
      (List.range m).map (s.dataBlock v l) := by
  induction m with
  | zero => rfl
  | succ m ih =>
    rw [blockStart_succ] at h
    rw [List.range_succ, List.map_append, cutBlocks_append, ih (by omega), sum_blockSize, List.map_append]
    simp only [List.map_cons, List.map_nil, cutBlocks, bufBytes_slice s .datacw h]
    rfl

/-! ## The interleaver (42_rs_ecc.md R183) -/

/-- A place of row `j` among `n` rows of `b` codewords. -/
theorem rowPlace_lt {b i j n : Nat} (hi : i < b) (hj : j < n) : j * b + i < n * b :=
  calc j * b + i < (j + 1) * b := by rw [Nat.succ_mul]; omega
    _ ≤ n * b := Nat.mul_le_mul_right b hj

theorem roundRobin_succ (n : Nat) (blocks : List (List Byte)) :
    roundRobin (n + 1) blocks = roundRobin n blocks ++ blocks.filterMap fun blk => blk[n]? := by
  simp [roundRobin, List.range_succ]

/-- A column that every block reaches. -/
theorem column_full {b n : Nat} {f : Nat → List Byte} (h : ∀ i < b, n < (f i).length) :
    ((List.range b).map f).filterMap (fun blk => blk[n]?) = (List.range b).map fun i => (f i).getD n 0#8 := by
  rw [List.filterMap_map, ← List.filterMap_eq_map]
  refine List.filterMap_congr fun i hi => ?_
  have hlt := h i (List.mem_range.1 hi)
  simp [hlt]

/-- A column that no block reaches. -/
theorem column_empty {b n : Nat} {f : Nat → List Byte} (h : ∀ i < b, (f i).length ≤ n) :
    ((List.range b).map f).filterMap (fun blk => blk[n]?) = [] := by
  simpa using h

section Columns

variable {b n : Nat} {f : Nat → List Byte} (h : ∀ i < b, n ≤ (f i).length)
include h

theorem roundRobin_length : (roundRobin n ((List.range b).map f)).length = n * b := by
  induction n with
  | zero => simp [roundRobin]
  | succ n ih =>
    rw [roundRobin_succ, List.length_append, ih fun i hi => (Nat.le_succ n).trans (h i hi), column_full h]
    simp [Nat.succ_mul]

/-- Codeword `j` of block `i` stands at place `i` of column `j`. -/
theorem getD_roundRobin {i j : Nat} (hi : i < b) (hj : j < n) :
    (roundRobin n ((List.range b).map f)).getD (j * b + i) 0#8 = (f i).getD j 0#8 := by
  induction n with
  | zero => omega
  | succ n ih =>
    have hreach : ∀ i < b, n ≤ (f i).length := fun i hi => (Nat.le_succ n).trans (h i hi)
    have hlength := roundRobin_length hreach
    rw [roundRobin_succ, column_full h]
    rcases Nat.lt_succ_iff_lt_or_eq.1 hj with hlt | rfl
    · rw [List.getD_append _ _ _ _ ((rowPlace_lt hi hlt).trans_eq hlength.symm)]
      exact ih hreach hlt
    · rw [List.getD_append_right _ _ _ _ (by omega), hlength, Nat.add_sub_cancel_left]
      simp [hi]

end Columns

/-! ## The final sequence (42_rs_ecc.md R181, R183) -/

theorem getD_dataBlock {s : State} {v : Nat} {l : Level} {i j : Nat} (hj : j < blockSize v l i) :
    (s.dataBlock v l i).getD j 0#8 = s.bufByte .datacw (blockStart v l i + j) := by
  simp [State.dataBlock, State.bufBytes, hj]

/-- The data codewords column by column; only long blocks reach the last column. -/
def State.dataColumns (s : State) (v : Nat) (l : Level) : List Byte :=
  roundRobin (shortBlock v l) ((List.range (blockCount v l)).map (s.dataBlock v l)) ++
    (List.range (longBlocks v l)).map fun i => (s.dataBlock v l (shortBlocks v l + i)).getD (shortBlock v l) 0#8

/-- Where codeword `j` of block `i` stands among the data columns. -/
def codewordPlace (v : Nat) (l : Level) (i j : Nat) : Nat :=
  if j < shortBlock v l then j * blockCount v l + i else shortBlock v l * blockCount v l + (i - shortBlocks v l)

/-- The parity of block `i`. -/
def State.parityBlock (s : State) (v : Nat) (l : Level) (i : Nat) : List Byte :=
  rsParity (s.dataBlock v l i) (eccPerBlock v l)

/-- The parity codewords column by column. -/
def State.parityColumns (s : State) (v : Nat) (l : Level) : List Byte :=
  roundRobin (eccPerBlock v l) ((List.range (blockCount v l)).map (s.parityBlock v l))

theorem shortBlock_le_dataBlock_length (s : State) (v : Nat) (l : Level) (i : Nat) :
    shortBlock v l ≤ (s.dataBlock v l i).length := by
  rw [dataBlock_length, blockSize]
  split <;> omega

theorem eccPerBlock_le_parityBlock_length (s : State) (v : Nat) (l : Level) (i : Nat) :
    eccPerBlock v l ≤ (s.parityBlock v l i).length := (rsParity_length _ _).ge

theorem parityColumns_length (s : State) (v : Nat) (l : Level) :
    (s.parityColumns v l).length = eccPerBlock v l * blockCount v l :=
  roundRobin_length fun i _ => eccPerBlock_le_parityBlock_length s v l i

section FinalSequence

variable {v : Nat} (h1 : 1 ≤ v) (h40 : v ≤ 40) (s : State) (l : Level)
include h1 h40

/-- The column past the short blocks holds one codeword of each long block. -/
theorem lastColumn_eq :
    ((List.range (blockCount v l)).map (s.dataBlock v l)).filterMap (fun blk => blk[shortBlock v l]?) =
      (List.range (longBlocks v l)).map fun i => (s.dataBlock v l (shortBlocks v l + i)).getD (shortBlock v l) 0#8 := by
  rw [← shortBlocks_add_longBlocks h1 h40 l, List.range_add, List.map_append, List.filterMap_append,
    column_empty fun i hi => ?short, List.nil_append, List.map_map, column_full fun i _ => ?long]
  case short => rw [dataBlock_length, blockSize, if_pos hi]
  case long =>
    rw [Function.comp_apply, dataBlock_length, blockSize, if_neg (Nat.not_lt.2 (Nat.le_add_right _ _))]
    exact Nat.lt_succ_self _
  rfl

theorem roundRobin_dataBlocks :
    roundRobin (shortBlock v l + (if 0 < longBlocks v l then 1 else 0))
        ((List.range (blockCount v l)).map (s.dataBlock v l)) = s.dataColumns v l := by
  rw [State.dataColumns]
  split
  case isTrue => rw [roundRobin_succ, lastColumn_eq h1 h40]
  case isFalse hnone =>
    rw [Nat.eq_zero_of_not_pos hnone]
    exact (List.append_nil _).symm

theorem finalSequence_eq_columns :
    finalSequence v l (s.bufBytes .datacw 0 (dataCodewords v l)) = s.dataColumns v l ++ s.parityColumns v l := by
  rw [finalSequence, blockSizes_eq_map h1 h40, cutBlocks_blockSize s v l (blockStart_blockCount h1 h40 l).le,
    roundRobin_dataBlocks h1 h40, List.map_map]
  rfl

theorem dataColumns_length : (s.dataColumns v l).length = dataCodewords v l := by
  rw [State.dataColumns, List.length_append, roundRobin_length fun i _ => shortBlock_le_dataBlock_length s v l i,
    List.length_map, List.length_range, dataCodewords_eq_columns h1 h40]

theorem codewordPlace_lt {i j : Nat} (hi : i < blockCount v l) (hj : j < blockSize v l i) :
    codewordPlace v l i j < dataCodewords v l := by
  have hblocks := shortBlocks_add_longBlocks h1 h40 l
  rw [dataCodewords_eq_columns h1 h40, codewordPlace]
  rw [blockSize] at hj
  split
  case isTrue hshort => exact Nat.lt_add_right _ (rowPlace_lt hi hshort)
  case isFalse hlast =>
    split at hj <;> omega

theorem getD_dataColumns {i j : Nat} (hi : i < blockCount v l) (hj : j < blockSize v l i) :
    (s.dataColumns v l).getD (codewordPlace v l i j) 0#8 = s.bufByte .datacw (blockStart v l i + j) := by
  have hlength := roundRobin_length (b := blockCount v l) fun i _ => shortBlock_le_dataBlock_length s v l i
  rw [← getD_dataBlock hj, State.dataColumns, codewordPlace]
  split
  case isTrue hshort =>
    rw [List.getD_append _ _ _ _ ((rowPlace_lt hi hshort).trans_eq hlength.symm),
      getD_roundRobin (fun i _ => shortBlock_le_dataBlock_length s v l i) hi hshort]
  case isFalse hlast =>
    have hblocks := shortBlocks_add_longBlocks h1 h40 l
    have hlong : shortBlocks v l ≤ i ∧ j = shortBlock v l := by
      rw [blockSize] at hj
      split at hj <;> omega
    obtain ⟨hle, rfl⟩ := hlong
    rw [List.getD_append_right _ _ _ _ (by omega), hlength, Nat.add_sub_cancel_left,
      List.getD_eq_getElem _ _ (by simp; omega)]
    simp [Nat.add_sub_cancel' hle]

theorem totalCw_eq_length : totalCw v = (s.dataColumns v l ++ s.parityColumns v l).length := by
  rw [List.length_append, dataColumns_length h1 h40, parityColumns_length, dataCodewords_eq_columns h1 h40,
    totalCw_eq_columns h1 h40 l]

end FinalSequence

/-! ## ECC (42_rs_ecc.md R186) -/

/-- The state ECC ends in at a legal version (42_rs_ecc.md R186). -/
def State.interleaved (s : State) (ts : List Turn) : State :=
  let v := s.symbol.version.toNat
  let l := Level.ofCode s.symbol.level
  { (s.afterOk 2#4 ts).withStages s.status.vPack true false false false with
    finalcw := (s.writeBuf .finalcw 0 (finalSequence v l (s.bufBytes .datacw 0 (dataCodewords v l)))).finalcw
    cwCount := BitVec.ofNat 12 (totalCw v)
    dataCount := BitVec.ofNat 12 (dataCodewords v l) }

theorem engineComplete_ecc {s : State} (ts : List Turn) (h : isVersion s.symbol.version.toNat = true) :
    (s.issued 2#4 ts).engineComplete = s.interleaved ts :=
  engineComplete_ok (s := s.issued 2#4 ts) (eccBody_ok (s := s.issued 2#4 ts) h)

theorem engineComplete_ecc_error {s : State} (ts : List Turn) (h : isVersion s.symbol.version.toNat = false) :
    (s.issued 2#4 ts).engineComplete =
      (s.afterError 2#4 5#4 2#3 ts).withStages s.status.vPack false false false false :=
  engineComplete_error (s := s.issued 2#4 ts) (eccBody_error (s := s.issued 2#4 ts) h)

section Interleaved

variable {s : State} {v : Nat} {l : Level} (ts : List Turn) (hversion : s.symbol.version.toNat = v)
  (hlevel : Level.ofCode s.symbol.level = l) (h1 : 1 ≤ v) (h40 : v ≤ 40)
include hversion hlevel h1 h40

/-- FINALCW after ECC: the data columns, the parity columns, and the bytes of before. -/
theorem bufByte_interleaved (k : Nat) :
    (s.interleaved ts).bufByte .finalcw k =
      if k < totalCw v then (s.dataColumns v l ++ s.parityColumns v l).getD k 0#8 else s.bufByte .finalcw k := by
  have hwrite : (s.interleaved ts).bufByte .finalcw k =
      (s.writeBuf .finalcw 0 (s.dataColumns v l ++ s.parityColumns v l)).bufByte .finalcw k := by
    rw [← finalSequence_eq_columns h1 h40]
    subst hversion hlevel
    rfl
  rw [hwrite, bufByte_writeBuf, ← totalCw_eq_length h1 h40]
  simp only [true_and, Nat.zero_le, Nat.zero_add, Nat.sub_zero]

theorem bufByte_interleaved_data {i j : Nat} (hi : i < blockCount v l) (hj : j < blockSize v l i) :
    (s.interleaved ts).bufByte .finalcw (codewordPlace v l i j) = s.bufByte .datacw (blockStart v l i + j) := by
  have hplace := codewordPlace_lt h1 h40 l hi hj
  have hle : dataCodewords v l ≤ totalCw v := Nat.sub_le ..
  rw [bufByte_interleaved ts hversion hlevel h1 h40, if_pos (by omega),
    List.getD_append _ _ _ _ (by rwa [dataColumns_length h1 h40]), getD_dataColumns h1 h40 s l hi hj]

theorem bufByte_interleaved_parity {i j : Nat} (hi : i < blockCount v l) (hj : j < eccPerBlock v l) :
    (s.interleaved ts).bufByte .finalcw (dataCodewords v l + (j * blockCount v l + i)) =
      (s.parityBlock v l i).getD j 0#8 := by
  have htotal := totalCw_eq_columns h1 h40 l
  have hdata := dataCodewords_eq_columns h1 h40 l
  have hplace := rowPlace_lt hi hj
  rw [bufByte_interleaved ts hversion hlevel h1 h40, if_pos (by omega),
    List.getD_append_right _ _ _ _ (by rw [dataColumns_length h1 h40]; omega), dataColumns_length h1 h40,
    Nat.add_sub_cancel_left]
  exact getD_roundRobin (fun i _ => eccPerBlock_le_parityBlock_length s v l i) hi hj

/-- ECC leaves FINALCW from T up. -/
theorem bufByte_interleaved_past {k : Nat} (hk : totalCw v ≤ k) :
    (s.interleaved ts).bufByte .finalcw k = s.bufByte .finalcw k := by
  rw [bufByte_interleaved ts hversion hlevel h1 h40, if_neg (Nat.not_lt.2 hk)]

end Interleaved

/-- Settles O15: at a legal version ECC ends in `State.interleaved`, whose FINALCW holds the data columns and then the
parity columns; at another it ends in the error. -/
theorem eccCommandInterleavesTheBlocks : Obligations.EccCommandInterleavesTheBlocks := by
  intro s ts hidle hturn v l e b total kshort nshort size start
  obtain ⟨t, hexec, hstep⟩ := exec_stage_then_step (i := .ecc) (op := 2#4) hidle hturn (by simp [stageRows])
  refine ⟨t, _, hexec, hstep, fun h1 h40 => ?interleaved, fun hbad => ?refused⟩
  case interleaved =>
    rw [engineComplete_ecc ts ((isVersion_iff v).2 ⟨h1, h40⟩)]
    refine ⟨rfl, fun i j hi hj => bufByte_interleaved_data ts rfl rfl h1 h40 hi hj, fun i j hi hj => ?parity,
      fun k hk => bufByte_interleaved_past ts rfl rfl h1 h40 hk⟩
    case parity =>
      rw [Nat.add_assoc]
      exact bufByte_interleaved_parity ts rfl rfl h1 h40 hi hj
  case refused =>
    exact engineComplete_ecc_error ts (Bool.eq_false_iff.2 fun h => hbad ((isVersion_iff v).1 h))

end Sys2Proof.Machine
end

section
/-! SUPPORT. The invariant of FUNCMAP (43_assembler.md R229, R231; 10_state.md R57): PLACE establishes it, and whatever
else writes FUNCMAP or the version revokes V_PLACE. -/

namespace Sys2Proof.Machine

/-- Where V_PLACE is still 1, it is to have been 1 before, and version and FUNCMAP are to be as they were. -/
theorem FunctionMapInv.of_kept {s t : State} (h : FunctionMapInv s)
    (hkept : t.status.vPlace = true →
      s.status.vPlace = true ∧ t.symbol.version = s.symbol.version ∧ t.funcmap = s.funcmap) : FunctionMapInv t := by
  constructor <;> intro hplace <;> obtain ⟨hplaced, hversion, hmap⟩ := hkept hplace <;> rw [hversion]
  · exact h.version hplaced
  · intro r c hr hc
    rw [module_congr (b := .funcmap) hmap r c]
    exact h.layout hplaced r c hr hc

theorem functionMapInv_of_noFlag {s : State} (hplace : s.status.vPlace = false) : FunctionMapInv s := by
  constructor <;> simp [hplace]

theorem FunctionMapInv.congr {s t : State} (h : FunctionMapInv s) (hplace : t.status.vPlace = s.status.vPlace)
    (hversion : t.symbol.version = s.symbol.version) (hmap : t.funcmap = s.funcmap) : FunctionMapInv t :=
  h.of_kept fun hplaced => ⟨hplace ▸ hplaced, hversion, hmap⟩

/-! ## The operations that write no layout -/

/-- An error row sets no flag. -/
theorem FunctionMapInv.errorEnd {s : State} (h : FunctionMapInv s) (e : CommandError) :
    FunctionMapInv (s.errorEnd e) := by
  refine h.of_kept fun hplaced => ⟨?_, rfl, rfl⟩
  rw [show (s.errorEnd e).status.vPlace = _ from errorRow_vPlace e.stage s.status, Bool.and_eq_true] at hplaced
  exact hplaced.1

theorem FunctionMapInv.accept {s : State} (h : FunctionMapInv s) (op : BitVec 4) : FunctionMapInv (s.accept op) := by
  have hrecord : FunctionMapInv (s.acceptOutcome op) := h.congr rfl rfl rfl
  by_cases hstage : op.toNat < 8
  · rw [accept_stage s hstage]
    exact hrecord.congr rfl rfl rfl
  · rw [accept_reserved s (by omega)]
    exact hrecord.errorEnd _

/-- Of the register writes only that of SYMBOL stores a version, and it revokes V_PLACE. -/
theorem FunctionMapInv.writeReg {s : State} (h : FunctionMapInv s) (o : Nat) (w : Word) :
    FunctionMapInv (s.writeReg o w) := by
  unfold State.writeReg
  split
  -- SYMBOL
  case h_6 => exact functionMapInv_of_noFlag rfl
  all_goals exact h.congr rfl rfl rfl

/-- A write to another buffer. -/
theorem FunctionMapInv.writeBuf {s : State} (h : FunctionMapInv s) {b : BufId} (hb : b ≠ .funcmap) (k : Nat)
    (bs : List Byte) : FunctionMapInv (s.writeBuf b k bs) :=
  h.congr (by rw [writeBuf_status]) (by rw [writeBuf_symbol]) (buf_setBuf_other s _ hb.symm)

/-- An ABORT of a command that may have written the version or FUNCMAP revokes V_PLACE. -/
theorem FunctionMapInv.abort {s : State} (h : FunctionMapInv s) (hbusy : s.status.busy = true) :
    FunctionMapInv s.abort := by
  refine h.of_kept fun hplaced => ?_
  have hrow : s.abort.status.vPlace = (s.status.errorRow (stageOfCommand s.pendingOp)).vPlace := by
    rw [abort_busy hbusy]
  rw [hrow, errorRow_stageOfCommand, Bool.and_eq_true, Bool.not_eq_true', decide_eq_false_iff_not] at hplaced
  obtain ⟨hplace, hop⟩ := hplaced
  refine ⟨hplace, (contents_abort hbusy .symbolVersion).trans (if_neg fun hmem => hop ?_),
    (contents_abort hbusy (.buf .funcmap)).trans (if_neg fun hmem => hop ?_)⟩ <;>
  simp only [Loc.writers, List.mem_cons, List.not_mem_nil, or_false] at hmem ⊢ <;> omega

/-! ## Completion -/

/-- FUNCMAP after a write of Fn (43_assembler.md R229). -/
theorem module_written_layout (s : State) (v : Nat) {r c : Nat} (hr : r < sideMax) (hc : c < sideMax) :
    (s.writeMatrix .funcmap (functionMatrix v)).module .funcmap r c =
      (decide (r < side v) && decide (c < side v) && isFunction v r c) := by
  rw [module_writeMatrix s rfl _ r c hr hc, functionMatrix, build_at]

/-- PLACE writes the layout of its version, after checking it. -/
theorem placeBody_functionMapInv {s t : State} (h : placeBody s = .ok t) : FunctionMapInv t := by
  cases hv : isVersion s.symbol.version.toNat
  · rw [placeBody_badParam hv] at h; cases h
  by_cases hc : s.cwCount.toNat = totalCw s.symbol.version.toNat
  · rw [placeBody_ok hv hc] at h; cases h
    exact ⟨fun _ => hv, fun _ r c hr hc =>
      (module_congr (t := s.writeMatrix .funcmap _) (b := .funcmap) rfl r c).trans (module_written_layout s _ hr hc)⟩
  · rw [placeBody_overflow hv hc] at h; cases h

theorem FunctionMapInv.maskBody {s t : State} (hs : FunctionMapInv s) (h : maskBody s = .ok t) : FunctionMapInv t := by
  cases hv : s.status.vPlace
  · rw [maskBody_error hv] at h; cases h
  · simp only [Machine.maskBody, hv, if_true] at h; cases h
    exact hs.congr rfl rfl rfl

theorem encodeBody_functionMapInv {s t : State} (h : encodeBody s = .ok t) : FunctionMapInv t := by
  unfold encodeBody at h
  split at h
  · cases h
  · split at h
    · cases h
    · split at h
      · cases h
      · rename_i hplace
        exact (placeBody_functionMapInv hplace).maskBody h

theorem packBody_vPlace {s t : State} (h : packBody s = .ok t) : t.status.vPlace = false := by
  rcases packBody_cases s with ⟨he, -⟩ | ⟨v, t', -, hn, hv⟩
  · rw [he] at h; cases h
  · rw [packBody_ok hn hv] at h; cases h; rfl

theorem eccBody_vPlace {s t : State} (h : eccBody s = .ok t) : t.status.vPlace = false := by
  cases hv : isVersion s.symbol.version.toNat
  · rw [eccBody_error hv] at h; cases h
  · rw [eccBody_ok hv] at h; cases h; rfl

theorem FunctionMapInv.vectorBody {s t : State} (hs : FunctionMapInv s) (h : vectorBody s = .ok t) :
    FunctionMapInv t := by
  cases hv : s.status.vMask
  · rw [vectorBody_error hv] at h; cases h
  · rw [vectorBody_ok hv] at h; cases h
    exact hs.congr rfl rfl rfl

theorem FunctionMapInv.rsBody {s t : State} (hs : FunctionMapInv s) (h : rsBody s = .ok t) : FunctionMapInv t := by
  cases hv : rsParamOk s.rsParam.k.toNat s.rsParam.e.toNat
  · rw [rsBody_error hv] at h; cases h
  · rw [rsBody_ok hv] at h; cases h
    exact hs.writeBuf (by decide) _ _

theorem FunctionMapInv.commandBody {s t : State} {op : BitVec 4} (hs : FunctionMapInv s)
    (h : commandBody op s = .ok t) : FunctionMapInv t := by
  unfold Machine.commandBody at h
  split at h
  · exact functionMapInv_of_noFlag (packBody_vPlace h)
  · exact functionMapInv_of_noFlag (eccBody_vPlace h)
  · exact placeBody_functionMapInv h
  · exact hs.maskBody h
  · exact encodeBody_functionMapInv h
  · exact hs.vectorBody h
  · exact hs.rsBody h
  · cases h

theorem functionMapInv_stable : StepStable FunctionMapInv where
  frame _ _ _ _ _ h := h.congr rfl rfl rfl
  dropWrite _ h := h.congr rfl rfl rfl
  abort _ hbusy h := h.abort hbusy
  accept _ op _ _ _ h := h.accept op
  writeReg _ o w _ h := h.writeReg o w
  writeBuf _ _ k _ _ _ hwritable _ h := h.writeBuf (by rintro rfl; cases hwritable) k _
  complete _ _ _ hbody h := (h.commandBody hbody).congr rfl rfl rfl
  errorEnd _ e _ _ h := h.errorEnd e
  resetTurn _ _ := functionMapInv_of_noFlag rfl

/-- Settles O60: PLACE, and ENCODE through it, writes the layout of SYMBOL.VERSION and sets V_PLACE; whatever else
writes FUNCMAP or the version (a SYMBOL write, PACK, an ABORT, reset) clears V_PLACE. -/
theorem stepKeepsFunctionMapTheLayout : Obligations.StepKeepsFunctionMapTheLayout :=
  fun _ _ hs ht => functionMapInv_stable.step ht hs

end Sys2Proof.Machine
end

section
/-! SUPPORT. The command PLACE from its issue to its end (43_assembler.md R222-R230): the codeword bits along ZigZag(V),
and what a host sees of the command. -/

namespace Sys2Proof.Machine

/-! ## Assignments to a matrix -/

/-- How many modules row `r` of a matrix has; 0 outside the matrix. -/
def Matrix.width (m : Matrix) (r : Nat) : Nat := (m.getD r []).length

theorem width_build {n r : Nat} (f : Nat → Nat → Bool) (hr : r < n) : (Matrix.build n f).width r = n := by
  simp [Matrix.width, Matrix.build, hr]

/-- An assignment keeps the shape of the matrix. -/
@[simp] theorem width_put (m : Matrix) (r c r' : Nat) (v : Bool) : (m.put r c v).width r' = m.width r' := by
  simp only [Matrix.width, Matrix.put, List.getD_eq_getElem?_getD, List.getElem?_modify]
  by_cases hr : r = r' <;> cases m[r']? <;> simp [hr]

@[simp] theorem width_putAll (cells : List ((Nat × Nat) × Bool)) (m : Matrix) (r : Nat) :
    (m.putAll cells).width r = m.width r := by
  induction cells generalizing m with
  | nil => rfl
  | cons cell cells ih => exact (ih _).trans (width_put ..)

/-- A module inside the matrix reads back as assigned. -/
theorem put_at_same {m : Matrix} {r c : Nat} (v : Bool) (hc : c < m.width r) : (m.put r c v).at r c = v := by
  simp only [Matrix.width, Matrix.at, Matrix.put, List.getD_eq_getElem?_getD, List.getElem?_modify] at hc ⊢
  cases hrow : m[r]? with
  | none => simp [hrow] at hc
  | some row =>
    rw [hrow] at hc
    simpa using congrArg (Option.getD · false) (List.getElem?_set_self (a := v) (by simpa using hc))

/-- Where no module is assigned twice, each module inside the matrix reads back as assigned. -/
theorem putAll_at_mem {cells : List ((Nat × Nat) × Bool)} {m : Matrix} {r c : Nat} {x : Bool}
    (hnodup : (cells.map Prod.fst).Nodup) (hmem : ((r, c), x) ∈ cells) (hc : c < m.width r) :
    (m.putAll cells).at r c = x := by
  induction cells generalizing m with
  | nil => cases hmem
  | cons cell cells ih =>
    rw [List.map_cons, List.nodup_cons] at hnodup
    rcases List.mem_cons.1 hmem with rfl | hlater
    · refine (putAll_at_other cells _ r c fun other hother he => hnodup.1 ?_).trans (put_at_same x hc)
      exact List.mem_map.2 ⟨other, hother, he⟩
    · exact ih (m := m.put cell.1.1 cell.1.2 cell.2) hnodup.2 hlater (by rwa [width_put])

/-! ## The placed matrix (43_assembler.md R225, R226) -/

theorem side_le {v : Nat} (h40 : v ≤ 40) : side v ≤ sideMax := by unfold side sideMax; omega

theorem bitsOfByte_getElem? (b : Byte) {j : Nat} (hj : j < 8) : (bitsOfByte b)[j]? = some (b.getLsbD (7 - j)) := by
  rw [bitsOfByte, putBits, List.getElem?_map, List.getElem?_range hj]
  rfl

/-- The bits that go along ZigZag(V). -/
def placedBits (v : Nat) (cws : List Byte) : List Bool :=
  cws.flatMap bitsOfByte ++ List.replicate (remainderBits v) false

theorem placedBits_length {v : Nat} {cws : List Byte} (hcws : cws.length = totalCw v) :
    (placedBits v cws).length = rawModules v := by
  rw [placedBits, List.length_append, flatMap_const_length bitsOfByte 8 bitsOfByte_length, hcws,
    List.length_replicate, totalCw, remainderBits, Nat.div_add_mod]

theorem placedBits_getElem? {v i : Nat} {cws : List Byte} (hcws : cws.length = totalCw v) (hi : i < rawModules v) :
    (placedBits v cws)[i]? =
      some (if i < 8 * totalCw v then (cws.getD (i / 8) 0#8).getLsbD (7 - i % 8) else false) := by
  have hlength := flatMap_const_length bitsOfByte 8 bitsOfByte_length cws
  rw [hcws] at hlength
  rw [placedBits]
  split
  case isTrue hcodeword =>
    have hbyte : i / 8 < cws.length := by omega
    have hbit := flatMap_const_getElem? bitsOfByte 8 bitsOfByte_length cws (i / 8) (i % 8) (by omega)
    rw [Nat.div_add_mod, List.getElem?_eq_getElem hbyte, Option.bind_some, bitsOfByte_getElem? _ (by omega)] at hbit
    rw [List.getElem?_append_left (by omega), hbit, List.getD_eq_getElem _ _ hbyte]
  case isFalse hremainder =>
    rw [List.getElem?_append_right (by omega), List.getElem?_replicate, if_pos]
    rw [hlength, remainderBits]
    unfold totalCw at hremainder ⊢
    omega

theorem placedMatrix_eq (v : Nat) (cws : List Byte) :
    placedMatrix v cws = (patternMatrix v).putAll ((zigzag v).zip (placedBits v cws)) := rfl

/-- Away from ZigZag(V) the placed matrix shows the function patterns. -/
theorem placedMatrix_at_pattern {v r c : Nat} (cws : List Byte) (h : (r, c) ∉ zigzag v) :
    (placedMatrix v cws).at r c = (decide (r < side v) && decide (c < side v) && (layout v r c).getD false) := by
  rw [placedMatrix_eq, putAll_at_other _ _ _ _ fun cell hcell he => h (he ▸ (List.of_mem_zip hcell).1), patternMatrix,
    build_at]

section Version

variable {v : Nat} (h1 : 1 ≤ v) (h40 : v ≤ 40)
include h1 h40

theorem placedMatrix_at_function {r c : Nat} {x : Bool} (cws : List Byte) (hr : r < side v) (hc : c < side v)
    (hx : layout v r c = some x) : (placedMatrix v cws).at r c = x := by
  have hnot : (r, c) ∉ zigzag v := by
    rw [mem_zigzag h1 h40, isFunction, hx]
    simp
  rw [placedMatrix_at_pattern cws hnot, hx]
  simp [hr, hc]

theorem placedMatrix_at_outside {r c : Nat} (cws : List Byte) (h : ¬ (r < side v ∧ c < side v)) :
    (placedMatrix v cws).at r c = false := by
  have hnot : (r, c) ∉ zigzag v := fun hmem => h (((mem_zigzag h1 h40).1 hmem).imp_right And.left)
  rw [placedMatrix_at_pattern cws hnot, ← Bool.decide_and, decide_eq_false h, Bool.false_and]

/-- Module `i` of ZigZag(V) holds bit `i` of the sequence. -/
theorem placedMatrix_at_zigzag {i r c : Nat} {cws : List Byte} (hcws : cws.length = totalCw v)
    (hi : (zigzag v)[i]? = some (r, c)) :
    (placedMatrix v cws).at r c =
      if i < 8 * totalCw v then (cws.getD (i / 8) 0#8).getLsbD (7 - i % 8) else false := by
  have hlength := zigzag_length h1 h40
  have hlt : i < rawModules v := hlength ▸ (List.getElem?_eq_some_iff.1 hi).1
  obtain ⟨hr, hc, -⟩ := (mem_zigzag h1 h40).1 (List.mem_of_getElem? hi)
  rw [placedMatrix_eq]
  refine putAll_at_mem ?nodup (List.mem_of_getElem? (i := i) ?mem) ?inside
  case nodup =>
    rw [List.map_fst_zip (by rw [hlength, placedBits_length hcws])]
    exact zigzag_nodup v
  case mem => exact List.getElem?_zip_eq_some.2 ⟨hi, placedBits_getElem? hcws hlt⟩
  case inside => rwa [patternMatrix, width_build _ hr]

end Version

/-! ## The scan of R224 -/

/-- The scan order of R224, function modules included: pairs of columns with the right columns N − 1, N − 3, …, 8, 5, 3,
1, alternately upward and downward, in each row the right column first. -/
def scanOrder (n : Nat) : List (Nat × Nat) :=
  let right := fun p => if 8 ≤ n - 1 - 2 * p then n - 1 - 2 * p else n - 2 - 2 * p
  (List.range ((n - 1) / 2)).flatMap fun p => (List.range n).flatMap fun k =>
    let r := if p % 2 = 0 then n - 1 - k else k
    [(r, right p), (r, right p - 1)]

theorem scanOrder_eq (v : Nat) :
    scanOrder (side v) = (List.range ((side v - 1) / 2)).flatMap (pairModules (side v)) := by
  refine List.flatMap_congr fun p hp => ?_
  rw [pairModules_eq (List.mem_range.1 hp), pairRight_eq]

/-- A scan that keeps the data modules is ZigZag(V). -/
theorem scanOrder_filter {v : Nat} {f : Nat × Nat → Bool}
    (hf : ∀ r c, r < side v → c < side v → f (r, c) = !isFunction v r c) :
    (scanOrder (side v)).filter f = zigzag v := by
  rw [scanOrder_eq]
  refine List.filter_congr fun m hm => ?_
  obtain ⟨hr, hc, -⟩ := (mem_scan v m.1 m.2).1 hm
  exact hf m.1 m.2 hr hc

/-! ## The command -/

/-- The state PLACE ends in at a legal version with its count of codewords (43_assembler.md R229). -/
def State.assembled (s : State) (ts : List Turn) : State :=
  let v := s.symbol.version.toNat
  { (s.afterOk 3#4 ts).withStages s.status.vPack s.status.vEcc true false false with
    funcmap := (s.writeMatrix .funcmap (functionMatrix v)).funcmap
    placed := (s.writeMatrix .placed (placedMatrix v (s.bufBytes .finalcw 0 (totalCw v)))).placed
    mside := BitVec.ofNat 8 (side v) }

theorem engineComplete_place {s : State} (ts : List Turn) (h : isVersion s.symbol.version.toNat = true)
    (hcount : s.cwCount.toNat = totalCw s.symbol.version.toNat) :
    (s.issued 3#4 ts).engineComplete = s.assembled ts :=
  engineComplete_ok (s := s.issued 3#4 ts) (placeBody_ok (s := s.issued 3#4 ts) h hcount)

theorem engineComplete_place_badParam {s : State} (ts : List Turn) (h : isVersion s.symbol.version.toNat = false) :
    (s.issued 3#4 ts).engineComplete =
      (s.afterError 3#4 5#4 3#3 ts).withStages s.status.vPack s.status.vEcc false false false :=
  engineComplete_error (s := s.issued 3#4 ts) (placeBody_badParam (s := s.issued 3#4 ts) h)

theorem engineComplete_place_overflow {s : State} (ts : List Turn) (h : isVersion s.symbol.version.toNat = true)
    (hcount : s.cwCount.toNat ≠ totalCw s.symbol.version.toNat) :
    (s.issued 3#4 ts).engineComplete =
      (s.afterError 3#4 2#4 3#3 ts).withStages s.status.vPack s.status.vEcc false false false :=
  engineComplete_error (s := s.issued 3#4 ts) (placeBody_overflow (s := s.issued 3#4 ts) h hcount)

/-- The stored bits of a matrix window are those of its buffer. -/
theorem storedBit_congr {s t : State} {b : BufId} (h : s.buf b = t.buf b) (r c : Nat) :
    s.storedBit b r c = t.storedBit b r c := by
  simp [State.storedBit, State.windowByte, bufByte_congr h]

section Assembled

variable {s : State} {v : Nat} (ts : List Turn) (hversion : s.symbol.version.toNat = v)
include hversion

theorem module_assembled_funcmap {r c : Nat} (hr : r < sideMax) (hc : c < sideMax) :
    (s.assembled ts).module .funcmap r c = (decide (r < side v) && decide (c < side v) && isFunction v r c) := by
  subst hversion
  exact (module_congr (t := s.writeMatrix .funcmap _) (b := .funcmap) rfl r c).trans (module_written_layout s _ hr hc)

theorem module_assembled_placed {r c : Nat} (hr : r < sideMax) (hc : c < sideMax) :
    (s.assembled ts).module .placed r c = (placedMatrix v (s.bufBytes .finalcw 0 (totalCw v))).at r c := by
  subst hversion
  exact (module_congr (t := s.writeMatrix .placed _) (b := .placed) rfl r c).trans
    (module_writeMatrix s rfl _ r c hr hc)

variable (h1 : 1 ≤ v) (h40 : v ≤ 40)
include h1 h40

theorem module_assembled_zigzag {i r c : Nat} (hi : (zigzag v)[i]? = some (r, c)) :
    (s.assembled ts).module .placed r c =
      if i < 8 * totalCw v then (s.bufByte .finalcw (i / 8)).getLsbD (7 - i % 8) else false := by
  obtain ⟨hr, hc, -⟩ := (mem_zigzag h1 h40).1 (List.mem_of_getElem? hi)
  have hside := side_le h40
  rw [module_assembled_placed ts hversion (by omega) (by omega), placedMatrix_at_zigzag h1 h40 (bufBytes_length ..) hi]
  split
  case isTrue hcodeword =>
    have hbyte : i / 8 < totalCw v := by omega
    simp [State.bufBytes, hbyte]
  case isFalse => rfl

/-- Every stored bit of both windows outside N×N, padding columns included, is 0 (30_encoding.md R110). -/
theorem storedBit_assembled_outside {r c : Nat} (hr : r < sideMax) (hc : c < 192) (h : ¬ (r < side v ∧ c < side v)) :
    (s.assembled ts).storedBit .funcmap r c = false ∧ (s.assembled ts).storedBit .placed r c = false := by
  subst hversion
  have hmap : (functionMatrix s.symbol.version.toNat).at r c = false := by
    rw [functionMatrix, build_at, ← Bool.decide_and, decide_eq_false h, Bool.false_and]
  constructor
  · refine (storedBit_congr (t := s.writeMatrix .funcmap _) (b := .funcmap) rfl r c).trans ?_
    rw [storedBit_writeMatrix s rfl _ r c hr hc, hmap, Bool.and_false]
  · refine (storedBit_congr (t := s.writeMatrix .placed _) (b := .placed) rfl r c).trans ?_
    rw [storedBit_writeMatrix s rfl _ r c hr hc, placedMatrix_at_outside h1 h40 _ h, Bool.and_false]

/-- FUNCMAP and PLACED at a function module. -/
theorem laid_assembled {r c : Nat} {x : Bool} (hr : r < side v) (hc : c < side v) (hx : layout v r c = some x) :
    (s.assembled ts).module .funcmap r c = true ∧ (s.assembled ts).module .placed r c = x := by
  have hside := side_le h40
  rw [module_assembled_funcmap ts hversion (by omega) (by omega),
    module_assembled_placed ts hversion (by omega) (by omega)]
  exact ⟨by simp [hr, hc, isFunction, hx], placedMatrix_at_function h1 h40 _ hr hc hx⟩

end Assembled

/-- PLACE issued while idle at a legal version with its count of codewords, the ENGINE's turn next. -/
theorem exec_place_assembled {s : State} {ts : List Turn} (hidle : s.status.busy = false)
    (hturn : s.turns = .engine :: ts) (h1 : 1 ≤ s.symbol.version.toNat) (h40 : s.symbol.version.toNat ≤ 40)
    (hcount : s.cwCount.toNat = totalCw s.symbol.version.toNat) :
    ∃ t, exec .place s = .next t ∧ step t = .next (s.assembled ts) := by
  rw [← engineComplete_place ts ((isVersion_iff _).2 ⟨h1, h40⟩) hcount]
  exact exec_stage_then_step hidle hturn (by simp [stageRows])

/-- Settles O20: PLACE ends in `State.assembled` at a legal version with its count of codewords, where the scan of R224
without the function modules is ZigZag(V); else it ends in the error of the first check that fails. -/
theorem placeCommandAssemblesTheSymbol : Obligations.PlaceCommandAssemblesTheSymbol := by
  intro s ts hidle hturn v n na raw total right scan
  obtain ⟨t, hexec, hstep⟩ := exec_stage_then_step (i := .place) (op := 3#4) hidle hturn (by simp [stageRows])
  refine ⟨t, _, hexec, hstep, fun h1 h40 hcount => ?assembled, fun hbad => ?badParam, fun h1 h40 hcount => ?overflow⟩
  case assembled =>
    rw [engineComplete_place ts ((isVersion_iff v).2 ⟨h1, h40⟩) hcount]
    intro seq
    have hside : n ≤ sideMax := side_le h40
    have hmap : ∀ r c, r < n → c < n → (s.assembled ts).module .funcmap r c = isFunction v r c := fun r c hr hc => by
      rw [module_assembled_funcmap ts rfl (by omega) (by omega)]
      simp [show side v = n from rfl, show s.symbol.version.toNat = v from rfl, hr, hc]
    have hseq : seq = zigzag v := scanOrder_filter fun r c hr hc => by rw [hmap r c hr hc]
    rw [hseq]
    refine ⟨rfl, fun r c hr hc => module_assembled_funcmap ts rfl hr hc,
      fun r c hr hc hout => storedBit_assembled_outside ts rfl h1 h40 hr hc hout,
      fun r c x hr hc hx => (laid_assembled ts rfl h1 h40 hr hc hx).2, zigzag_length h1 h40, zigzag_nodup v,
      fun r c => ?members, rfl, fun i r c hi => module_assembled_zigzag ts rfl h1 h40 hi⟩
    case members =>
      rw [mem_zigzag h1 h40]
      exact and_congr_right fun hr => and_congr_right fun hc => by rw [hmap r c hr hc]
  case badParam =>
    exact engineComplete_place_badParam ts (Bool.eq_false_iff.2 fun h => hbad ((isVersion_iff v).1 h))
  case overflow => exact engineComplete_place_overflow ts ((isVersion_iff v).2 ⟨h1, h40⟩) hcount

end Sys2Proof.Machine
end

section
/-! SUPPORT. The function patterns (43_assembler.md R211-R219): each part of the layout at its modules, past the parts
before it, and what PLACE lays there. -/

namespace Sys2Proof.Machine

/-! ## The layout, part by part -/

theorem findSome?_id_cons {α : Type} (o : Option α) (os : List (Option α)) :
    (o :: os).findSome? id = o.or (os.findSome? id) := by
  cases o <;> rfl

/-- The layout at a module is what the first part says that says something. -/
theorem layout_eq (v r c : Nat) :
    layout v r c =
      (finderAt 0 0 r c).or ((finderAt 0 (side v - 7) r c).or ((finderAt (side v - 7) 0 r c).or
        ((separatorPart (side v) r c).or ((timingPart (side v) r c).or ((alignPart v r c).or
          ((formatPart (side v) r c).or ((darkPart (side v) r c).or (versionPart v r c)))))))) := by
  simp only [layout, findSome?_id_cons, List.findSome?_nil, Option.or_none]

theorem finderAt_none {r₀ c₀ r c : Nat} (h : ¬ (r₀ ≤ r ∧ r < r₀ + 7 ∧ c₀ ≤ c ∧ c < c₀ + 7)) :
    finderAt r₀ c₀ r c = none :=
  if_neg h

theorem finderAt_add (r₀ c₀ : Nat) {y x : Nat} (hy : y ≤ 6) (hx : x ≤ 6) :
    finderAt r₀ c₀ (r₀ + y) (c₀ + x) = some (finderDark y x) := by
  rw [finderAt, if_pos (by omega), Nat.add_sub_cancel_left, Nat.add_sub_cancel_left]

/-- The three finder patterns stand at the corners (43_assembler.md R212). -/
theorem layout_finder {v y x : Nat} {corner : Nat × Nat} (hcorner : corner ∈ [(0, 0), (0, side v - 7), (side v - 7, 0)])
    (hy : y ≤ 6) (hx : x ≤ 6) : layout v (corner.1 + y) (corner.2 + x) = some (finderDark y x) := by
  have hside : 17 ≤ side v := Nat.le_add_left ..
  simp only [List.mem_cons, List.not_mem_nil, or_false] at hcorner
  rw [layout_eq]
  rcases hcorner with rfl | rfl | rfl
  · rw [finderAt_add 0 0 hy hx, Option.some_or]
  · rw [finderAt_none (by omega), Option.none_or, finderAt_add 0 (side v - 7) hy hx, Option.some_or]
  · rw [finderAt_none (by omega), Option.none_or, finderAt_none (by omega), Option.none_or,
      finderAt_add (side v - 7) 0 hy hx, Option.some_or]

/-- The separators go round the finder patterns (43_assembler.md R213). -/
theorem layout_separator {v r c : Nat}
    (h : (r = 7 ∧ c ≤ 7) ∨ (c = 7 ∧ r ≤ 7) ∨ (r = 7 ∧ side v - 8 ≤ c ∧ c < side v) ∨ (c = side v - 8 ∧ r ≤ 7)
      ∨ (r = side v - 8 ∧ c ≤ 7) ∨ (c = 7 ∧ side v - 8 ≤ r ∧ r < side v)) : layout v r c = some false := by
  have hside : 17 ≤ side v := Nat.le_add_left ..
  rw [layout_eq, finderAt_none (by omega), finderAt_none (by omega), finderAt_none (by omega), separatorPart, if_pos h]
  rfl

/-- Past the corners that finder patterns and separators take. -/
theorem layout_pastCorners {v r c : Nat}
    (h : ¬ ((r ≤ 7 ∧ c ≤ 7) ∨ (r ≤ 7 ∧ side v ≤ c + 8) ∨ (side v ≤ r + 8 ∧ c ≤ 7))) :
    layout v r c = (timingPart (side v) r c).or ((alignPart v r c).or
      ((formatPart (side v) r c).or ((darkPart (side v) r c).or (versionPart v r c)))) := by
  have hside : 17 ≤ side v := Nat.le_add_left ..
  rw [layout_eq, finderAt_none (by omega), finderAt_none (by omega), finderAt_none (by omega), separatorPart,
    if_neg (by omega)]
  rfl

/-- The timing patterns run between the separators, dark at even indices (43_assembler.md R214). -/
theorem layout_timing {v j : Nat} (hlow : 8 ≤ j) (hhigh : j ≤ side v - 9) :
    layout v 6 j = some (j % 2 == 0) ∧ layout v j 6 = some (j % 2 == 0) := by
  constructor
  · rw [layout_pastCorners (by omega), timingPart, if_pos ⟨rfl, hlow, hhigh⟩, Option.some_or]
  · rw [layout_pastCorners (by omega), timingPart, if_neg (by omega), if_pos ⟨rfl, hlow, hhigh⟩, Option.some_or]

theorem timingPart_none {n r c : Nat} (hr : r ≠ 6) (hc : c ≠ 6) : timingPart n r c = none := by
  rw [timingPart, if_neg fun h => hr h.1, if_neg fun h => hc h.1]

theorem gap_le_iff (a b k : Nat) : gap a b ≤ k ↔ a ≤ b + k ∧ b ≤ a + k := by unfold gap; omega

section Version

variable {v r c : Nat} (h1 : 1 ≤ v) (h40 : v ≤ 40)
include h1 h40

/-- A property of every version is one of the forty rows of a table. -/
theorem forall_version {P : Nat → Prop} (h : ∀ w ∈ List.range 40, P (w + 1)) : P v := by
  have hentry := h (v - 1) (List.mem_range.2 (by omega))
  rwa [Nat.sub_add_cancel h1] at hentry

/-- Alignment patterns keep clear of the three corners with their format and version areas. -/
theorem alignPart_corner
    (h : (r ≤ 8 ∧ c ≤ 8) ∨ (r ≤ 8 ∧ side v ≤ c + 11) ∨ (side v ≤ r + 11 ∧ c ≤ 8)) : alignPart v r c = none := by
  rw [← Option.not_isSome_iff_eq_none, alignPart_isSome]
  rintro ⟨⟨a, b⟩, hpair, hr, hc⟩
  obtain ⟨ha, hb, hcorner⟩ := (mem_alignPairs v a b).1 hpair
  have hrangeA := alignCentres_range h1 h40 a ha
  have hrangeB := alignCentres_range h1 h40 b hb
  rw [gap_le_iff] at hr hc
  rcases h with h | h | h <;> omega

/-- In those areas, off the timing lines, only the last three parts speak. -/
theorem layout_areas (hr : r ≠ 6) (hc : c ≠ 6)
    (hpast : ¬ ((r ≤ 7 ∧ c ≤ 7) ∨ (r ≤ 7 ∧ side v ≤ c + 8) ∨ (side v ≤ r + 8 ∧ c ≤ 7)))
    (h : (r ≤ 8 ∧ c ≤ 8) ∨ (r ≤ 8 ∧ side v ≤ c + 11) ∨ (side v ≤ r + 11 ∧ c ≤ 8)) :
    layout v r c = (formatPart (side v) r c).or ((darkPart (side v) r c).or (versionPart v r c)) := by
  rw [layout_pastCorners hpast, timingPart_none hr hc, alignPart_corner h1 h40 h, Option.none_or, Option.none_or]

/-- The format placeholders are light (43_assembler.md R217). -/
theorem layout_format
    (h : (c = 8 ∧ r ≤ 8 ∧ r ≠ 6) ∨ (r = 8 ∧ c ≤ 7 ∧ c ≠ 6) ∨ (r = 8 ∧ side v - 8 ≤ c ∧ c < side v)
      ∨ (c = 8 ∧ side v - 7 ≤ r ∧ r < side v)) : layout v r c = some false := by
  have hside : 21 ≤ side v := by unfold side; omega
  rw [layout_areas h1 h40 (by omega) (by omega) (by omega) (by omega), formatPart, if_pos h, Option.some_or]

/-- The dark module (43_assembler.md R218). -/
theorem layout_dark : layout v (side v - 8) 8 = some true := by
  have hside : 21 ≤ side v := by unfold side; omega
  rw [layout_areas h1 h40 (by omega) (by omega) (by omega) (by omega), formatPart, if_neg (by omega), Option.none_or,
    darkPart, if_pos ⟨rfl, rfl⟩, Option.some_or]

/-- The version areas: light placeholders from version 7 on, no function modules below (43_assembler.md R219). -/
theorem layout_versionArea
    (h : (r ≤ 5 ∧ side v - 11 ≤ c ∧ c ≤ side v - 9) ∨ (side v - 11 ≤ r ∧ r ≤ side v - 9 ∧ c ≤ 5)) :
    layout v r c = if 7 ≤ v then some false else none := by
  have hside : 21 ≤ side v := by unfold side; omega
  rw [layout_areas h1 h40 (by omega) (by omega) (by omega) (by omega), formatPart, if_neg (by omega), Option.none_or,
    darkPart, if_neg (by omega), Option.none_or, versionPart]
  simp only [h, and_true]

/-! ## The alignment patterns (43_assembler.md R215, R216) -/

/-- The coordinates are even and more than four apart. -/
theorem alignCentres_spaced :
    ∀ a ∈ alignCentres v, a % 2 = 0 ∧ ∀ b ∈ alignCentres v, gap a b ≤ 4 → a = b :=
  forall_version h1 h40 (P := fun v => ∀ a ∈ alignCentres v, a % 2 = 0 ∧ ∀ b ∈ alignCentres v, gap a b ≤ 4 → a = b)
    (by decide +kernel)

theorem alignPairs_length : (alignPairs v).length = if v = 1 then 0 else (alignCentres v).length ^ 2 - 3 :=
  forall_version h1 h40
    (P := fun v => (alignPairs v).length = if v = 1 then 0 else (alignCentres v).length ^ 2 - 3) (by decide +kernel)

/-- No two alignment patterns overlap, so the alignment part speaks for the one pattern a module is in. -/
theorem alignPart_eq {a b : Nat} (hpair : (a, b) ∈ alignPairs v) (hr : gap r a ≤ 2) (hc : gap c b ≤ 2) :
    alignPart v r c = some (max (gap r a) (gap c b) != 1) := by
  obtain ⟨x, hx⟩ := Option.isSome_iff_exists.1 ((alignPart_isSome v r c).2 ⟨(a, b), hpair, hr, hc⟩)
  obtain ⟨⟨a', b'⟩, hpair', hvalue⟩ := List.exists_of_findSome?_eq_some hx
  obtain ⟨⟨hr', hc'⟩, hvalue⟩ := Option.ite_none_right_eq_some.1 hvalue
  obtain ⟨ha, hb, -⟩ := (mem_alignPairs v a b).1 hpair
  obtain ⟨ha', hb', -⟩ := (mem_alignPairs v a' b').1 hpair'
  have hsame : a = a' := (alignCentres_spaced h1 h40 a ha).2 a' ha' (by rw [gap_le_iff] at *; omega)
  have hsame' : b = b' := (alignCentres_spaced h1 h40 b hb).2 b' hb' (by rw [gap_le_iff] at *; omega)
  rw [hx, hsame, hsame', ← hvalue]

/-- Where an alignment pattern lies across a timing line it goes on with its parity. -/
theorem layout_align {a b : Nat} (hpair : (a, b) ∈ alignPairs v) (hr : gap r a ≤ 2) (hc : gap c b ≤ 2) :
    layout v r c = some (max (gap r a) (gap c b) != 1) := by
  have halign := alignPart_eq h1 h40 hpair hr hc
  have hcorner : ¬ ((r ≤ 8 ∧ c ≤ 8) ∨ (r ≤ 8 ∧ side v ≤ c + 11) ∨ (side v ≤ r + 11 ∧ c ≤ 8)) := fun h => by
    rw [alignPart_corner h1 h40 h] at halign
    cases halign
  obtain ⟨ha, hb, -⟩ := (mem_alignPairs v a b).1 hpair
  have hrangeA := (alignCentres_range h1 h40 a ha).1
  have hrangeB := (alignCentres_range h1 h40 b hb).1
  have hevenA := (alignCentres_spaced h1 h40 a ha).1
  have hevenB := (alignCentres_spaced h1 h40 b hb).1
  by_cases hrow : r = 6
  · subst hrow
    obtain rfl : a = 6 := by rw [gap_le_iff] at hr; omega
    rw [(layout_timing (v := v) (j := c) (by omega) (by omega)).1, show gap 6 6 = 0 from rfl, Nat.zero_max]
    refine congrArg some (Bool.eq_iff_iff.2 ?_)
    simp only [gap, beq_iff_eq, bne_iff_ne] at hc ⊢
    omega
  by_cases hcolumn : c = 6
  · subst hcolumn
    obtain rfl : b = 6 := by rw [gap_le_iff] at hc; omega
    rw [(layout_timing (v := v) (j := r) (by omega) (by omega)).2, show gap 6 6 = 0 from rfl, Nat.max_zero]
    refine congrArg some (Bool.eq_iff_iff.2 ?_)
    simp only [gap, beq_iff_eq, bne_iff_ne] at hr ⊢
    omega
  · rw [layout_pastCorners (by omega), timingPart_none hrow hcolumn, halign, Option.none_or, Option.some_or]

end Version

/-! ## What PLACE lays -/

theorem finderDark_eq : ∀ y ≤ 6, ∀ x ≤ 6,
    finderDark y x = decide (y ∈ [0, 6] ∨ x ∈ [0, 6] ∨ (2 ≤ y ∧ y ≤ 4 ∧ 2 ≤ x ∧ x ≤ 4)) := by
  decide

/-- Settles O21: PLACE lays the layout (`laid_assembled`), and each pattern is a part of the layout. -/
theorem placeLaysTheFunctionPatterns : Obligations.PlaceLaysTheFunctionPatterns := by
  intro s ts hidle hturn v n h1 h40 hcount
  obtain ⟨t, hexec, hstep⟩ := exec_place_assembled hidle hturn h1 h40 hcount
  refine ⟨t, _, hexec, hstep, ?_⟩
  intro laid
  have hside : side v = n := rfl
  have hn : 21 ≤ n := Nat.add_le_add_right (Nat.mul_le_mul_left 4 h1) 17
  have hlaid {r c : Nat} {x : Bool} (hx : layout v r c = some x) (hr : r < n) (hc : c < n) : laid r c x :=
    laid_assembled ts rfl h1 h40 hr hc hx
  have hnone {r c : Nat} (hx : layout v r c = none) (hr : r < n) (hc : c < n) :
      (s.assembled ts).module .funcmap r c = false := by
    have hmax : n ≤ sideMax := side_le h40
    rw [module_assembled_funcmap ts (v := v) rfl (by omega) (by omega), isFunction, hx, Option.isSome_none,
      Bool.and_false]
  clear_value n
  refine ⟨fun corner hcorner y x hy hx => ?finders, fun j hj => ?separators, fun j hlow hhigh => ?timing,
    fun r hr => ?formatColumn, fun c hc => ?formatRow, fun j hj => ?formatRight, fun j hj => ?formatBottom, ?dark,
    fun hv i j hi hj => ?version, fun hv i j hi hj => ?noVersion⟩
  case finders =>
    have hin : corner.1 + y < n ∧ corner.2 + x < n := by
      simp only [List.mem_cons, List.not_mem_nil, or_false] at hcorner
      rcases hcorner with rfl | rfl | rfl <;> omega
    rw [← finderDark_eq y hy x hx]
    exact hlaid (layout_finder (hside ▸ hcorner) hy hx) hin.1 hin.2
  case separators =>
    refine ⟨?_, ?_, ?_, ?_, ?_, ?_⟩ <;> exact hlaid (layout_separator (by omega)) (by omega) (by omega)
  case timing =>
    obtain ⟨hrow, hcolumn⟩ := layout_timing (v := v) hlow (by omega)
    exact ⟨hlaid hrow (by omega) (by omega), hlaid hcolumn (by omega) (by omega)⟩
  case formatColumn =>
    have hr' : r ≤ 8 ∧ r ≠ 6 := (by decide : ∀ r ∈ [0, 1, 2, 3, 4, 5, 7, 8], r ≤ 8 ∧ r ≠ 6) r hr
    exact hlaid (layout_format h1 h40 (by omega)) (by omega) (by omega)
  case formatRow =>
    have hc' : c ≤ 7 ∧ c ≠ 6 := (by decide : ∀ c ∈ [0, 1, 2, 3, 4, 5, 7], c ≤ 7 ∧ c ≠ 6) c hc
    exact hlaid (layout_format h1 h40 (by omega)) (by omega) (by omega)
  case formatRight => exact hlaid (layout_format h1 h40 (by omega)) (by omega) (by omega)
  case formatBottom => exact hlaid (layout_format h1 h40 (by omega)) (by omega) (by omega)
  case dark => exact hlaid (hside ▸ layout_dark h1 h40) (by omega) (by omega)
  case version =>
    constructor <;>
      exact hlaid ((layout_versionArea h1 h40 (by omega)).trans (if_pos hv)) (by omega) (by omega)
  case noVersion =>
    constructor <;>
      exact hnone ((layout_versionArea h1 h40 (by omega)).trans (if_neg (Nat.not_le.2 hv))) (by omega) (by omega)

/-- Ring and centre of an alignment pattern, by the distance from its centre (43_assembler.md R216). -/
theorem alignmentDark_eq : ∀ y ≤ 4, ∀ x ≤ 4,
    (max (gap y 2) (gap x 2) != 1) = decide ((y = 0 ∨ y = 4 ∨ x = 0 ∨ x = 4) ∨ (y = 2 ∧ x = 2)) := by
  decide

/-- Settles O22: PLACE lays the layout (`laid_assembled`), which has a pattern at every pair of centres. -/
theorem placeLaysTheAlignmentPatterns : Obligations.PlaceLaysTheAlignmentPatterns := by
  intro s ts hidle hturn v n h1 h40 hcount
  obtain ⟨t, hexec, hstep⟩ := exec_place_assembled hidle hturn h1 h40 hcount
  refine ⟨t, _, hexec, hstep, alignPairs_length h1 h40, fun a ha b hb hfinder y x hy hx => ?_⟩
  have hside : 21 ≤ side v := by unfold side; omega
  have hpair : (a, b) ∈ alignPairs v :=
    (mem_alignPairs v a b).2 ⟨ha, hb, by simpa [show side v = n from rfl] using hfinder⟩
  have hrangeA := alignCentres_range h1 h40 a ha
  have hrangeB := alignCentres_range h1 h40 b hb
  have hgap {k j : Nat} (hk : 6 ≤ k) : gap (k + j - 2) k = gap j 2 := by unfold gap; omega
  have hnear {j : Nat} (hj : j ≤ 4) : gap j 2 ≤ 2 := (gap_le_iff j 2 2).2 (by omega)
  have hlayout := layout_align h1 h40 (r := a + y - 2) (c := b + x - 2) hpair
  rw [hgap (by omega), hgap (by omega), alignmentDark_eq y hy x hx] at hlayout
  exact laid_assembled ts (v := v) rfl h1 h40 (by omega) (by omega) (hlayout (hnear hy) (hnear hx))

end Sys2Proof.Machine
end

section
/-! SUPPORT. What MASK computes (44_mask.md R240-R259): the eight candidates, their scores and the selected mask, each
under a name, and the body of the command in these names. -/

namespace Sys2Proof.Machine

/-! ## The selected mask -/

/-- Candidate(m) of the symbol that the state holds (44_mask.md R243). -/
def State.candidate (s : State) (m : Nat) : Matrix :=
  let n := side s.symbol.version.toNat
  Machine.candidate s.symbol.version.toNat (Level.ofCode s.symbol.level) (s.readMatrix .funcmap n)
    (s.readMatrix .placed n) m

/-- The penalty of Candidate(m) (44_mask.md R249). -/
def State.maskScore (s : State) (m : Nat) : Nat := penaltyOf (side s.symbol.version.toNat) (s.candidate m)

/-- The scores of the eight candidates. -/
def State.maskScores (s : State) : List Nat := (List.range 8).map s.maskScore

/-- m*, the mask that MASK selects (44_mask.md R250). -/
def State.bestMask (s : State) : Nat := selectMask s.maskScores

theorem maskScores_getD (s : State) {m : Nat} (hm : m < 8) : s.maskScores.getD m 0 = s.maskScore m := by
  simp [State.maskScores, hm]

/-- The selected mask is one of the eight, and the least of those with the minimal score (44_mask.md R250). -/
theorem bestMask_spec (s : State) :
    s.bestMask < 8 ∧ (∀ m, m < 8 → s.maskScore s.bestMask ≤ s.maskScore m) ∧
      ∀ m, m < s.bestMask → s.maskScore s.bestMask < s.maskScore m := by
  obtain ⟨hlt, hmin, hleast⟩ := selectMask_spec (scores := s.maskScores) (by simp [State.maskScores])
  change s.bestMask < 8 at hlt
  change ∀ t ∈ s.maskScores, s.maskScores.getD s.bestMask 0 ≤ t at hmin
  change ∀ m, m < s.bestMask → s.maskScores.getD s.bestMask 0 < s.maskScores.getD m 0 at hleast
  rw [maskScores_getD s hlt] at hmin hleast
  refine ⟨hlt, fun m hm => hmin _ (List.mem_map_of_mem (List.mem_range.2 hm)), fun m hm => ?_⟩
  rw [← maskScores_getD s (hm.trans hlt)]
  exact hleast m hm

theorem bestMask_lt (s : State) : s.bestMask < 8 := (bestMask_spec s).1

@[simp] theorem toNat_ofNat_bestMask (s : State) : (BitVec.ofNat 3 s.bestMask).toNat = s.bestMask := by
  rw [BitVec.toNat_ofNat, Nat.mod_eq_of_lt (bestMask_lt s)]

/-! ## The registers MASK writes -/

theorem get_penaltiesOf (scores : List Nat) {m : Nat} (hm : m < 8) :
    (penaltiesOf scores).get m = BitVec.ofNat 32 (scores.getD m 0) := by
  interval_cases m <;> rfl

theorem get_penaltiesOf_maskScores (s : State) {m : Nat} (hm : m < 8) :
    (penaltiesOf s.maskScores).get m = BitVec.ofNat 32 (s.maskScore m) := by
  rw [get_penaltiesOf _ hm, maskScores_getD s hm]

/-- The version word as the register holds it, 0 below version 7 (44_mask.md R254, R257). -/
def versionBitsOf (v : Nat) : BitVec 18 := if 7 ≤ v then BitVec.ofNat 18 (versionWord v) else 0#18

/-- The four terms of a symbol's penalty, as the registers hold them (10_state.md R46). -/
def penaltyTermsOf (n : Nat) (c : Matrix) : PenaltyTerms :=
  { n1 := BitVec.ofNat 32 (penaltyN1 n c), n2 := BitVec.ofNat 32 (penaltyN2 c),
    n3 := BitVec.ofNat 32 (penaltyN3 n c), n4 := BitVec.ofNat 32 (penaltyN4 n c) }

/-- A score is the sum of its terms, in the registers as in numbers (44_mask.md R249). -/
theorem ofNat_penaltyOf (n : Nat) (c : Matrix) :
    BitVec.ofNat 32 (penaltyOf n c) =
      (penaltyTermsOf n c).n1 + (penaltyTermsOf n c).n2 + (penaltyTermsOf n c).n3 + (penaltyTermsOf n c).n4 := by
  simp only [penaltyOf, penaltyTermsOf, BitVec.ofNat_add]

/-- A total that fits a register has terms that fit. -/
theorem toNat_penaltyTermsOf {n : Nat} {c : Matrix} (hscore : penaltyOf n c < 2 ^ 32) :
    (penaltyTermsOf n c).n1.toNat = penaltyN1 n c ∧ (penaltyTermsOf n c).n2.toNat = penaltyN2 c ∧
      (penaltyTermsOf n c).n3.toNat = penaltyN3 n c ∧ (penaltyTermsOf n c).n4.toNat = penaltyN4 n c := by
  unfold penaltyOf at hscore
  refine ⟨?_, ?_, ?_, ?_⟩ <;> exact (BitVec.toNat_ofNat ..).trans (Nat.mod_eq_of_lt (by omega))

/-- MASK of a placed symbol (44_mask.md R259). -/
theorem maskBody_ok {s : State} (h : s.status.vPlace = true) :
    maskBody s = .ok
      { s.writeMatrix .matrix (s.candidate s.bestMask) with
        symbol := { s.symbol with mask := BitVec.ofNat 3 s.bestMask }
        formatBits := BitVec.ofNat 15 (formatWord (Level.ofCode s.symbol.level) s.bestMask)
        versionBits := versionBitsOf s.symbol.version.toNat
        penalty := penaltiesOf s.maskScores
        penTerms := penaltyTermsOf (side s.symbol.version.toNat) (s.candidate s.bestMask)
        status := s.status.maskCompletes } := by
  have hscores : ((List.range 8).map s.candidate).map (penaltyOf (side s.symbol.version.toNat)) = s.maskScores :=
    List.map_map
  have hbest : ((List.range 8).map s.candidate).getD s.bestMask [] = s.candidate s.bestMask := by
    simp [bestMask_lt s]
  rw [← hbest, State.bestMask, ← hscores]
  simp only [maskBody, h, if_true]
  rfl

end Sys2Proof.Machine
end

section
/-! SUPPORT. The invariant of a finished symbol's record (44_mask.md R257, R259; 10_state.md R57): MASK writes the
record whole, and whatever else writes a part of it revokes V_MASK. -/

namespace Sys2Proof.Machine

/-! ## The record of the finished symbol -/

/-- `t` has the record of `s`: SYMBOL and what the registers say of it. -/
structure SameRecord (s t : State) : Prop where
  symbol : t.symbol = s.symbol
  formatBits : t.formatBits = s.formatBits
  versionBits : t.versionBits = s.versionBits
  penalty : t.penalty = s.penalty
  penTerms : t.penTerms = s.penTerms

/-- Where V_MASK is still 1, it is to have been 1 before, and the record is to be as it was. -/
theorem SymbolInv.of_kept {s t : State} (h : SymbolInv s)
    (hkept : t.status.vMask = true → s.status.vMask = true ∧ SameRecord s t) : SymbolInv t := by
  constructor <;> intro hmask <;> obtain ⟨hmasked, hrecord⟩ := hkept hmask
  · rw [hrecord.symbol, hrecord.formatBits]; exact h.format hmasked
  · rw [hrecord.symbol, hrecord.versionBits]; exact h.versionBits hmasked
  · rw [hrecord.symbol, hrecord.penalty, hrecord.penTerms]; exact h.penaltySum hmasked

theorem symbolInv_of_noFlag {s : State} (hmask : s.status.vMask = false) : SymbolInv s := by
  constructor <;> simp [hmask]

theorem SymbolInv.congr {s t : State} (h : SymbolInv s) (hmask : t.status.vMask = s.status.vMask)
    (hrecord : SameRecord s t) : SymbolInv t :=
  h.of_kept fun hmasked => ⟨hmask ▸ hmasked, hrecord⟩

/-! ## The operations that finish no symbol -/

/-- An error row sets no flag. -/
theorem SymbolInv.errorEnd {s : State} (h : SymbolInv s) (e : CommandError) : SymbolInv (s.errorEnd e) := by
  refine h.of_kept fun hmasked => ⟨?_, by constructor <;> rfl⟩
  rw [show (s.errorEnd e).status.vMask = _ from errorRow_vMask e.stage s.status, Bool.and_eq_true] at hmasked
  exact hmasked.1

theorem SymbolInv.accept {s : State} (h : SymbolInv s) (op : BitVec 4) : SymbolInv (s.accept op) := by
  have hrecord : SymbolInv (s.acceptOutcome op) := h.congr rfl (by constructor <;> rfl)
  by_cases hstage : op.toNat < 8
  · rw [accept_stage s hstage]
    exact hrecord.congr rfl (by constructor <;> rfl)
  · rw [accept_reserved s (by omega)]
    exact hrecord.errorEnd _

/-- Of the register writes only that of SYMBOL stores a part of the record, and it revokes V_MASK. -/
theorem SymbolInv.writeReg {s : State} (h : SymbolInv s) (o : Nat) (w : Word) : SymbolInv (s.writeReg o w) := by
  unfold State.writeReg
  split
  -- SYMBOL
  case h_6 => exact symbolInv_of_noFlag rfl
  all_goals exact h.congr rfl (by constructor <;> rfl)

theorem sameRecord_writeBuf (s : State) (b : BufId) (k : Nat) (bs : List Byte) : SameRecord s (s.writeBuf b k bs) :=
  ⟨writeBuf_symbol .., writeBuf_formatBits .., writeBuf_versionBits .., writeBuf_penalty .., writeBuf_penTerms ..⟩

/-- An ABORT leaves the record, unless the pending command has a part of it in its WriteSet (40_host_bus.md R136). -/
theorem sameRecord_abort {s : State} (hbusy : s.status.busy = true) (hop : s.pendingOp.toNat ∉ [1, 2, 3, 4, 5]) :
    SameRecord s s.abort := by
  have hkept {l : Loc} (hwriters : l.writers ⊆ [1, 2, 3, 4, 5]) : s.abort.contents l = s.contents l :=
    (contents_abort hbusy l).trans (if_neg fun hmem => hop (hwriters hmem))
  have hversion : s.abort.symbol.version = s.symbol.version := hkept (l := .symbolVersion) (by decide)
  have hlevel : s.abort.symbol.level = s.symbol.level := hkept (l := .symbolLevel) (by decide)
  have hmask : s.abort.symbol.mask = s.symbol.mask := hkept (l := .symbolMask) (by decide)
  exact ⟨(SymbolReg.mk.injEq ..).mpr ⟨hversion, hlevel, hmask⟩, hkept (l := .formatBits) (by decide),
    hkept (l := .versionBits) (by decide), hkept (l := .penalties) (by decide), hkept (l := .penaltyTerms) (by decide)⟩

/-- An ABORT of a command that may have written a part of the record revokes V_MASK. -/
theorem SymbolInv.abort {s : State} (h : SymbolInv s) (hbusy : s.status.busy = true) : SymbolInv s.abort := by
  refine h.of_kept fun hmasked => ?_
  have hrow : s.abort.status.vMask = (s.status.errorRow (stageOfCommand s.pendingOp)).vMask := by rw [abort_busy hbusy]
  rw [hrow, errorRow_stageOfCommand, Bool.and_eq_true, Bool.not_eq_true', decide_eq_false_iff_not] at hmasked
  exact ⟨hmasked.1, sameRecord_abort hbusy hmasked.2⟩

/-! ## Completion -/

/-- MASK writes the format and version words of the symbol with the mask it selects, and that mask's score. -/
theorem maskBody_symbolInv {s t : State} (h : maskBody s = .ok t) : SymbolInv t := by
  cases hplace : s.status.vPlace
  · rw [maskBody_error hplace] at h; cases h
  · rw [maskBody_ok hplace] at h; cases h
    constructor <;> intro _ <;> simp only [toNat_ofNat_bestMask]
    · rfl
    · rw [get_penaltiesOf_maskScores s (bestMask_lt s), State.maskScore, ofNat_penaltyOf]

theorem packBody_vMask {s t : State} (h : packBody s = .ok t) : t.status.vMask = false := by
  rcases packBody_cases s with ⟨he, -⟩ | ⟨v, t', -, hn, hv⟩
  · rw [he] at h; cases h
  · rw [packBody_ok hn hv] at h; cases h; rfl

theorem eccBody_vMask {s t : State} (h : eccBody s = .ok t) : t.status.vMask = false := by
  cases hv : isVersion s.symbol.version.toNat
  · rw [eccBody_error hv] at h; cases h
  · rw [eccBody_ok hv] at h; cases h; rfl

theorem placeBody_vMask {s t : State} (h : placeBody s = .ok t) : t.status.vMask = false := by
  cases hv : isVersion s.symbol.version.toNat
  · rw [placeBody_badParam hv] at h; cases h
  by_cases hc : s.cwCount.toNat = totalCw s.symbol.version.toNat
  · rw [placeBody_ok hv hc] at h; cases h; rfl
  · rw [placeBody_overflow hv hc] at h; cases h

/-- ENCODE ends with MASK (45_encode_render.md R280). -/
theorem encodeBody_symbolInv {s t : State} (h : encodeBody s = .ok t) : SymbolInv t := by
  unfold encodeBody at h
  split at h
  · cases h
  · split at h
    · cases h
    · split at h
      · cases h
      · exact maskBody_symbolInv h

theorem SymbolInv.vectorBody {s t : State} (hs : SymbolInv s) (h : vectorBody s = .ok t) : SymbolInv t := by
  cases hv : s.status.vMask
  · rw [vectorBody_error hv] at h; cases h
  · rw [vectorBody_ok hv] at h; cases h
    exact hs.congr rfl (by constructor <;> rfl)

theorem SymbolInv.rsBody {s t : State} (hs : SymbolInv s) (h : rsBody s = .ok t) : SymbolInv t := by
  cases hv : rsParamOk s.rsParam.k.toNat s.rsParam.e.toNat
  · rw [rsBody_error hv] at h; cases h
  · rw [rsBody_ok hv] at h; cases h
    exact hs.congr rfl (sameRecord_writeBuf ..)

theorem SymbolInv.commandBody {s t : State} {op : BitVec 4} (hs : SymbolInv s) (h : commandBody op s = .ok t) :
    SymbolInv t := by
  unfold Machine.commandBody at h
  split at h
  · exact symbolInv_of_noFlag (packBody_vMask h)
  · exact symbolInv_of_noFlag (eccBody_vMask h)
  · exact symbolInv_of_noFlag (placeBody_vMask h)
  · exact maskBody_symbolInv h
  · exact encodeBody_symbolInv h
  · exact hs.vectorBody h
  · exact hs.rsBody h
  · cases h

theorem symbolInv_stable : StepStable SymbolInv where
  frame _ _ _ _ _ h := h.congr rfl (by constructor <;> rfl)
  dropWrite _ h := h.congr rfl (by constructor <;> rfl)
  abort _ hbusy h := h.abort hbusy
  accept _ op _ _ _ h := h.accept op
  writeReg _ o w _ h := h.writeReg o w
  writeBuf _ _ _ _ _ _ _ _ h := h.congr (by rw [writeBuf_status]) (sameRecord_writeBuf ..)
  complete _ _ _ hbody h := (h.commandBody hbody).congr rfl (by constructor <;> rfl)
  errorEnd _ e _ _ h := h.errorEnd e
  resetTurn _ _ := symbolInv_of_noFlag rfl

/-- Settles O59: MASK, and ENCODE through it, writes the whole record and sets V_MASK; whatever else writes a part of it
(a SYMBOL write, PACK, an ABORT, reset) clears V_MASK. -/
theorem stepKeepsFinishedSymbolRecord : Obligations.StepKeepsFinishedSymbolRecord :=
  fun _ _ hs ht => symbolInv_stable.step ht hs

end Sys2Proof.Machine
end

section
/-! SUPPORT. The penalty of an n×n symbol (44_mask.md R245-R249): its lines, the four terms as counts over runs, windows
and modules, and the bound on their sum. -/

namespace Sys2Proof.Machine

/-! ## The lines of a symbol -/

/-- The first `n` modules of a line that is given by position. -/
def lineOf (n : Nat) (f : Nat → Bool) : List Bool := (List.range n).map f

@[simp] theorem lineOf_length (n : Nat) (f : Nat → Bool) : (lineOf n f).length = n := by simp [lineOf]

@[simp] theorem lineOf_zero (f : Nat → Bool) : lineOf 0 f = [] := rfl

theorem lineOf_succ (n : Nat) (f : Nat → Bool) : lineOf (n + 1) f = f 0 :: lineOf n fun i => f (i + 1) := by
  rw [lineOf, List.range_succ_eq_map, List.map_cons, List.map_map]
  rfl

theorem build_eq_lines (n : Nat) (f : Nat → Nat → Bool) :
    Matrix.build n f = (List.range n).map fun r => lineOf n (f r) := rfl

/-- The columns of a symbol are the lines of its transpose. -/
theorem columns_build (n : Nat) (f : Nat → Nat → Bool) :
    (Matrix.build n f).columns n = (List.range n).map fun c => lineOf n fun r => f r c := by
  refine List.map_congr_left fun c hc => ?_
  rw [build_eq_lines, List.map_map]
  exact List.map_congr_left fun r _ => by simp [lineOf, List.mem_range.1 hc]

/-- A sum over the lines is a sum over the rows and a sum over the columns (44_mask.md R246). -/
theorem sum_lines_build (score : List Bool → Nat) (n : Nat) (f : Nat → Nat → Bool) :
    (((Matrix.build n f).lines n).map score).sum =
      ((List.range n).map fun r => score (lineOf n (f r))).sum
        + ((List.range n).map fun c => score (lineOf n fun r => f r c)).sum := by
  rw [Matrix.lines, List.map_append, List.sum_append, columns_build, build_eq_lines, List.map_map, List.map_map]
  rfl

/-! ## P1 (44_mask.md R246) -/

/-- The runs of a line that are still to come add up to what `runsFrom` says; `g` is the part of the current run that
is behind, `gs` are the runs that have ended. -/
theorem sum_runScore_splitBy_loop (bs : List Bool) (b : Bool) (g : List Bool) (gs : List (List Bool)) :
    ((List.splitBy.loop (fun x y => x == y) bs b g gs).map fun run => runScore run.length).sum =
      (gs.map fun run => runScore run.length).sum + runsFrom b (g.length + 1) bs := by
  induction bs generalizing b g gs with
  | nil => simp [List.splitBy.loop, runsFrom, Nat.add_comm]
  | cons b' bs ih =>
    by_cases hsame : b' = b
    · simp [List.splitBy.loop, runsFrom, hsame, ih]
    · have hend : (b == b') = false := beq_false_of_ne (Ne.symm hsame)
      simp [List.splitBy.loop, runsFrom, hsame, hend, ih]
      omega

/-- A line scores the sum over its maximal runs. -/
theorem lineRuns_eq_sum (line : List Bool) :
    lineRuns line = ((line.splitBy fun x y => x == y).map fun run => runScore run.length).sum := by
  cases line with
  | nil => rfl
  | cons b bs => simp [lineRuns, List.splitBy, sum_runScore_splitBy_loop]

/-- Settles O27: P1 sums `lineRuns` over rows and columns, and a line scores the sum over its maximal runs. -/
theorem runPenaltyCountsMaximalRuns : Obligations.RunPenaltyCountsMaximalRuns := by
  intro n f score
  have hscore (line : List Bool) : lineRuns line = score line := lineRuns_eq_sum line
  rw [penaltyN1, sum_lines_build]
  simp only [hscore, lineOf]

/-! ## P2 (44_mask.md R247) -/

/-- The monochrome windows of two adjacent rows. -/
theorem rowPairBlocks_lineOf (n : Nat) (f g : Nat → Bool) :
    rowPairBlocks (lineOf n f) (lineOf n g) =
      (List.range (n - 1)).countP fun c => decide (f c = f (c + 1) ∧ f c = g c ∧ f c = g (c + 1)) := by
  induction n generalizing f g with
  | zero => rfl
  | succ n ih =>
    cases n with
    | zero => rfl
    | succ n =>
      have hrest := ih (fun i => f (i + 1)) (fun i => g (i + 1))
      rw [lineOf_succ, lineOf_succ] at hrest ⊢
      rw [lineOf_succ, lineOf_succ, rowPairBlocks, hrest, Nat.add_sub_cancel, Nat.add_sub_cancel,
        List.range_succ_eq_map, List.countP_cons, List.countP_map, Nat.add_comm]
      simp [Function.comp_def]

/-- Each row of a symbol with the next. -/
theorem zipWith_tail_map_range {α β : Type} (h : α → α → β) (row : Nat → α) (n : Nat) :
    List.zipWith h ((List.range n).map row) ((List.range n).map row).tail =
      (List.range (n - 1)).map fun r => h (row r) (row (r + 1)) := by
  apply List.ext_getElem
  · simp
  · simp

/-- Settles O28: P2 sums the monochrome windows of each row with the next. -/
theorem blockPenaltyCountsTwoByTwoWindows : Obligations.BlockPenaltyCountsTwoByTwoWindows := by
  intro n f
  rw [penaltyN2, build_eq_lines, zipWith_tail_map_range]
  simp only [rowPairBlocks_lineOf]
  rfl

/-! ## P3 (44_mask.md R248) -/

/-- The windows of a line are the prefixes of its tails. -/
theorem finderLike_eq_countP (line : List Bool) :
    finderLike line = line.tails.countP patternA.isPrefixOf + line.tails.countP patternB.isPrefixOf := by
  induction line with
  | nil => rfl
  | cons b bs ih =>
    rw [finderLike, ih, List.tails_cons, List.countP_cons, List.countP_cons]
    omega

/-- A pattern begins a line that is long enough and shows it in its first modules. -/
theorem isPrefixOf_lineOf (p : List Bool) (n : Nat) (f : Nat → Bool) :
    p.isPrefixOf (lineOf n f) = (decide (p.length ≤ n) && (lineOf p.length f == p)) := by
  rw [Bool.eq_iff_iff, List.isPrefixOf_iff_prefix, List.prefix_iff_eq_take, lineOf, ← List.map_take, List.take_range,
    Bool.and_eq_true, decide_eq_true_iff, beq_iff_eq]
  constructor
  · intro h
    have hlength := congrArg List.length h
    rw [List.length_map, List.length_range] at hlength
    rw [← hlength] at h
    exact ⟨by omega, h.symm⟩
  · rintro ⟨hlength, h⟩
    rw [min_eq_left hlength]
    exact h.symm

/-- A pattern is counted once for every window fully inside the line that equals it. -/
theorem countP_isPrefixOf_tails {p : List Bool} (hp : 1 ≤ p.length) (n : Nat) (f : Nat → Bool) :
    (lineOf n f).tails.countP p.isPrefixOf =
      (List.range (n + 1 - p.length)).countP fun q => lineOf p.length (fun i => f (q + i)) == p := by
  induction n generalizing f with
  | zero =>
    obtain ⟨b, bs, rfl⟩ := List.exists_cons_of_length_pos hp
    simp
  | succ n ih =>
    have hhead := isPrefixOf_lineOf p (n + 1) f
    rw [lineOf_succ] at hhead ⊢
    rw [List.tails_cons, List.countP_cons, ih, hhead]
    by_cases hlong : p.length ≤ n + 1
    · rw [show n + 1 + 1 - p.length = (n + 1 - p.length) + 1 by omega, List.range_succ_eq_map, List.countP_cons,
        List.countP_map]
      simp [Function.comp_def, hlong, Nat.add_right_comm]
    · rw [show n + 1 - p.length = 0 by omega, show n + 1 + 1 - p.length = 0 by omega]
      simp [hlong]

/-- Settles O29: P3 sums over rows and columns the windows that equal PAT_A and those that equal PAT_B. -/
theorem finderLikePenaltyCountsWindows : Obligations.FinderLikePenaltyCountsWindows := by
  intro n f a b hits
  have hhits (line : Nat → Bool) : finderLike (lineOf n line) = hits line := by
    rw [finderLike_eq_countP, countP_isPrefixOf_tails (by decide), countP_isPrefixOf_tails (by decide)]
    rfl
  rw [penaltyN3, sum_lines_build]
  simp only [hhits]
  rfl

/-! ## P4 and the total (44_mask.md R249) -/

theorem dark_build (n : Nat) (f : Nat → Nat → Bool) :
    (Matrix.build n f).dark = ((List.range n).map fun r => (List.range n).countP fun c => f r c).sum := by
  rw [Matrix.dark, build_eq_lines, List.map_map]
  refine congrArg List.sum (List.map_congr_left fun r _ => ?_)
  simp [lineOf, List.count_eq_countP, List.countP_map, Function.comp_def]

theorem gap_eq_natAbs (a b : Nat) : gap a b = ((a : Int) - (b : Int)).natAbs := by unfold gap; omega

/-- A symbol of `n` rows of `n` modules. -/
structure Matrix.Square (n : Nat) (m : Matrix) : Prop where
  rows : m.length = n
  row : ∀ line ∈ m, line.length = n

theorem square_build (n : Nat) (f : Nat → Nat → Bool) : (Matrix.build n f).Square n where
  rows := build_length n f
  row := by simp [Matrix.build]

theorem runScore_le (len : Nat) : runScore len ≤ len := by
  unfold runScore weightN1
  split <;> omega

theorem runsFrom_le (b : Bool) (len : Nat) (bs : List Bool) : runsFrom b len bs ≤ len + bs.length := by
  induction bs generalizing b len with
  | nil => exact runScore_le len
  | cons b' bs ih =>
    rw [runsFrom, List.length_cons]
    have hscore := runScore_le len
    have hsame := ih b (len + 1)
    have hnew := ih b' 1
    split <;> omega

/-- The runs of a line score at most one point for each module. -/
theorem lineRuns_le (line : List Bool) : lineRuns line ≤ line.length := by
  cases line with
  | nil => exact Nat.le_refl 0
  | cons b bs =>
    have hrun := runsFrom_le b 1 bs
    rw [lineRuns, List.length_cons]
    omega

theorem rowPairBlocks_le (as bs : List Bool) : rowPairBlocks as bs ≤ as.length := by
  induction as, bs using rowPairBlocks.induct with
  | case1 a b as c d cs ih =>
    rw [rowPairBlocks]
    simp only [List.length_cons] at ih ⊢
    split <;> omega
  | case2 as bs hshort =>
    rw [rowPairBlocks]
    · exact Nat.zero_le _
    · exact hshort

/-- At most one of the patterns begins at a module: PAT_A begins dark, PAT_B light. -/
theorem finderLike_le (line : List Bool) : finderLike line ≤ line.length := by
  induction line with
  | nil => exact Nat.le_refl 0
  | cons b bs ih =>
    have hone :
        (if patternA.isPrefixOf (b :: bs) then 1 else 0) + (if patternB.isPrefixOf (b :: bs) then 1 else 0) ≤ 1 := by
      cases b
      · rw [if_neg (by simp [patternA])]
        split <;> omega
      · rw [if_neg (c := patternB.isPrefixOf _ = true) (by simp [patternB])]
        split <;> omega
    rw [finderLike, List.length_cons]
    omega

section Bounds

variable {n : Nat} {m : Matrix} (hsquare : m.Square n)
include hsquare

/-- The 2N lines have N modules each. -/
theorem sum_lines_le {score : List Bool → Nat} (hscore : ∀ line, score line ≤ line.length) :
    ((m.lines n).map score).sum ≤ 2 * (n * n) := by
  have hlines : (m.lines n).length = 2 * n := by simp [Matrix.lines, Matrix.columns, hsquare.rows]; omega
  have hline : ∀ line ∈ m.lines n, line.length = n := fun line hmem => by
    rcases List.mem_append.1 hmem with hrow | hcolumn
    · exact hsquare.row line hrow
    · obtain ⟨c, -, rfl⟩ := List.mem_map.1 hcolumn
      rw [List.length_map, hsquare.rows]
  have hsum := List.sum_le_card_nsmul ((m.lines n).map score) n fun x hx => by
    obtain ⟨line, hmem, rfl⟩ := List.mem_map.1 hx
    exact (hscore line).trans (hline line hmem).le
  rwa [List.length_map, hlines, smul_eq_mul, Nat.mul_assoc] at hsum

theorem penaltyN1_le : penaltyN1 n m ≤ 2 * (n * n) := sum_lines_le hsquare lineRuns_le

theorem penaltyN2_le : penaltyN2 m ≤ 3 * (n * n) := by
  have hsum := List.sum_le_card_nsmul (List.zipWith rowPairBlocks m m.tail) n fun x hx => by
    rw [← List.map_uncurry_zip_eq_zipWith] at hx
    obtain ⟨⟨as, bs⟩, hmem, rfl⟩ := List.mem_map.1 hx
    exact (rowPairBlocks_le as bs).trans (hsquare.row as (List.of_mem_zip hmem).1).le
  have hlength : (List.zipWith rowPairBlocks m m.tail).length ≤ n := by
    rw [List.length_zipWith, hsquare.rows]
    exact min_le_left ..
  exact Nat.mul_le_mul_left 3 (hsum.trans (Nat.mul_le_mul_right n hlength))

theorem penaltyN3_le : penaltyN3 n m ≤ 80 * (n * n) := by
  have hsum := sum_lines_le hsquare finderLike_le
  rw [penaltyN3, weightN3]
  omega

theorem dark_le : m.dark ≤ n * n := by
  have hsum := List.sum_le_card_nsmul (m.map fun row => row.count true) n fun x hx => by
    obtain ⟨row, hrow, rfl⟩ := List.mem_map.1 hx
    exact List.count_le_length.trans (hsquare.row row hrow).le
  rwa [List.length_map, hsquare.rows, smul_eq_mul] at hsum

theorem penaltyN4_le : penaltyN4 n m ≤ 100 := by
  have hdark := dark_le hsquare
  have hgap : gap (20 * m.dark) (10 * (n * n)) ≤ n * n * 10 := by unfold gap; omega
  exact Nat.mul_le_mul_left 10 (Nat.div_le_of_le_mul hgap)

/-- The bound of R249. -/
theorem penaltyOf_lt (hn : n ≤ 177) : penaltyOf n m < 2 ^ 22 := by
  have hmodules : n * n ≤ 177 * 177 := Nat.mul_le_mul hn hn
  have h1 := penaltyN1_le hsquare
  have h2 := penaltyN2_le hsquare
  have h3 := penaltyN3_le hsquare
  have h4 := penaltyN4_le hsquare
  unfold penaltyOf
  omega

end Bounds

/-- Settles O30: the number of dark modules by rows gives P4, and each term is bounded by the number of modules. -/
theorem penaltyTotalFitsItsRegister : Obligations.PenaltyTotalFitsItsRegister := by
  intro n f _ hn c dark
  refine ⟨?_, rfl, penaltyOf_lt (square_build n f) hn⟩
  have hdark : c.dark = dark := dark_build n f
  rw [penaltyN4, hdark, gap_eq_natAbs, weightN4]
  push_cast
  rfl

end Sys2Proof.Machine
end

section
/-! SUPPORT. A candidate module by module (44_mask.md R241-R243, R252-R256): where the format and version information
stands, what it is, and what is under it. -/

namespace Sys2Proof.Machine

/-! ## The masks (44_mask.md R241) -/

/-- The eight conditions of the rule's table. -/
def maskCondition (m i j : Nat) : Bool :=
  [decide ((i + j) % 2 = 0), decide (i % 2 = 0), decide (j % 3 = 0), decide ((i + j) % 3 = 0),
    decide ((i / 2 + j / 3) % 2 = 0), decide ((i * j) % 2 + (i * j) % 3 = 0),
    decide (((i * j) % 2 + (i * j) % 3) % 2 = 0), decide (((i + j) % 2 + (i * j) % 3) % 2 = 0)].getD m false

theorem maskFn_eq_maskCondition {m : Nat} (i j : Nat) (hm : m < 8) : maskFn m i j = maskCondition m i j := by
  interval_cases m <;> rfl

/-! ## The information words (44_mask.md R252, R254) -/

/-- The format words of the rule's table, by the register code of the level. -/
def formatTable : List (List Nat) :=
  [[0x77C4, 0x72F3, 0x7DAA, 0x789D, 0x662F, 0x6318, 0x6C41, 0x6976],
    [0x5412, 0x5125, 0x5E7C, 0x5B4B, 0x45F9, 0x40CE, 0x4F97, 0x4AA0],
    [0x355F, 0x3068, 0x3F31, 0x3A06, 0x24B4, 0x2183, 0x2EDA, 0x2BED],
    [0x1689, 0x13BE, 0x1CE7, 0x19D0, 0x0762, 0x0255, 0x0D0C, 0x083B]]

theorem formatWord_eq_table : ∀ code : BitVec 2, ∀ m < 8,
    formatWord (Level.ofCode code) m = (formatTable.getD code.toNat []).getD m 0 ∧
      formatWord (Level.ofCode code) m < 2 ^ 15 := by
  decide +kernel

/-- The version word has the version in its top six bits and is a multiple of the generator. -/
theorem versionWord_spec {v : Nat} (h7 : 7 ≤ v) (h40 : v ≤ 40) :
    versionWord v < 2 ^ 18 ∧ versionWord v / 4096 = v ∧
      [17, 16, 15, 14, 13, 12].foldl (bchStep 0x1F25 12) (versionWord v) = 0 :=
  forall_version (by omega) h40
    (P := fun v => 7 ≤ v → versionWord v < 2 ^ 18 ∧ versionWord v / 4096 = v ∧
      [17, 16, 15, 14, 13, 12].foldl (bchStep 0x1F25 12) (versionWord v) = 0) (by decide +kernel) h7

/-! ## The information areas (44_mask.md R253, R255) -/

/-- The modules of the format information, the dark module among them. -/
def InFormatArea (n r c : Nat) : Prop :=
  (c = 8 ∧ ((r ≤ 8 ∧ r ≠ 6) ∨ n - 8 ≤ r)) ∨ (r = 8 ∧ ((c ≤ 8 ∧ c ≠ 6) ∨ n - 8 ≤ c))

/-- The modules of the version information. -/
def InVersionArea (n r c : Nat) : Prop :=
  (r ≤ 5 ∧ n - 11 ≤ c ∧ c ≤ n - 9) ∨ (c ≤ 5 ∧ n - 11 ≤ r ∧ r ≤ n - 9)

theorem forall_cells {cells : List ((Nat × Nat) × Bool)} {P : Nat → Nat → Bool → Prop} :
    (∀ r c x, ((r, c), x) ∈ cells → P r c x) ↔ ∀ cell ∈ cells, P cell.1.1 cell.1.2 cell.2 := by
  simp only [Prod.forall]

/-- The assignments of WriteFormat: copy 1 down column 8 and along row 8, copy 2, the dark module. -/
theorem forall_formatCells {n f : Nat} {P : Nat → Nat → Bool → Prop} :
    (∀ r c x, ((r, c), x) ∈ formatCells n f → P r c x) ↔
      (∀ i, i ≤ 5 → P i 8 (f.testBit i)) ∧ P 7 8 (f.testBit 6) ∧ P 8 8 (f.testBit 7) ∧ P 8 7 (f.testBit 8) ∧
      (∀ i, 9 ≤ i → i ≤ 14 → P 8 (14 - i) (f.testBit i)) ∧ (∀ i, i ≤ 7 → P 8 (n - 1 - i) (f.testBit i)) ∧
      (∀ i, 8 ≤ i → i ≤ 14 → P (n - 15 + i) 8 (f.testBit i)) ∧ P (n - 8) 8 true := by
  have hranges : formatCells n f =
      ((List.range' 0 6).map fun i => ((i, 8), f.testBit i))
        ++ [((7, 8), f.testBit 6), ((8, 8), f.testBit 7), ((8, 7), f.testBit 8)]
        ++ ((List.range' 9 6).map fun i => ((8, 14 - i), f.testBit i))
        ++ ((List.range' 0 8).map fun i => ((8, n - 1 - i), f.testBit i))
        ++ ((List.range' 8 7).map fun i => ((n - 15 + i, 8), f.testBit i))
        ++ [((n - 8, 8), true)] := rfl
  rw [forall_cells, hranges]
  simp only [List.forall_mem_append, List.forall_mem_map, List.mem_range'_1, List.forall_mem_cons, List.not_mem_nil,
    false_implies, implies_true, and_true, and_imp, and_assoc, Nat.zero_le, true_implies, Nat.zero_add,
    Nat.reduceAdd, Nat.lt_succ_iff]

/-- The assignments of WriteVersion, each bit at a module and at the transposed one. -/
theorem forall_versionCells {n w : Nat} {P : Nat → Nat → Bool → Prop} :
    (∀ r c x, ((r, c), x) ∈ versionCells n w → P r c x) ↔
      ∀ i, i < 18 → P (i / 3) (n - 11 + i % 3) (w.testBit i) ∧ P (n - 11 + i % 3) (i / 3) (w.testBit i) := by
  simp only [forall_cells, versionCells, List.forall_mem_flatMap, List.mem_range, List.forall_mem_cons,
    List.not_mem_nil, false_implies, implies_true, and_true]

theorem formatCells_area {n f : Nat} (hn : 21 ≤ n) :
    ∀ r c x, ((r, c), x) ∈ formatCells n f → r < n ∧ c < n ∧ InFormatArea n r c := by
  unfold InFormatArea
  refine forall_formatCells.2 ⟨?_, ?_, ?_, ?_, ?_, ?_, ?_, ?_⟩ <;> omega

theorem versionCells_area {n w : Nat} (hn : 21 ≤ n) :
    ∀ r c x, ((r, c), x) ∈ versionCells n w → r < n ∧ c < n ∧ InVersionArea n r c := by
  unfold InVersionArea
  refine forall_versionCells.2 fun i hi => ⟨?_, ?_⟩ <;> omega

/-- The two informations stand apart. -/
theorem formatCells_not_versionArea {n f r c : Nat} {x : Bool} (hn : 21 ≤ n)
    (hcell : ((r, c), x) ∈ formatCells n f) : ¬ InVersionArea n r c := by
  obtain ⟨-, -, harea⟩ := formatCells_area hn _ _ _ hcell
  unfold InFormatArea at harea
  unfold InVersionArea
  omega

section Version

variable {v : Nat} (h1 : 1 ≤ v) (h40 : v ≤ 40)
include h1 h40

/-- WriteFormat writes no module twice. -/
theorem formatCells_nodup (f : Nat) : ((formatCells (side v) f).map Prod.fst).Nodup :=
  forall_version h1 h40 (P := fun v => ((formatCells (side v) 0).map Prod.fst).Nodup) (by decide +kernel)

/-- WriteVersion writes no module twice. -/
theorem versionCells_nodup (w : Nat) : ((versionCells (side v) w).map Prod.fst).Nodup :=
  forall_version h1 h40 (P := fun v => ((versionCells (side v) 0).map Prod.fst).Nodup) (by decide +kernel)

end Version

/-! ## Squares -/

@[simp] theorem put_length (m : Matrix) (r c : Nat) (v : Bool) : (m.put r c v).length = m.length := by
  simp [Matrix.put]

@[simp] theorem putAll_length (cells : List ((Nat × Nat) × Bool)) (m : Matrix) :
    (m.putAll cells).length = m.length := by
  induction cells generalizing m with
  | nil => rfl
  | cons cell cells ih => exact (ih _).trans (put_length ..)

theorem square_of_width {n : Nat} {m : Matrix} (hrows : m.length = n) (hwidth : ∀ r, r < n → m.width r = n) :
    m.Square n where
  rows := hrows
  row line hline := by
    obtain ⟨r, hr, rfl⟩ := List.mem_iff_getElem.1 hline
    simpa [Matrix.width, hr] using hwidth r (hrows ▸ hr)

theorem Matrix.Square.width {n : Nat} {m : Matrix} (h : m.Square n) {r : Nat} (hr : r < n) : m.width r = n := by
  rw [Matrix.width, List.getD_eq_getElem _ _ (h.rows ▸ hr)]
  exact h.row _ (List.getElem_mem _)

/-- Assignments keep a square. -/
theorem Matrix.Square.putAll {n : Nat} {m : Matrix} (h : m.Square n) (cells : List ((Nat × Nat) × Bool)) :
    (m.putAll cells).Square n :=
  square_of_width (by rw [putAll_length, h.rows]) fun r hr => by rw [width_putAll, h.width hr]

/-- Outside the square there is no module. -/
theorem Matrix.Square.at_outside {n : Nat} {m : Matrix} (h : m.Square n) {r c : Nat} (hout : ¬ (r < n ∧ c < n)) :
    m.at r c = false := by
  by_cases hr : r < n
  · have hc : m.width r ≤ c := by
      rw [h.width hr]
      omega
    exact List.getD_eq_default _ _ hc
  · have hrow : m.getD r [] = [] := List.getD_eq_default _ _ (by rw [h.rows]; omega)
    rw [Matrix.at, hrow, List.getD_nil]

/-! ## Candidates (44_mask.md R243) -/

/-- What is under the information: the placed symbol with its data modules inverted by mask `m` (44_mask.md R242). -/
def maskedMatrix (v : Nat) (fn p : Matrix) (m : Nat) : Matrix :=
  Matrix.build (side v) fun r c => if !fn.at r c && maskFn m r c then !p.at r c else p.at r c

/-- The symbol with its format information. -/
def formattedMatrix (v : Nat) (l : Level) (fn p : Matrix) (m : Nat) : Matrix :=
  (maskedMatrix v fn p m).putAll (formatCells (side v) (formatWord l m))

theorem candidate_eq (v : Nat) (l : Level) (fn p : Matrix) (m : Nat) :
    candidate v l fn p m =
      if 7 ≤ v then (formattedMatrix v l fn p m).putAll (versionCells (side v) (versionWord v))
      else formattedMatrix v l fn p m := rfl

theorem square_formattedMatrix (v : Nat) (l : Level) (fn p : Matrix) (m : Nat) :
    (formattedMatrix v l fn p m).Square (side v) :=
  (square_build (side v) _).putAll _

theorem square_candidate (v : Nat) (l : Level) (fn p : Matrix) (m : Nat) : (candidate v l fn p m).Square (side v) := by
  rw [candidate_eq]
  split
  · exact (square_formattedMatrix v l fn p m).putAll _
  · exact square_formattedMatrix v l fn p m

section Version

variable {v : Nat} {l : Level} {fn p : Matrix} {m r c : Nat} (h1 : 1 ≤ v)
include h1

theorem side_ge : 21 ≤ side v := by unfold side; omega

/-- Outside the version area a candidate is the symbol with its format information. -/
theorem candidate_at_formatted (h : ¬ (7 ≤ v ∧ InVersionArea (side v) r c)) :
    (candidate v l fn p m).at r c = (formattedMatrix v l fn p m).at r c := by
  rw [candidate_eq]
  split
  case isTrue h7 =>
    refine putAll_at_other _ _ _ _ fun cell hcell he => h ⟨h7, ?_⟩
    obtain ⟨⟨r', c'⟩, x⟩ := cell
    obtain ⟨rfl, rfl⟩ := Prod.mk.inj he
    exact (versionCells_area (side_ge h1) _ _ _ hcell).2.2
  case isFalse => rfl

/-- Outside both areas a candidate is the masked symbol. -/
theorem candidate_at_masked (hr : r < side v) (hc : c < side v) (hformat : ¬ InFormatArea (side v) r c)
    (hversion : ¬ (7 ≤ v ∧ InVersionArea (side v) r c)) :
    (candidate v l fn p m).at r c = (p.at r c ^^ (!fn.at r c && maskFn m r c)) := by
  rw [candidate_at_formatted h1 hversion, formattedMatrix, putAll_at_other]
  case h =>
    rintro ⟨⟨r', c'⟩, x⟩ hcell he
    obtain ⟨rfl, rfl⟩ := Prod.mk.inj he
    exact hformat (formatCells_area (side_ge h1) _ _ _ hcell).2.2
  rw [maskedMatrix, build_at, decide_eq_true hr, decide_eq_true hc]
  cases !fn.at r c && maskFn m r c <;> simp

variable (h40 : v ≤ 40)
include h40

/-- A candidate holds its format information. -/
theorem candidate_at_format {x : Bool} (hcell : ((r, c), x) ∈ formatCells (side v) (formatWord l m)) :
    (candidate v l fn p m).at r c = x := by
  obtain ⟨hr, hc, -⟩ := formatCells_area (side_ge h1) _ _ _ hcell
  rw [candidate_at_formatted h1 fun h => formatCells_not_versionArea (side_ge h1) hcell h.2]
  exact putAll_at_mem (formatCells_nodup h1 h40 _) hcell (by rwa [maskedMatrix, width_build _ hr])

/-- From version 7 on a candidate holds its version information. -/
theorem candidate_at_version {x : Bool} (h7 : 7 ≤ v) (hcell : ((r, c), x) ∈ versionCells (side v) (versionWord v)) :
    (candidate v l fn p m).at r c = x := by
  obtain ⟨hr, hc, -⟩ := versionCells_area (side_ge h1) _ _ _ hcell
  rw [candidate_eq, if_pos h7]
  exact putAll_at_mem (versionCells_nodup h1 h40 _) hcell (by rwa [(square_formattedMatrix v l fn p m).width hr])

end Version

end Sys2Proof.Machine
end

section
/-! SUPPORT. The command MASK from its issue to its end (44_mask.md R250-R259): what a host sees of it in the registers
and in MATRIX. -/

namespace Sys2Proof.Machine

/-! ## The command -/

/-- The state MASK ends in with a placed symbol (44_mask.md R259). -/
def State.masked (s : State) (ts : List Turn) : State :=
  { (s.afterOk 4#4 ts).withStages s.status.vPack s.status.vEcc s.status.vPlace true false with
    symbol := { s.symbol with mask := BitVec.ofNat 3 s.bestMask }
    formatBits := BitVec.ofNat 15 (formatWord (Level.ofCode s.symbol.level) s.bestMask)
    versionBits := versionBitsOf s.symbol.version.toNat
    penalty := penaltiesOf s.maskScores
    penTerms := penaltyTermsOf (side s.symbol.version.toNat) (s.candidate s.bestMask)
    matrix := (s.writeMatrix .matrix (s.candidate s.bestMask)).matrix }

theorem engineComplete_mask {s : State} (ts : List Turn) (hplace : s.status.vPlace = true) :
    (s.issued 4#4 ts).engineComplete = s.masked ts :=
  engineComplete_ok (s := s.issued 4#4 ts) (maskBody_ok (s := s.issued 4#4 ts) hplace)

theorem engineComplete_mask_error {s : State} (ts : List Turn) (hplace : s.status.vPlace = false) :
    (s.issued 4#4 ts).engineComplete =
      (s.afterError 4#4 4#4 4#3 ts).withStages s.status.vPack s.status.vEcc s.status.vPlace false false :=
  engineComplete_error (s := s.issued 4#4 ts) (maskBody_error (s := s.issued 4#4 ts) hplace)

/-- MASK issued while idle with a placed symbol, the ENGINE's turn next. -/
theorem exec_mask_masked {s : State} {ts : List Turn} (hidle : s.status.busy = false) (hturn : s.turns = .engine :: ts)
    (hplace : s.status.vPlace = true) : ∃ t, exec .mask s = .next t ∧ step t = .next (s.masked ts) := by
  rw [← engineComplete_mask ts hplace]
  exact exec_stage_then_step hidle hturn (by simp [stageRows])

/-! ## What it leaves -/

theorem symbol_mask_masked (s : State) (ts : List Turn) : (s.masked ts).symbol.mask.toNat = s.bestMask :=
  toNat_ofNat_bestMask s

theorem square_stateCandidate (s : State) (m : Nat) : (s.candidate m).Square (side s.symbol.version.toNat) :=
  square_candidate ..

section Masked

variable {s : State} (ts : List Turn) (h1 : 1 ≤ s.symbol.version.toNat) (h40 : s.symbol.version.toNat ≤ 40)
include h40

/-- A score register holds its score (10_state.md R45). -/
theorem toNat_penalty_masked {m : Nat} (hm : m < 8) : ((s.masked ts).penalty.get m).toNat = s.maskScore m := by
  have hscore : s.maskScore m < 2 ^ 22 := penaltyOf_lt (square_stateCandidate s m) (side_le h40)
  have hword : (s.masked ts).penalty.get m = BitVec.ofNat 32 (s.maskScore m) := get_penaltiesOf_maskScores s hm
  rw [hword, BitVec.toNat_ofNat, Nat.mod_eq_of_lt (by omega)]

/-- The term registers hold the terms of the selected candidate (10_state.md R46). -/
theorem toNat_penTerms_masked :
    (s.masked ts).penTerms.n1.toNat = penaltyN1 (side s.symbol.version.toNat) (s.candidate s.bestMask) ∧
      (s.masked ts).penTerms.n2.toNat = penaltyN2 (s.candidate s.bestMask) ∧
      (s.masked ts).penTerms.n3.toNat = penaltyN3 (side s.symbol.version.toNat) (s.candidate s.bestMask) ∧
      (s.masked ts).penTerms.n4.toNat = penaltyN4 (side s.symbol.version.toNat) (s.candidate s.bestMask) :=
  toNat_penaltyTermsOf ((penaltyOf_lt (square_stateCandidate s _) (side_le h40)).trans (by decide))

/-- MATRIX is the selected candidate, with 0 in every stored bit outside N×N (44_mask.md R256). -/
theorem storedBit_masked {r c : Nat} (hr : r < sideMax) (hc : c < 192) :
    (s.masked ts).storedBit .matrix r c =
      (decide (r < side s.symbol.version.toNat) && decide (c < side s.symbol.version.toNat)
        && (s.candidate s.bestMask).at r c) := by
  refine (storedBit_congr (t := s.writeMatrix .matrix _) (b := .matrix) rfl r c).trans ?_
  rw [storedBit_writeMatrix s rfl _ r c hr hc, ← Bool.decide_and]
  by_cases hin : r < side s.symbol.version.toNat ∧ c < side s.symbol.version.toNat
  · rw [decide_eq_true hin, decide_eq_true (hin.2.trans_le (side_le h40))]
  · rw [(square_stateCandidate s _).at_outside hin, Bool.and_false, Bool.and_false]

theorem module_masked {r c : Nat} (hr : r < side s.symbol.version.toNat) (hc : c < side s.symbol.version.toNat) :
    (s.masked ts).module .matrix r c = (s.candidate s.bestMask).at r c := by
  have hside := side_le h40
  exact (module_congr (t := s.writeMatrix .matrix _) (b := .matrix) rfl r c).trans
    (module_writeMatrix s rfl _ r c (by omega) (by omega))

include h1

/-- MATRIX at a module outside the information areas. -/
theorem module_masked_data {r c : Nat} (hr : r < side s.symbol.version.toNat) (hc : c < side s.symbol.version.toNat)
    (hformat : ¬ InFormatArea (side s.symbol.version.toNat) r c)
    (harea : ¬ (7 ≤ s.symbol.version.toNat ∧ InVersionArea (side s.symbol.version.toNat) r c)) :
    (s.masked ts).module .matrix r c =
      (s.module .placed r c ^^ (!s.module .funcmap r c && maskCondition s.bestMask r c)) := by
  rw [module_masked ts h40 hr hc, State.candidate, candidate_at_masked h1 hr hc hformat harea,
    readMatrix_at s rfl, readMatrix_at s rfl, decide_eq_true hr, decide_eq_true hc,
    maskFn_eq_maskCondition r c (bestMask_lt s)]
  rfl

/-- MATRIX at a module of the format information. -/
theorem module_masked_format {r c : Nat} {x : Bool}
    (hcell : ((r, c), x) ∈ formatCells (side s.symbol.version.toNat)
      (formatWord (Level.ofCode s.symbol.level) s.bestMask)) :
    (s.masked ts).module .matrix r c = x := by
  obtain ⟨hr, hc, -⟩ := formatCells_area (side_ge h1) _ _ _ hcell
  rw [module_masked ts h40 hr hc, State.candidate, candidate_at_format h1 h40 hcell]

/-- MATRIX at a module of the version information. -/
theorem module_masked_version {r c : Nat} {x : Bool} (h7 : 7 ≤ s.symbol.version.toNat)
    (hcell : ((r, c), x) ∈ versionCells (side s.symbol.version.toNat) (versionWord s.symbol.version.toNat)) :
    (s.masked ts).module .matrix r c = x := by
  obtain ⟨hr, hc, -⟩ := versionCells_area (side_ge h1) _ _ _ hcell
  rw [module_masked ts h40 hr hc, State.candidate, candidate_at_version h1 h40 h7 hcell]

end Masked

/-! ## The obligations -/

/-- Settles O23: MASK ends in `State.masked` with a placed symbol, in STAGE_ORDER without one; the mask is that of
`bestMask_spec`, and no register is too narrow for its score or term. -/
theorem maskCommandSelectsTheMinimum : Obligations.MaskCommandSelectsTheMinimum := by
  intro s ts hidle hturn v l n cand
  obtain ⟨t, hexec, hstep⟩ := exec_stage_then_step (i := .mask) (op := 4#4) hidle hturn (by simp [stageRows])
  refine ⟨t, _, hexec, hstep, fun hplace h1 h40 => ?masked, fun hplace => ?stageOrder⟩
  case masked =>
    rw [engineComplete_mask ts hplace]
    intro best
    have hbest : best = s.bestMask := symbol_mask_masked s ts
    obtain ⟨hlt, hmin, hleast⟩ := bestMask_spec s
    have hscore (m : Nat) (hm : m < 8) : ((s.masked ts).penalty.get m).toNat = s.maskScore m :=
      toNat_penalty_masked ts h40 hm
    obtain ⟨hn1, hn2, hn3, hn4⟩ := toNat_penTerms_masked ts h40
    rw [hbest]
    refine ⟨?frame, hscore, fun m hm => ?least, hn1, hn2, hn3, hn4, ?sum,
      fun r c hr hc => storedBit_masked ts h40 hr hc⟩
    case frame =>
      unfold State.masked
      rw [hplace]
      rfl
    case least =>
      rw [hscore _ hlt, hscore m hm]
      exact ⟨hmin m hm, hleast m⟩
    case sum =>
      rw [hscore _ hlt, hn1, hn2, hn3, hn4]
      rfl
  case stageOrder => rw [engineComplete_mask_error ts hplace, hplace]

/-- Settles O24: outside the information areas MATRIX is the masked symbol, outside N×N it is 0. -/
theorem maskInvertsDataModulesOnly : Obligations.MaskInvertsDataModulesOnly := by
  unfold Obligations.MaskInvertsDataModulesOnly
  intro condition
  refine ⟨fun m i j hm => maskFn_eq_maskCondition i j hm, ?_⟩
  intro s ts hidle hturn v n hplace h1 h40
  obtain ⟨t, hexec, hstep⟩ := exec_mask_masked hidle hturn hplace
  refine ⟨t, _, hexec, hstep, fun r c hr hc hcolumn hrow hversion => ?_, fun r c hr hc hout => ?_⟩
  · rw [symbol_mask_masked]
    exact module_masked_data ts h1 h40 hr hc (fun h => h.elim hcolumn hrow) hversion
  · rw [storedBit_masked ts h40 hr hc, ← Bool.decide_and]
    exact (congrArg (· && _) (decide_eq_false hout)).trans (Bool.false_and _)

/-- Settles O25: FORMAT_BITS is the format word, which is the table's, and MATRIX holds each assignment of
WriteFormat. -/
theorem maskWritesTheFormatInformation : Obligations.MaskWritesTheFormatInformation := by
  intro s ts hidle hturn v n hplace h1 h40
  obtain ⟨t, hexec, hstep⟩ := exec_mask_masked hidle hturn hplace
  obtain ⟨htable, hwidth⟩ := formatWord_eq_table s.symbol.level s.bestMask (bestMask_lt s)
  have hword : (s.masked ts).formatBits.toNat = formatWord (Level.ofCode s.symbol.level) s.bestMask :=
    (BitVec.toNat_ofNat ..).trans (Nat.mod_eq_of_lt hwidth)
  refine ⟨t, _, hexec, hstep, ?word, ?modules⟩
  case word =>
    rw [hword, symbol_mask_masked]
    exact htable
  case modules =>
    intro bit
    refine (forall_formatCells (P := fun r c x => (s.masked ts).module .matrix r c = x)).1 ?_
    rw [hword]
    exact fun _ _ _ hcell => module_masked_format ts h1 h40 hcell

/-- Settles O26: VERSION_BITS is the version word, and MATRIX holds each assignment of WriteVersion. -/
theorem maskWritesTheVersionInformation : Obligations.MaskWritesTheVersionInformation := by
  intro s ts hidle hturn v n hplace h1 h40
  obtain ⟨t, hexec, hstep⟩ := exec_mask_masked hidle hturn hplace
  refine ⟨t, _, hexec, hstep, fun hsmall => if_neg (Nat.not_le.2 hsmall), fun h7 => ?_⟩
  obtain ⟨hwidth, htop, hremainder⟩ := versionWord_spec h7 h40
  have hbits : (s.masked ts).versionBits = BitVec.ofNat 18 (versionWord v) := if_pos h7
  have hword : (s.masked ts).versionBits.toNat = versionWord v := by
    rw [hbits, BitVec.toNat_ofNat, Nat.mod_eq_of_lt hwidth]
  refine ⟨hword ▸ htop, hword ▸ hremainder, fun i hi => ?_⟩
  rw [BitVec.getLsbD, hword]
  exact (forall_versionCells (P := fun r c x => (s.masked ts).module .matrix r c = x)).1
    (fun _ _ _ hcell => module_masked_version ts h1 h40 h7 hcell) i hi

end Sys2Proof.Machine
end

section
/-! SUPPORT. ENCODE from its issue to its end (45_encode_render.md R280-R283): the state it ends in is the one the four
stage commands leave, and what it writes is a function of the payload and the level alone. -/

namespace Sys2Proof.Machine

/-! ## A command with no turn scheduled (assumption log 4) -/

/-- A stage command issued while idle, with nothing scheduled, is accepted, and the next step ends it. -/
theorem exec_stage_then_wait {s : State} {i : Instr} {op : BitVec 4} (hidle : s.status.busy = false)
    (hturn : s.turns = []) (hrow : (i, op) ∈ stageRows) :
    ∃ t, exec i s = .next t ∧ step t = .next (s.issued op []).engineComplete := by
  refine ⟨_, exec_stage_idle hidle hrow, (step_noTurn ?nothing).trans (congrArg Host.Outcome.next ?turn)⟩
  case nothing => exact hturn
  case turn =>
    rw [engineTurn_busy rfl, State.issued, ← hturn]
    rfl

/-! ## What MASK reads -/

/-- The two states hold the same version, level, FUNCMAP and PLACED, all that MASK reads (44_mask.md R259). -/
structure SameMaskInputs (s t : State) : Prop where
  version : s.symbol.version = t.symbol.version
  level : s.symbol.level = t.symbol.level
  funcmap : ∀ k, s.windowByte .funcmap k = t.windowByte .funcmap k
  placed : ∀ k, s.windowByte .placed k = t.windowByte .placed k

theorem windowByte_congr {s t : State} {b : BufId} (h : s.buf b = t.buf b) (k : Nat) :
    s.windowByte b k = t.windowByte b k := by
  rw [State.windowByte, State.windowByte, bufByte_congr h]

theorem readMatrix_congr {s t : State} {b : BufId} (h : ∀ k, s.windowByte b k = t.windowByte b k) (n : Nat) :
    s.readMatrix b n = t.readMatrix b n := by
  simp only [State.readMatrix, State.matrixRow, h]

namespace SameMaskInputs

variable {s t : State} (h : SameMaskInputs s t)
include h

theorem candidate_eq (m : Nat) : s.candidate m = t.candidate m := by
  simp only [State.candidate, h.version, h.level, readMatrix_congr h.funcmap, readMatrix_congr h.placed]

theorem maskScores_eq : s.maskScores = t.maskScores :=
  List.map_congr_left fun m _ => by rw [State.maskScore, State.maskScore, h.version, h.candidate_eq]

theorem bestMask_eq : s.bestMask = t.bestMask := congrArg selectMask h.maskScores_eq

end SameMaskInputs

/-! ## The command -/

/-- The state that PACK at version `v`, ECC and PLACE leave, issued one after another. -/
def State.builtSymbol (s : State) (v : Nat) (ts : List Turn) : State := ((s.packed v ts).interleaved ts).assembled ts

/-- The state ENCODE ends in at the chosen version `v`: the one that MASK leaves after the other three stages, but for
the record of the last command (45_encode_render.md R280). -/
def State.encoded (s : State) (v : Nat) (ts : List Turn) : State :=
  { (s.builtSymbol v ts).masked ts with lastOp := 5#4, pendingOp := 5#4 }

/-- The state of the running ENCODE, accepted in `s`, once its bodies have written the outputs of `t`: nothing of the
record of a command's end is written yet. -/
def State.amidEncode (t s : State) (ts : List Turn) : State :=
  { t.issued 5#4 ts with resultTag := s.resultTag, irqPend := s.irqPend }

section Bodies

variable {t : State} (s : State) (ts : List Turn)

theorem packBody_amidEncode {v : Nat} (hn : t.inLen.toNat ≤ capacity t.config.level)
    (hchosen : chooseVersion (Level.ofCode t.config.level) t.inLen.toNat = some v) :
    packBody (t.amidEncode s ts) = .ok ((t.packed v ts).amidEncode s ts) :=
  packBody_ok (s := t.amidEncode s ts) (hn.trans (capacity_le_maxPayload _)) hchosen

theorem eccBody_amidEncode (h : isVersion t.symbol.version.toNat = true) :
    eccBody (t.amidEncode s ts) = .ok ((t.interleaved ts).amidEncode s ts) :=
  eccBody_ok (s := t.amidEncode s ts) h

theorem placeBody_amidEncode (h : isVersion t.symbol.version.toNat = true)
    (hcount : t.cwCount.toNat = totalCw t.symbol.version.toNat) :
    placeBody (t.amidEncode s ts) = .ok ((t.assembled ts).amidEncode s ts) :=
  placeBody_ok (s := t.amidEncode s ts) h hcount

theorem sameMaskInputs_amidEncode : SameMaskInputs (t.amidEncode s ts) t where
  version := rfl
  level := rfl
  funcmap := windowByte_congr (s := t.amidEncode s ts) (b := .funcmap) rfl
  placed := windowByte_congr (s := t.amidEncode s ts) (b := .placed) rfl

theorem maskBody_amidEncode (h : t.status.vPlace = true) :
    maskBody (t.amidEncode s ts) = .ok ((t.masked ts).amidEncode s ts) := by
  have hsame := sameMaskInputs_amidEncode (t := t) s ts
  rw [maskBody_ok (s := t.amidEncode s ts) h, hsame.bestMask_eq, hsame.maskScores_eq, hsame.candidate_eq]
  rfl

end Bodies

/-! PACK leaves what ECC checks, and ECC what PLACE checks (42_rs_ecc.md R186, 43_assembler.md R230). -/

theorem toNat_ofNat_version {v : Nat} (h40 : v ≤ 40) : (BitVec.ofNat 6 v).toNat = v := by
  rw [BitVec.toNat_ofNat, Nat.mod_eq_of_lt (by omega)]

theorem toNat_ofNat_totalCw {v : Nat} (h40 : v ≤ 40) : (BitVec.ofNat 12 (totalCw v)).toNat = totalCw v := by
  have := totalCw_le h40
  rw [BitVec.toNat_ofNat, Nat.mod_eq_of_lt (by omega)]

theorem toNat_version_packed (s : State) {v : Nat} (ts : List Turn) (h40 : v ≤ 40) :
    (s.packed v ts).symbol.version.toNat = v := toNat_ofNat_version h40

theorem isVersion_packed (s : State) {v : Nat} (ts : List Turn) (h1 : 1 ≤ v) (h40 : v ≤ 40) :
    isVersion (s.packed v ts).symbol.version.toNat = true := by
  rw [toNat_version_packed s ts h40, isVersion_iff]
  exact ⟨h1, h40⟩

theorem toNat_cwCount_interleaved (s : State) (ts : List Turn) (h40 : s.symbol.version.toNat ≤ 40) :
    (s.interleaved ts).cwCount.toNat = totalCw (s.interleaved ts).symbol.version.toNat :=
  toNat_ofNat_totalCw h40

theorem engineComplete_encode {s : State} {v : Nat} (ts : List Turn) (hn : s.inLen.toNat ≤ capacity s.config.level)
    (hchosen : chooseVersion (Level.ofCode s.config.level) s.inLen.toNat = some v) :
    (s.issued 5#4 ts).engineComplete = s.encoded v ts := by
  obtain ⟨h1, h40, -, -⟩ := chooseVersion_some hchosen
  have hversion := isVersion_packed s ts h1 h40
  have hcount := toNat_cwCount_interleaved (s.packed v ts) ts ((toNat_version_packed s ts h40).trans_le h40)
  have hbody : encodeBody (s.amidEncode s ts) = .ok (((s.builtSymbol v ts).masked ts).amidEncode s ts) := by
    simp only [encodeBody, packBody_amidEncode s ts hn hchosen, eccBody_amidEncode s ts hversion,
      placeBody_amidEncode (t := (s.packed v ts).interleaved ts) s ts hversion hcount]
    exact maskBody_amidEncode s ts rfl
  exact engineComplete_ok (s := s.issued 5#4 ts) hbody

/-- Above the capacity the first body errs, and ENCODE with it (45_encode_render.md R281). -/
theorem engineComplete_encode_error {s : State} (ts : List Turn) (hn : capacity s.config.level < s.inLen.toNat) :
    (s.issued 5#4 ts).engineComplete = (s.afterError 5#4 1#4 1#3 ts).withStages false false false false false := by
  have hbody : encodeBody (s.issued 5#4 ts) = .error { code := errPayloadTooLarge, stage := 1#3 } := by
    simp only [encodeBody, packBody_above_capacity (s := s.issued 5#4 ts) hn]
  exact engineComplete_error (s := s.issued 5#4 ts) hbody

/-! ## The registers of the encoded symbol -/

section Encoded

variable {s : State} {v : Nat} (ts : List Turn) (h40 : v ≤ 40)
include h40

theorem toNat_version_encoded : (s.encoded v ts).symbol.version.toNat = v := toNat_ofNat_version h40

theorem toNat_mside_encoded : (s.encoded v ts).mside.toNat = side v := by
  have hmside : (s.encoded v ts).mside.toNat = (BitVec.ofNat 8 (side (BitVec.ofNat 6 v).toNat)).toNat := rfl
  rw [hmside, toNat_ofNat_version h40, BitVec.toNat_ofNat, Nat.mod_eq_of_lt (by unfold side; omega)]

theorem toNat_cwCount_encoded : (s.encoded v ts).cwCount.toNat = totalCw v := by
  have hcount : (s.encoded v ts).cwCount.toNat = (BitVec.ofNat 12 (totalCw (BitVec.ofNat 6 v).toNat)).toNat := rfl
  rw [hcount, toNat_ofNat_version h40, toNat_ofNat_totalCw h40]

theorem toNat_dataCount_encoded :
    (s.encoded v ts).dataCount.toNat = dataCodewords v (Level.ofCode s.config.level) := by
  have hcount : (s.encoded v ts).dataCount.toNat =
      (BitVec.ofNat 12 (dataCodewords (BitVec.ofNat 6 v).toNat (Level.ofCode s.config.level))).toNat := rfl
  have hle := dataCodewords_le h40 (Level.ofCode s.config.level)
  rw [hcount, toNat_ofNat_version h40, BitVec.toNat_ofNat, Nat.mod_eq_of_lt (by omega)]

end Encoded

/-- Settles O31: up to the capacity ENCODE ends in `State.encoded`; above it PACK's error ends it, nothing written. -/
theorem encodeCommandFailsOnlyInPack : Obligations.EncodeCommandFailsOnlyInPack := by
  intro s ts hidle hturn n cap
  obtain ⟨t, hexec, hstep⟩ := exec_stage_then_step (i := .encode) (op := 5#4) hidle hturn (by simp [stageRows])
  refine ⟨t, _, hexec, hstep, fun hn => ?encoded, fun hn => engineComplete_encode_error ts hn⟩
  case encoded =>
    obtain ⟨v, hchosen⟩ := exists_chooseVersion_of_le_capacity hn
    obtain ⟨h1, h40, -, -⟩ := chooseVersion_some hchosen
    rw [engineComplete_encode ts hn hchosen, toNat_version_encoded ts h40]
    exact ⟨rfl, rfl, h1, h40, toNat_mside_encoded ts h40, toNat_cwCount_encoded ts h40, toNat_dataCount_encoded ts h40⟩

/-- Settles O32: where the payload fits, the four stage commands pass through `State.packed`, `interleaved`, `assembled`
and `masked`, of which `State.encoded` is made; where it does not, PACK and ENCODE end in the same error. -/
theorem encodeEqualsTheFourStages : Obligations.EncodeEqualsTheFourStages := by
  intro s hidle hturn n cap
  obtain ⟨t1, hexec1, hstep1⟩ := exec_stage_then_wait (i := .pack) (op := 1#4) hidle hturn (by simp [stageRows])
  obtain ⟨t, hexec, hstep⟩ := exec_stage_then_wait (i := .encode) (op := 5#4) hidle hturn (by simp [stageRows])
  refine ⟨t1, _, t, _, hexec1, hstep1, hexec, hstep, fun hn => ?fits, fun hn => ?tooLarge⟩
  case fits =>
    obtain ⟨v, hchosen⟩ := exists_chooseVersion_of_le_capacity hn
    obtain ⟨h1, h40, -, -⟩ := chooseVersion_some hchosen
    have hversion := isVersion_packed s [] h1 h40
    have hcount := toNat_cwCount_interleaved (s.packed v []) [] ((toNat_version_packed s [] h40).trans_le h40)
    obtain ⟨t2, hexec2, hstep2⟩ :=
      exec_stage_then_wait (s := s.packed v []) (i := .ecc) (op := 2#4) rfl rfl (by simp [stageRows])
    obtain ⟨t3, hexec3, hstep3⟩ :=
      exec_stage_then_wait (s := (s.packed v []).interleaved []) (i := .place) (op := 3#4) rfl rfl (by simp [stageRows])
    obtain ⟨t4, hexec4, hstep4⟩ :=
      exec_stage_then_wait (s := s.builtSymbol v []) (i := .mask) (op := 4#4) rfl rfl (by simp [stageRows])
    rw [engineComplete_ecc [] hversion] at hstep2
    rw [engineComplete_place (s := (s.packed v []).interleaved []) [] hversion hcount] at hstep3
    rw [engineComplete_mask [] rfl] at hstep4
    rw [engineComplete_pack [] hn hchosen, engineComplete_encode [] hn hchosen]
    exact ⟨⟨t2, _, t3, _, t4, _, hexec2, hstep2, hexec3, hstep3, hexec4, hstep4, rfl⟩, rfl, rfl, rfl⟩
  case tooLarge =>
    rw [engineComplete_pack_error [] hn, engineComplete_encode_error [] hn]
    exact ⟨rfl, rfl, rfl, rfl, rfl⟩

/-! ## The outputs as functions of the payload and the level (45_encode_render.md R283) -/

theorem finalSequence_length {v : Nat} (h1 : 1 ≤ v) (h40 : v ≤ 40) (s : State) (l : Level) :
    (finalSequence v l (s.bufBytes .datacw 0 (dataCodewords v l))).length = totalCw v := by
  rw [finalSequence_eq_columns h1 h40, totalCw_eq_length h1 h40 s l]

/-- The T codewords of the symbol of version `v` that ENCODE makes (42_rs_ecc.md R183). -/
def State.codewords (s : State) (v : Nat) : List Byte :=
  finalSequence v (Level.ofCode s.config.level) (s.packedCodewords v)

/-- A matrix window shows after a write what was written, whatever it held. -/
theorem windowByte_writeMatrix (s : State) {b : BufId} (hb : b.isMatrix = true) (m : Matrix) (k : Nat) :
    (s.writeMatrix b m).windowByte b k = (windowBytes m).getD k 0x00#8 := by
  by_cases hk : k < 4248
  · rw [windowByte_stored _ (by rwa [storedSize_matrix hb]), State.writeMatrix, bufByte_writeBuf,
      if_pos ⟨rfl, Nat.zero_le _, by simpa using hk⟩, Nat.sub_zero]
  · rw [windowByte_past _ (by rw [storedSize_matrix hb]; omega),
      List.getD_eq_default _ _ (by rw [windowBytes_length]; omega)]

/-- Equal slices are equal bytes. -/
theorem bufByte_eq_of_bufBytes_eq {s t : State} {b : BufId} {n : Nat} (h : s.bufBytes b 0 n = t.bufBytes b 0 n) :
    ∀ k, k < n → s.bufByte b k = t.bufByte b k := by
  intro k hk
  have hbyte := congrArg (·[k]?) h
  simpa [State.bufBytes, hk] using hbyte

theorem bufBytes_interleaved {s : State} {v : Nat} {l : Level} (ts : List Turn) (hversion : s.symbol.version.toNat = v)
    (hlevel : Level.ofCode s.symbol.level = l) (h1 : 1 ≤ v) (h40 : v ≤ 40) :
    (s.interleaved ts).bufBytes .finalcw 0 (totalCw v) =
      finalSequence v l (s.bufBytes .datacw 0 (dataCodewords v l)) := by
  have hwrite (k : Nat) : (s.interleaved ts).bufByte .finalcw k =
      (s.writeBuf .finalcw 0 (finalSequence v l (s.bufBytes .datacw 0 (dataCodewords v l)))).bufByte .finalcw k := by
    subst hversion hlevel
    rfl
  rw [bufBytes_congr fun i _ => hwrite (0 + i), ← finalSequence_length h1 h40 s l, bufBytes_writeBuf_same]

section Outputs

variable {s : State} {v : Nat} (ts : List Turn) (h1 : 1 ≤ v) (h40 : v ≤ 40)
  (hfits : fits v (Level.ofCode s.config.level) s.inLen.toNat = true)

include hfits in
theorem bufBytes_packed_datacw :
    (s.packed v ts).bufBytes .datacw 0 (dataCodewords v (Level.ofCode s.config.level)) = s.packedCodewords v := by
  rw [bufBytes_congr fun i _ => bufByte_packed_datacw s v ts (0 + i), ← packedCodewords_length hfits,
    bufBytes_writeBuf_same]

include h40 in
/-- FUNCMAP, which MASK leaves, after the first three stages. -/
theorem windowByte_builtSymbol_funcmap (k : Nat) :
    (s.builtSymbol v ts).windowByte .funcmap k = (windowBytes (functionMatrix v)).getD k 0x00#8 := by
  have hwrite : (s.builtSymbol v ts).windowByte .funcmap k =
      (s.writeMatrix .funcmap (functionMatrix (s.packed v ts).symbol.version.toNat)).windowByte .funcmap k := rfl
  rw [hwrite, toNat_version_packed s ts h40, windowByte_writeMatrix s rfl]

include h1 h40 hfits

/-- FINALCW, which PLACE and MASK leave, after the first two stages. -/
theorem bufBytes_interleaved_packed :
    ((s.packed v ts).interleaved ts).bufBytes .finalcw 0 (totalCw v) = s.codewords v := by
  rw [bufBytes_interleaved ts (toNat_version_packed s ts h40) rfl h1 h40, State.codewords,
    ← bufBytes_packed_datacw ts hfits]
  rfl

/-- PLACED, which MASK leaves, after the first three stages. -/
theorem windowByte_builtSymbol_placed (k : Nat) :
    (s.builtSymbol v ts).windowByte .placed k =
      (windowBytes (placedMatrix v (s.codewords v))).getD k 0x00#8 := by
  have hwrite : (s.builtSymbol v ts).windowByte .placed k =
      (s.writeMatrix .placed (placedMatrix (s.packed v ts).symbol.version.toNat
        (((s.packed v ts).interleaved ts).bufBytes .finalcw 0
          (totalCw (s.packed v ts).symbol.version.toNat)))).windowByte .placed k := rfl
  rw [hwrite, toNat_version_packed s ts h40, bufBytes_interleaved_packed ts h1 h40 hfits, windowByte_writeMatrix s rfl]

end Outputs

/-- What MASK writes is a function of what it reads. -/
theorem SameMaskInputs.masked_outputs {s t : State} (h : SameMaskInputs s t) (ts ts' : List Turn) :
    (s.masked ts).symbol = (t.masked ts').symbol ∧ (s.masked ts).formatBits = (t.masked ts').formatBits ∧
      (s.masked ts).versionBits = (t.masked ts').versionBits ∧ (s.masked ts).penalty = (t.masked ts').penalty ∧
      (s.masked ts).penTerms = (t.masked ts').penTerms ∧
      ∀ k, (s.masked ts).windowByte .matrix k = (t.masked ts').windowByte .matrix k := by
  have hmatrix (s : State) (ts : List Turn) (k : Nat) :
      (s.masked ts).windowByte .matrix k = (windowBytes (s.candidate s.bestMask)).getD k 0x00#8 :=
    windowByte_writeMatrix s (b := .matrix) rfl _ k
  refine ⟨?_, ?_, ?_, ?_, ?_, fun k => by rw [hmatrix, hmatrix, h.bestMask_eq, h.candidate_eq]⟩ <;>
    simp only [State.masked, h.version, h.level, h.bestMask_eq, h.maskScores_eq, h.candidate_eq]

section TwoStates

variable {s s' : State} {v : Nat} (ts ts' : List Turn) (hlen : s.inLen = s'.inLen)
  (hlevel : s.config.level = s'.config.level)

include hlen hlevel in
theorem packedCodewords_congr (hpayload : ∀ k, k < s.inLen.toNat → s.bufByte .inbuf k = s'.bufByte .inbuf k) :
    s.packedCodewords v = s'.packedCodewords v := by
  rw [State.packedCodewords, State.packedCodewords, hlevel, ← hlen,
    bufBytes_congr (t := s') fun i hi => by rw [Nat.zero_add]; exact hpayload i hi]

variable (h1 : 1 ≤ v) (h40 : v ≤ 40) (hfits : fits v (Level.ofCode s.config.level) s.inLen.toNat = true)
  (hpacked : s.packedCodewords v = s'.packedCodewords v)
include hlen hlevel h1 h40 hfits hpacked

theorem sameMaskInputs_builtSymbol : SameMaskInputs (s.builtSymbol v ts) (s'.builtSymbol v ts') where
  version := rfl
  level := hlevel
  funcmap k := by rw [windowByte_builtSymbol_funcmap ts h40, windowByte_builtSymbol_funcmap ts' h40]
  placed k := by
    have hfits' := hfits
    rw [hlevel, hlen] at hfits'
    rw [windowByte_builtSymbol_placed ts h1 h40 hfits, windowByte_builtSymbol_placed ts' h1 h40 hfits',
      State.codewords, State.codewords, hlevel, hpacked]

end TwoStates

/-- Settles O33: the packed codewords are the payload's, so that PLACE hands MASK the same version, level and matrices. -/
theorem encodeDependsOnlyOnPayloadAndLevel : Obligations.EncodeDependsOnlyOnPayloadAndLevel := by
  intro s s' hidle hidle' hturn hturn' hlen hlevel hpayload hn
  obtain ⟨t, hexec, hstep⟩ := exec_stage_then_wait (i := .encode) (op := 5#4) hidle hturn (by simp [stageRows])
  obtain ⟨t', hexec', hstep'⟩ := exec_stage_then_wait (i := .encode) (op := 5#4) hidle' hturn' (by simp [stageRows])
  obtain ⟨v, hchosen⟩ := exists_chooseVersion_of_le_capacity hn
  obtain ⟨h1, h40, hfits, -⟩ := chooseVersion_some hchosen
  have hn' := hn
  have hchosen' := hchosen
  have hfits' := hfits
  rw [hlevel, hlen] at hn' hchosen' hfits'
  rw [engineComplete_encode [] hn hchosen] at hstep
  rw [engineComplete_encode [] hn' hchosen'] at hstep'
  have hpacked : s.packedCodewords v = s'.packedCodewords v := packedCodewords_congr hlen hlevel hpayload
  have hsame := sameMaskInputs_builtSymbol [] [] hlen hlevel h1 h40 hfits hpacked
  obtain ⟨hsymbol, hformat, hversion, hpenalty, hterms, hmatrix⟩ := hsame.masked_outputs [] []
  refine ⟨t, _, t', _, hexec, hstep, hexec', hstep', hsymbol, ?dataCount, rfl, rfl, hformat, hversion, hpenalty, hterms,
    ?datacw, ?finalcw, fun k _ => hsame.funcmap k, fun k _ => hsame.placed k, fun k _ => hmatrix k⟩
  case dataCount =>
    refine BitVec.eq_of_toNat_eq ?_
    rw [toNat_dataCount_encoded [] h40, toNat_dataCount_encoded [] h40, hlevel]
  case datacw =>
    rw [toNat_dataCount_encoded [] h40]
    refine bufByte_eq_of_bufBytes_eq (s := s.packed v []) (t := s'.packed v []) ?_
    rw [bufBytes_packed_datacw [] hfits, hlevel, bufBytes_packed_datacw [] hfits', hpacked]
  case finalcw =>
    rw [toNat_cwCount_encoded [] h40]
    refine bufByte_eq_of_bufBytes_eq (s := (s.packed v []).interleaved []) (t := (s'.packed v []).interleaved []) ?_
    rw [bufBytes_interleaved_packed [] h1 h40 hfits, bufBytes_interleaved_packed [] h1 h40 hfits', State.codewords,
      State.codewords, hlevel, hpacked]

end Sys2Proof.Machine
end

section
/-! SUPPORT. VECTOR and the raster window (45_encode_render.md R290-R299): the records of VECBUF are the dark modules of
MATRIX in row-major order, a pixel is the module its grid cell stands for, and the two agree. -/

namespace Sys2Proof.Machine

/-! ## A stored row module by module -/

theorem matrixRow_length (s : State) (b : BufId) (n r : Nat) : (s.matrixRow b n r).length = n := by
  simp only [State.matrixRow, List.length_append, List.length_take, List.length_replicate,
    flatMap_const_length (fun i => bitsOfByte (s.windowByte b (24 * r + i))) 8 fun _ => bitsOfByte_length _,
    List.length_range]
  omega

/-- A stored row is the list of its modules (30_encoding.md R110). -/
theorem matrixRow_eq_map (s : State) {b : BufId} (hb : b.isMatrix = true) {n r : Nat} (hr : r < n) :
    s.matrixRow b n r = (List.range n).map (s.module b r) := by
  refine List.ext_getElem (by simp [matrixRow_length]) fun c hc _ => ?_
  have hcn : c < n := by rwa [matrixRow_length] at hc
  have hat := readMatrix_at s hb n r c
  simp only [Matrix.at, State.readMatrix, List.getD_eq_getElem?_getD, List.getElem?_map, List.getElem?_range hr,
    Option.map_some, Option.getD_some, List.getElem?_eq_getElem hc, hr, hcn, decide_true, Bool.true_and] at hat
  simpa using hat

/-! ## The records of VECTOR (45_encode_render.md R291) -/

/-- The dark modules of the n × n matrix in MATRIX, row-major. -/
def State.darkModules (s : State) (n : Nat) : List (Nat × Nat) :=
  ((List.range n).flatMap fun r => (List.range n).map fun c => (r, c)).filter fun m => s.module .matrix m.1 m.2

theorem mem_darkModules {s : State} {n r c : Nat} :
    (r, c) ∈ s.darkModules n ↔ r < n ∧ c < n ∧ s.module .matrix r c = true := by
  simp [State.darkModules, and_assoc]

theorem zipIdx_map_range {α : Type} (f : Nat → α) (n : Nat) :
    ((List.range n).map f).zipIdx = (List.range n).map fun c => (f c, c) :=
  List.ext_getElem (by simp) fun c _ _ => by simp

/-- VECTOR lists the dark modules. -/
theorem vectorRecords_eq_map (s : State) (n q : Nat) :
    vectorRecords s n q = (s.darkModules n).map fun m => vectorRecord q m.1 m.2 := by
  rw [vectorRecords, State.darkModules, List.filter_flatMap, List.map_flatMap]
  refine List.flatMap_congr fun r hr => ?_
  rw [matrixRow_eq_map s rfl (List.mem_range.1 hr), zipIdx_map_range, List.filter_map, List.filter_map, List.map_map,
    List.map_map]
  rfl

/-- Fewer than 2^16 modules are stored. -/
theorem darkModules_length_lt (s : State) (n : Nat) : (s.darkModules n).length < 2 ^ 16 := by
  have hbytes := vectorBytes_fit s n 0
  rw [flatMap_const_length bytesOfWord 4 bytesOfWord_length, vectorRecords_eq_map, List.length_map] at hbytes
  omega

/-- A record is Y in its high half and X in its low half (30_encoding.md R112). -/
theorem vectorRecord_eq {q r c : Nat} (hc : c + q < 65536) :
    vectorRecord q r c = BitVec.ofNat 32 ((r + q) * 65536 + (c + q)) := by
  rw [vectorRecord, ← Nat.shiftLeft_add_eq_or_of_lt (i := 16) (by omega), Nat.shiftLeft_eq]

/-! ## The command -/

/-- The state VECTOR ends in with a finished symbol (45_encode_render.md R291). -/
def State.vectored (s : State) (ts : List Turn) : State :=
  let recs := vectorRecords s s.mside.toNat s.config.qz.toNat
  { (s.afterOk 6#4 ts).withStages s.status.vPack s.status.vEcc s.status.vPlace s.status.vMask true with
    vecbuf := (s.writeBuf .vecbuf 0 (recs.flatMap bytesOfWord)).vecbuf
    vecCount := BitVec.ofNat 16 recs.length
    vecExtent := BitVec.ofNat 8 (s.mside.toNat + 2 * s.config.qz.toNat) }

theorem engineComplete_vector {s : State} (ts : List Turn) (hmask : s.status.vMask = true) :
    (s.issued 6#4 ts).engineComplete = s.vectored ts :=
  engineComplete_ok (s := s.issued 6#4 ts) (vectorBody_ok (s := s.issued 6#4 ts) hmask)

theorem engineComplete_vector_error {s : State} (ts : List Turn) (hmask : s.status.vMask = false) :
    (s.issued 6#4 ts).engineComplete =
      (s.afterError 6#4 4#4 5#3 ts).withStages s.status.vPack s.status.vEcc s.status.vPlace s.status.vMask false :=
  engineComplete_error (s := s.issued 6#4 ts) (vectorBody_error (s := s.issued 6#4 ts) hmask)

section Vectored

variable (s : State) (ts : List Turn)

theorem toNat_vecCount_vectored :
    (s.vectored ts).vecCount.toNat = (vectorRecords s s.mside.toNat s.config.qz.toNat).length := by
  have hlt := darkModules_length_lt s s.mside.toNat
  have hcount : (s.vectored ts).vecCount =
      BitVec.ofNat 16 (vectorRecords s s.mside.toNat s.config.qz.toNat).length := rfl
  rw [hcount, BitVec.toNat_ofNat, vectorRecords_eq_map, List.length_map, Nat.mod_eq_of_lt hlt]

theorem bufByte_vectored (k : Nat) :
    (s.vectored ts).bufByte .vecbuf k =
      if k < 4 * (vectorRecords s s.mside.toNat s.config.qz.toNat).length then
        ((vectorRecords s s.mside.toNat s.config.qz.toNat).flatMap bytesOfWord).getD k 0x00#8
      else s.bufByte .vecbuf k := by
  have hwrite : (s.vectored ts).bufByte .vecbuf k =
      (s.writeBuf .vecbuf 0
        ((vectorRecords s s.mside.toNat s.config.qz.toNat).flatMap bytesOfWord)).bufByte .vecbuf k := rfl
  rw [hwrite, bufByte_writeBuf, flatMap_const_length bytesOfWord 4 bytesOfWord_length]
  simp only [true_and, Nat.zero_le, Nat.zero_add, Nat.sub_zero]

/-- Word `j` of VECBUF after VECTOR is record `j`. -/
theorem vecWord_vectored {j : Nat} {w : Word} (hj : (vectorRecords s s.mside.toNat s.config.qz.toNat)[j]? = some w) :
    (s.vectored ts).vecWord j = w := by
  have hlt := (List.getElem?_eq_some_iff.1 hj).1
  have hbyte (i : Nat) (hi : i < 4) : (s.vectored ts).bufByte .vecbuf (4 * j + i) = (bytesOfWord w).getD i 0x00#8 := by
    rw [bufByte_vectored, if_pos (by omega), List.getD_eq_getElem?_getD,
      flatMap_const_getElem? bytesOfWord 4 bytesOfWord_length _ _ _ hi, hj, Option.bind_some,
      ← List.getD_eq_getElem?_getD]
  rw [State.vecWord, ← Nat.add_zero (4 * j), hbyte 0 (by omega), hbyte 1 (by omega), hbyte 2 (by omega),
    hbyte 3 (by omega)]
  exact wordOfBytes_of_parts w

end Vectored

/-- Settles O34: VECTOR ends in `State.vectored`, whose records are those of the dark modules; without V_MASK it ends in
the error. -/
theorem vectorCommandListsTheDarkModules : Obligations.VectorCommandListsTheDarkModules := by
  intro s ts hidle hturn n q dark
  obtain ⟨t, hexec, hstep⟩ := exec_stage_then_step (i := .vector) (op := 6#4) hidle hturn (by simp [stageRows])
  have hlength : (vectorRecords s n q).length = dark.length := by
    rw [vectorRecords_eq_map, List.length_map]
    rfl
  refine ⟨t, _, hexec, hstep, fun hmask => ?vectored, fun hmask => ?stageOrder⟩
  case vectored =>
    rw [engineComplete_vector ts hmask]
    refine ⟨?frame, (toNat_vecCount_vectored s ts).trans hlength, fun j r c hj => vecWord_vectored s ts ?record,
      fun k hk => ?past⟩
    case frame =>
      unfold State.vectored
      rw [hmask]
    case record =>
      have hc : c < n := (mem_darkModules.1 (List.mem_of_getElem? hj)).2.1
      have hn : n < 256 := s.mside.isLt
      have hq : q < 16 := s.config.qz.isLt
      rw [← vectorRecord_eq (by omega), vectorRecords_eq_map, List.getElem?_map]
      exact congrArg (Option.map _) hj
    case past => rw [bufByte_vectored, if_neg (by rw [hlength]; omega)]
  case stageOrder => rw [engineComplete_vector_error ts hmask, hmask]

/-! ## Grid cells and pixels (45_encode_render.md R295, R296) -/

theorem gridDark_iff (s : State) (u v : Nat) :
    s.gridDark u v = true ↔
      ∃ r c, (r, c) ∈ s.darkModules s.mside.toNat ∧ v = r + s.config.qz.toNat ∧ u = c + s.config.qz.toNat := by
  simp only [State.gridDark, Bool.and_eq_true, decide_eq_true_eq, mem_darkModules]
  constructor
  · rintro ⟨⟨⟨⟨hu, hv⟩, hc⟩, hr⟩, hdark⟩
    exact ⟨_, _, ⟨hr, hc, hdark⟩, by omega, by omega⟩
  · rintro ⟨r, c, ⟨hr, hc, hdark⟩, rfl, rfl⟩
    simp only [Nat.add_sub_cancel]
    exact ⟨⟨⟨⟨by omega, by omega⟩, hc⟩, hr⟩, hdark⟩

/-- With signed coordinates, as R296 computes them. -/
theorem gridDark_iff_int (s : State) (u v : Nat) {r c : Int} (hr : r = (v : Int) - s.config.qz.toNat)
    (hc : c = (u : Int) - s.config.qz.toNat) :
    s.gridDark u v = true ↔ 0 ≤ r ∧ r < s.mside.toNat ∧ 0 ≤ c ∧ c < s.mside.toNat ∧
      s.module .matrix r.toNat c.toNat = true := by
  subst hr hc
  simp only [gridDark_iff, mem_darkModules]
  constructor
  · rintro ⟨r, c, ⟨hr, hc, hdark⟩, rfl, rfl⟩
    have hrow : (((r + s.config.qz.toNat : Nat) : Int) - s.config.qz.toNat).toNat = r := by omega
    have hcol : (((c + s.config.qz.toNat : Nat) : Int) - s.config.qz.toNat).toNat = c := by omega
    rw [hrow, hcol]
    exact ⟨by omega, by omega, by omega, by omega, hdark⟩
  · rintro ⟨hr0, hr, hc0, hc, hdark⟩
    exact ⟨_, _, ⟨by omega, by omega, hdark⟩, by omega, by omega⟩

theorem pixel_outside {s : State} {p : Nat} (h : s.rasterSize.toNat * s.rasterSize.toNat ≤ p) : s.pixel p = 0#32 :=
  if_pos h

/-- Inside the raster a pixel has the colour of its grid cell. -/
theorem pixel_inside {s : State} {p : Nat} (h : p < s.rasterSize.toNat * s.rasterSize.toNat) :
    s.pixel p =
      if s.status.vMask = true ∧ s.gridDark
          (p % s.rasterSize.toNat * (s.mside.toNat + 2 * s.config.qz.toNat) / s.rasterSize.toNat)
          (p / s.rasterSize.toNat * (s.mside.toNat + 2 * s.config.qz.toNat) / s.rasterSize.toNat) = true
      then s.colorDark.setWidth 32 else s.colorLight.setWidth 32 := by
  simp only [State.pixel, if_neg (Nat.not_le.2 h), Bool.and_eq_true]

/-- VECBUF holds a record exactly when its grid cell is dark (45_encode_render.md R299). -/
theorem record_held_iff (s : State) (ts : List Turn) {u v : Nat} (hu : u < 65536) (hv : v < 65536) :
    (∃ j, j < (s.vectored ts).vecCount.toNat ∧ (s.vectored ts).vecWord j = BitVec.ofNat 32 (v * 65536 + u)) ↔
      s.gridDark u v = true := by
  have hq : s.config.qz.toNat < 16 := s.config.qz.isLt
  have hn : s.mside.toNat < 256 := s.mside.isLt
  have hword : BitVec.ofNat 32 (v * 65536 + u) ∈ vectorRecords s s.mside.toNat s.config.qz.toNat ↔
      s.gridDark u v = true := by
    rw [gridDark_iff, vectorRecords_eq_map, List.mem_map, Prod.exists]
    refine exists₂_congr fun r c => and_congr_right fun hmem => ?_
    obtain ⟨hr, hc, -⟩ := mem_darkModules.1 hmem
    simp only [vectorRecord_eq (show c + s.config.qz.toNat < 65536 by omega), ← BitVec.toNat_inj, BitVec.toNat_ofNat]
    rw [Nat.mod_eq_of_lt (by omega), Nat.mod_eq_of_lt (by omega)]
    omega
  rw [← hword, toNat_vecCount_vectored, List.mem_iff_getElem?]
  constructor
  · rintro ⟨j, hj, heq⟩
    exact ⟨j, by rw [← heq, vecWord_vectored s ts (List.getElem?_eq_getElem hj), List.getElem?_eq_getElem hj]⟩
  · rintro ⟨j, hj⟩
    exact ⟨j, (List.getElem?_eq_some_iff.1 hj).1, vecWord_vectored s ts hj⟩

/-- When the raster side is `k` times the canvas side, pixel (x, y) shows the grid cell (x div k, y div k). -/
theorem pixel_of_multiple {s : State} {k x y : Nat} (hmask : s.status.vMask = true)
    (hsize : s.rasterSize.toNat = k * (s.mside.toNat + 2 * s.config.qz.toNat))
    (hx : x < k * (s.mside.toNat + 2 * s.config.qz.toNat)) (hy : y < k * (s.mside.toNat + 2 * s.config.qz.toNat)) :
    s.pixel (y * (k * (s.mside.toNat + 2 * s.config.qz.toNat)) + x) =
      if s.gridDark (x / k) (y / k) = true then s.colorDark.setWidth 32 else s.colorLight.setWidth 32 := by
  have hscale (z : Nat) : z * (s.mside.toNat + 2 * s.config.qz.toNat) / s.rasterSize.toNat = z / k := by
    rw [hsize]
    exact Nat.mul_div_mul_right z k (Nat.pos_of_lt_mul_left hx)
  rw [← hsize] at hx hy ⊢
  rw [pixel_inside (rowPlace_lt hx hy), hscale, hscale, Nat.mul_add_mod_of_lt hx, Nat.add_comm,
    Nat.add_mul_div_right _ _ (by omega), Nat.div_eq_of_lt hx, Nat.zero_add]
  simp only [hmask, true_and]

/-- Settles O35: a pixel shows the grid cell of its record, and VECBUF holds the records of the dark cells. -/
theorem vectorAgreesWithRaster : Obligations.VectorAgreesWithRaster := by
  intro s ts k hidle hturn hmask hk m hsize
  obtain ⟨t, hexec, hstep⟩ := exec_stage_then_step (i := .vector) (op := 6#4) hidle hturn (by simp [stageRows])
  rw [engineComplete_vector ts hmask] at hstep
  refine ⟨t, _, hexec, hstep, fun x y hx hy => ?_⟩
  intro held
  have hn : s.mside.toNat < 256 := s.mside.isLt
  have hq : s.config.qz.toNat < 16 := s.config.qz.isLt
  have hcell (z : Nat) (hz : z < k * m) : z / k < 65536 :=
    (Nat.div_lt_of_lt_mul hz).trans (by omega)
  have hheld : held ↔ s.gridDark (x / k) (y / k) = true := record_held_iff s ts (hcell x hx) (hcell y hy)
  have hpixel : (s.vectored ts).pixel (y * (k * m) + x) = s.pixel (y * (k * m) + x) := rfl
  rw [hpixel, pixel_of_multiple hmask hsize hx hy, hheld]
  exact ⟨fun h => if_pos h, fun h => if_neg h⟩

/-! ## Reads of the raster window (45_encode_render.md R296) -/

/-- The low `n` digits of a number to the base 256. -/
theorem ofDigits_low (n x : Nat) : Nat.ofDigits 256 ((List.range n).map fun i => x / 256 ^ i % 256) = x % 256 ^ n := by
  induction n generalizing x with
  | zero => simp [Nat.mod_one]
  | succ n ih =>
    have hshift (i : Nat) : x / 256 ^ (i + 1) = x / 256 / 256 ^ i := by rw [Nat.div_div_eq_div_mul, Nat.pow_succ']
    simp only [List.range_succ_eq_map, List.map_cons, List.map_map, Function.comp_def, Nat.succ_eq_add_one, hshift,
      Nat.ofDigits_cons, ih, Nat.pow_zero, Nat.div_one]
    rw [Nat.pow_succ', Nat.mod_mul]

/-- Bus data of `n` bytes of a word from a lane up. -/
theorem busData_lanes (w : Word) (lane n : Nat) :
    busData ((List.range n).map fun i => wordByte w (lane + i)) =
      BitVec.ofNat 32 (w.toNat / 256 ^ lane % 256 ^ n) := by
  have hbyte (i : Nat) : (wordByte w (lane + i)).toNat = w.toNat / 256 ^ lane / 256 ^ i % 256 := by
    rw [wordByte_eq_ofNat, BitVec.toNat_ofNat, Nat.pow_add, ← Nat.div_div_eq_div_mul]
  rw [busData_eq_ofDigits, List.map_map, Function.comp_def]
  simp only [hbyte, ofDigits_low]

/-- The raster window is volatile for the commands that write MATRIX or MSIDE: PLACE, MASK and ENCODE (40_host_bus.md
R136). -/
theorem volatileFor_raster (op : BitVec 4) (k : Nat) :
    volatileFor op (.raster k) = decide (op.toNat ∈ [3, 4, 5]) := by
  have hany : ∀ op : BitVec 4, volatileFor op (.raster 0) = decide (op.toNat ∈ [3, 4, 5]) := by decide
  have hplace (l : Loc) : l.touches (.raster k) = l.touches (.raster 0) := by
    cases l with
    | buf b => cases b <;> rfl
    | _ => rfl
  rw [← hany, volatileFor, volatileFor, funext hplace]

theorem volatilePlace_raster (s : State) (k : Nat) :
    s.volatilePlace (.raster k) = true ↔ s.status.busy = true ∧ s.pendingOp.toNat ∈ [3, 4, 5] := by
  rw [State.volatilePlace, volatileFor_raster, Bool.and_eq_true, decide_eq_true_eq]

section RasterRead

variable (s : State) {a n : Nat} (hlow : rasterBase ≤ a) (hhigh : a < rasterEnd) (hal : a % n = 0)
include hlow hhigh hal

theorem busError_raster : busError a n false = false :=
  (busError_eq_false_iff _ _ _).2 ⟨hal, .inr (.inr ⟨rfl, hlow, hhigh⟩)⟩

/-- An exact read of the raster window shows the addressed bytes of the pixel. -/
theorem busRead_raster (hexact : ¬ (s.status.busy = true ∧ s.pendingOp.toNat ∈ [3, 4, 5])) :
    s.busRead a n =
      s.respond (BitVec.ofNat 32 ((s.pixel ((a - rasterBase) / 4)).toNat / 256 ^ (a % 4) % 256 ^ n)) := by
  rw [← volatilePlace_raster s (a - rasterBase), Bool.not_eq_true] at hexact
  have hlane : (a - rasterBase) % 4 = a % 4 := by
    simp only [rasterBase] at hlow ⊢
    omega
  rcases busRead_cases s a n with ⟨herr, -⟩ | ⟨-, hvolatile, -⟩ | ⟨-, -, hread⟩
  · rw [busError_raster hlow hhigh hal] at herr
    cases herr
  · rw [placeOf_raster hlow hhigh, hexact] at hvolatile
    cases hvolatile
  · rw [hread]
    simp only [State.readData, placeOf_raster hlow hhigh, hlane, busData_lanes]

end RasterRead

/-- Settles O36: a legal read shows the bytes of `State.pixel` when it is exact, and in any case changes the response and
the count of draws alone. -/
theorem rasterWindowReadsThePixel : Obligations.RasterWindowReadsThePixel := by
  intro s addr hlow hhigh p lane sz q n m c r isDark free
  have hdark : s.gridDark (p % sz * m / sz) (p / sz * m / sz) = true ↔ isDark := gridDark_iff_int s _ _ rfl rfl
  refine ⟨s.pixel p, pixel_outside, fun hp hmask => ?_, fun hp hmask hd => ?_, fun hp hmask hd => ?_,
    fun i size hi hlane => ?read⟩
  · rw [pixel_inside hp, if_neg (by simp [hmask])]
  · exact (pixel_inside hp).trans (if_pos ⟨hmask, hdark.2 hd⟩)
  · exact (pixel_inside hp).trans (if_neg fun h => hd (hdark.1 h.2))
  case read =>
    have hal : addr.toNat % size = 0 := by
      rcases size_of_read hi with rfl | rfl | rfl <;> omega
    rw [exec_read s hi]
    refine ⟨fun hexact => congrArg _ (busRead_raster s hlow hhigh hal hexact), fun _ => ⟨_, rfl, ?_, ?_⟩⟩
    · exact busRead_err (busError_raster hlow hhigh hal)
    · exact busRead_frame s addr.toNat size

end Sys2Proof.Machine
end

section
/-! SUPPORT. The end of a pending command: the error that its body answers, as a function of the inputs that the body
checks, and what the error end writes (60_exceptions.md R310-R316, 40_host_bus.md R137). -/

namespace Sys2Proof.Machine

/-! ## The ENGINE's turn (40_host_bus.md R137) -/

/-- The error that a body answers, if any. -/
def errorOf : Except CommandError State → Option CommandError
  | .ok _ => none
  | .error e => some e

/-- STATUS of `u` shows the end of a command: DONE, or the given error (60_exceptions.md R310, R311). -/
def State.Shows (u : State) : Option CommandError → Prop
  | none => u.status.done = true ∧ u.status.error = false
  | some e => u.status.error = true ∧ u.status.errcode = e.code ∧ u.status.errstage = e.stage

theorem shows_ite (u : State) (c : Prop) [Decidable c] (a b : Option CommandError) :
    u.Shows (if c then a else b) ↔ if c then u.Shows a else u.Shows b := by
  rw [apply_ite (u.Shows)]

/-- Everything the ENGINE's turn of a BUSY state can do. -/
theorem step_engine_cases {s u : State} {ts : List Turn} (hturn : s.turns = .engine :: ts)
    (hbusy : s.status.busy = true) (hstep : step s = .next u) :
    (∃ t, commandBody s.pendingOp { s with turns := ts } = .ok t ∧ u = t.complete) ∨
    (∃ e, commandBody s.pendingOp { s with turns := ts } = .error e ∧
      u = State.errorEnd { s with turns := ts } e) := by
  rw [step_engine hturn, engineTurn_busy (s := { s with turns := ts }) hbusy] at hstep
  cases hstep
  exact engineComplete_cases { s with turns := ts }

/-- A body writes no ERROR, so a command that completes shows the ERROR of before (10_state.md R24). -/
theorem complete_error {s t : State} {op : BitVec 4} (hbody : commandBody op s = .ok t) :
    t.complete.status.error = s.status.error := by
  rw [complete_status, (commandBody_frame hbody).status]

/-- The ENGINE's turn ends the pending command as its body does. -/
theorem shows_errorOf_commandBody {s u : State} {ts : List Turn} (hturn : s.turns = .engine :: ts)
    (hbusy : s.status.busy = true) (herror : s.status.error = false) (hstep : step s = .next u) :
    u.Shows (errorOf (commandBody s.pendingOp { s with turns := ts })) := by
  rcases step_engine_cases hturn hbusy hstep with ⟨t, hbody, rfl⟩ | ⟨e, hbody, rfl⟩ <;> rw [hbody]
  · exact ⟨rfl, (complete_error hbody).trans herror⟩
  · exact ⟨rfl, rfl, rfl⟩

/-- Settles O12: a body that completes leaves ERROR 0, and the error end works on the state from before the command. -/
theorem errorEndWritesNoOutput : Obligations.ErrorEndWritesNoOutput := by
  intro s u ts hturn hbusy herror hstep hend
  rcases step_engine_cases hturn hbusy hstep with ⟨t, hbody, rfl⟩ | ⟨e, -, rfl⟩
  · rw [complete_error hbody, herror] at hend
    cases hend
  · exact ⟨rfl, rfl, rfl, rfl, errorRow_wrIgnored e.stage s.status⟩

/-! ## The error of each body (60_exceptions.md R310, R311) -/

theorem isVersion_eq_false_iff {v : Nat} : isVersion v = false ↔ ¬ (1 ≤ v ∧ v ≤ 40) := by
  rw [← isVersion_iff, Bool.not_eq_true]

/-- Up to the capacity PACK completes, and leaves a version in SYMBOL (41_packer.md R157). -/
theorem exists_packBody_ok {s : State} (hn : s.inLen.toNat ≤ capacity s.config.level) :
    ∃ t, packBody s = .ok t ∧ isVersion t.symbol.version.toNat = true := by
  obtain ⟨v, hchosen⟩ := exists_chooseVersion_of_le_capacity hn
  obtain ⟨h1, h40, -, -⟩ := chooseVersion_some hchosen
  refine ⟨_, packBody_ok (hn.trans (capacity_le_maxPayload _)) hchosen, ?_⟩
  rw [isVersion_iff, toNat_ofNat_version h40]
  exact ⟨h1, h40⟩

/-- ECC completes at any version, and leaves the count that PLACE checks (42_rs_ecc.md R186). -/
theorem exists_eccBody_ok {s : State} (hversion : isVersion s.symbol.version.toNat = true) :
    ∃ t, eccBody s = .ok t ∧ isVersion t.symbol.version.toNat = true ∧
      t.cwCount.toNat = totalCw t.symbol.version.toNat :=
  ⟨_, eccBody_ok hversion, hversion, toNat_ofNat_totalCw ((isVersion_iff _).1 hversion).2⟩

theorem errorOf_packBody (s : State) :
    errorOf (packBody s) =
      if capacity s.config.level < s.inLen.toNat then some { code := errPayloadTooLarge, stage := 1#3 } else none := by
  split
  case isTrue hn => rw [packBody_above_capacity hn]; rfl
  case isFalse hn =>
    obtain ⟨t, hpack, -⟩ := exists_packBody_ok (Nat.not_lt.1 hn)
    rw [hpack]; rfl

theorem errorOf_eccBody (s : State) :
    errorOf (eccBody s) =
      if 1 ≤ s.symbol.version.toNat ∧ s.symbol.version.toNat ≤ 40 then none
      else some { code := errBadParam, stage := 2#3 } := by
  split
  case isTrue hversion => rw [eccBody_ok ((isVersion_iff _).2 hversion)]; rfl
  case isFalse hversion => rw [eccBody_error (isVersion_eq_false_iff.2 hversion)]; rfl

theorem errorOf_placeBody (s : State) :
    errorOf (placeBody s) =
      if 1 ≤ s.symbol.version.toNat ∧ s.symbol.version.toNat ≤ 40 then
        if s.cwCount.toNat = totalCw s.symbol.version.toNat then none
        else some { code := errAssemblyOverflow, stage := 3#3 }
      else some { code := errBadParam, stage := 3#3 } := by
  split
  case isTrue hversion =>
    have hversion := (isVersion_iff _).2 hversion
    split
    case isTrue hcount => rw [placeBody_ok hversion hcount]; rfl
    case isFalse hcount => rw [placeBody_overflow hversion hcount]; rfl
  case isFalse hversion => rw [placeBody_badParam (isVersion_eq_false_iff.2 hversion)]; rfl

theorem errorOf_maskBody (s : State) :
    errorOf (maskBody s) =
      if s.status.vPlace = true then none else some { code := errStageOrder, stage := 4#3 } := by
  split
  case isTrue hplace => rw [maskBody_ok hplace]; rfl
  case isFalse hplace => rw [maskBody_error (Bool.eq_false_iff.2 hplace)]; rfl

/-- ENCODE errs when its first body does: PACK, ECC and PLACE leave what the next body checks
(45_encode_render.md R281). -/
theorem errorOf_encodeBody (s : State) : errorOf (encodeBody s) = errorOf (packBody s) := by
  by_cases hn : s.inLen.toNat ≤ capacity s.config.level
  · obtain ⟨t, hpack, hversion⟩ := exists_packBody_ok hn
    obtain ⟨t', hecc, hversion', hcount⟩ := exists_eccBody_ok hversion
    simp only [encodeBody, hpack, hecc, placeBody_ok hversion' hcount]
    exact (errorOf_maskBody _).trans (if_pos rfl)
  · simp only [encodeBody, packBody_above_capacity (Nat.not_le.1 hn)]

theorem errorOf_vectorBody (s : State) :
    errorOf (vectorBody s) =
      if s.status.vMask = true then none else some { code := errStageOrder, stage := 5#3 } := by
  split
  case isTrue hmask => rw [vectorBody_ok hmask]; rfl
  case isFalse hmask => rw [vectorBody_error (Bool.eq_false_iff.2 hmask)]; rfl

theorem errorOf_rsBody (s : State) :
    errorOf (rsBody s) =
      if 1 ≤ s.rsParam.k.toNat ∧ s.rsParam.k.toNat ≤ 254 ∧ 1 ≤ s.rsParam.e.toNat ∧
          s.rsParam.k.toNat + s.rsParam.e.toNat ≤ 255 then none
      else some { code := errBadParam, stage := 6#3 } := by
  split
  case isTrue hparam => rw [rsBody_ok ((rsParamOk_iff _ _).2 hparam)]; rfl
  case isFalse hparam => rw [rsBody_error (Bool.eq_false_iff.2 (mt (rsParamOk_iff _ _).1 hparam))]; rfl

/-- Settles O13: the ENGINE's turn shows the error of the pending command's body, which is a function of the inputs that
the body checks. -/
theorem engineErrsExactlyWhen : Obligations.EngineErrsExactlyWhen := by
  intro s u ts hturn hbusy herror hstep errs completes p v
  have hshows {op : BitVec 4} (hop : p = op.toNat) : u.Shows (errorOf (commandBody op { s with turns := ts })) :=
    BitVec.eq_of_toNat_eq hop ▸ shows_errorOf_commandBody hturn hbusy herror hstep
  have hpack (h : u.Shows (errorOf (packBody { s with turns := ts }))) :
      if capacity s.config.level < s.inLen.toNat then errs 1#4 1#3 else completes :=
    (shows_ite ..).1 (errorOf_packBody _ ▸ h)
  refine ⟨?packOrEncode, fun hop => ?ecc, fun hop => ?place, fun hop => ?mask, fun hop => ?vector, fun hop => ?rs⟩
  case packOrEncode =>
    rintro (hop | hop)
    · exact hpack (hshows (op := 1#4) hop)
    · exact hpack (errorOf_encodeBody _ ▸ hshows (op := 5#4) hop)
  case ecc => exact (shows_ite ..).1 (errorOf_eccBody _ ▸ hshows (op := 2#4) hop)
  case place =>
    have h : u.Shows (errorOf (placeBody { s with turns := ts })) := hshows (op := 3#4) hop
    rw [errorOf_placeBody, shows_ite, shows_ite] at h
    exact h
  case mask => exact (shows_ite ..).1 (errorOf_maskBody _ ▸ hshows (op := 4#4) hop)
  case vector => exact (shows_ite ..).1 (errorOf_vectorBody _ ▸ hshows (op := 6#4) hop)
  case rs => exact (shows_ite ..).1 (errorOf_rsBody _ ▸ hshows (op := 7#4) hop)

end Sys2Proof.Machine
end

section
/-! SUPPORT. The pending interrupt bits: what each operation of a step leaves of them (10_state.md R28,
60_exceptions.md R319). -/

namespace Sys2Proof.Machine

/-! ## The operations that clear no pending bit -/

/-- Every bit pending in `p` is pending in `q`. -/
structure IrqPending.KeptBy (p q : IrqPending) : Prop where
  doneP : p.doneP = true → q.doneP = true
  errP : p.errP = true → q.errP = true

theorem IrqPending.KeptBy.refl (p : IrqPending) : p.KeptBy p := ⟨id, id⟩

@[simp] theorem clear_doneP (p : IrqPending) (w : Word) : (p.clear w).doneP = (p.doneP && !w.getLsbD 0) := rfl
@[simp] theorem clear_errP (p : IrqPending) (w : Word) : (p.clear w).errP = (p.errP && !w.getLsbD 1) := rfl

/-- The end of a command sets a pending bit and clears none (40_host_bus.md R137, 60_exceptions.md R314). -/
theorem engineTurn_keeps_pending (s : State) : s.irqPend.KeptBy s.engineTurn.irqPend := by
  cases hbusy : s.status.busy
  · rw [engineTurn_idle hbusy]
    exact .refl _
  · rw [engineTurn_busy hbusy]
    rcases engineComplete_cases s with ⟨t, hbody, hend⟩ | ⟨e, -, hend⟩ <;> rw [hend]
    · rw [complete_irqPend, (commandBody_frame hbody).irqPend]
      exact ⟨fun _ => rfl, id⟩
    · exact ⟨id, fun _ => rfl⟩

theorem accept_keeps_pending (s : State) (op : BitVec 4) : s.irqPend.KeptBy (s.accept op).irqPend := by
  by_cases hstage : op.toNat < 8
  · rw [accept_stage s hstage]
    exact .refl _
  · rw [accept_reserved s (Nat.not_lt.1 hstage)]
    exact ⟨id, fun _ => rfl⟩

/-- Issuing a command clears no pending bit, and neither does ABORT (40_host_bus.md R135). -/
theorem issueCommand_keeps_pending (s : State) (op : BitVec 4) : s.irqPend.KeptBy (s.issueCommand op).irqPend := by
  rcases issueCommand_cases s op with ⟨-, h⟩ | ⟨-, h⟩ | ⟨-, -, -, h⟩ | ⟨-, -, -, h⟩ <;> rw [h]
  · exact .refl _
  · rw [abort_irqPend]
    exact .refl _
  · exact .refl _
  · exact accept_keeps_pending s op

/-! ## The write to IRQ_PEND -/

/-- Of all stores only the one to IRQ_PEND changes IRQ_PEND. -/
theorem store_irqPend (s : State) (a n : Nat) (w : Word) :
    (s.store a n w).irqPend = s.irqPend ∨ (a = 0x010 ∧ (s.store a n w).irqPend = s.irqPend.clear w) := by
  unfold State.store
  split
  case h_1 o ho =>
    obtain ⟨rfl, -⟩ := placeOf_eq_reg ho
    exact writeReg_irqPend s o w
  all_goals exact .inl (by simp)

/-- A register takes 32-bit writes only (20_memory.md R74). -/
theorem register_write_is_w32 {i : Instr} {n : Nat} {addr w : Word} (hreg : addr.toNat < 0x1000)
    (hmem : (i, n) ∈ [(Instr.w8 addr w, 1), (.w16 addr w, 2), (.w32 addr w, 4)])
    (hlegal : busError addr.toNat n true = false) : i = .w32 addr w := by
  rcases legal_write hlegal (size_of_write hmem) with ⟨-, rfl, -⟩ | ⟨b, k, -, haddr, -⟩
  · simpa using hmem
  · cases b <;> simp only [BufId.base] at haddr <;> omega

/-- A HOST step clears no pending bit, or it is the 32-bit write to IRQ_PEND. -/
theorem exec_irqPend {i : Instr} {s t : State} (h : exec i s = .next t) :
    s.irqPend.KeptBy t.irqPend ∨ ∃ w, i = .w32 0x00000010#32 w ∧ t.irqPend = s.irqPend.clear w := by
  rcases exec_cases h with ⟨op, -, rfl⟩ | ⟨addr, n, -, rfl⟩ | ⟨addr, n, w, hmem, rfl⟩
  · exact .inl (issueCommand_keeps_pending s op)
  · rw [busRead_frame]
    exact .inl (.refl _)
  · rcases busWrite_cases s addr.toNat n w with ⟨-, hw⟩ | ⟨-, -, hw⟩ | ⟨-, -, -, -, -, hw⟩ | ⟨hlegal, -, -, hw⟩ <;>
      rw [hw]
    · exact .inl (.refl _)
    · exact .inl (issueCommand_keeps_pending s _)
    · exact .inl (.refl _)
    · rw [respond_irqPend]
      rcases store_irqPend s addr.toNat n w with hsame | ⟨haddr, hclear⟩
      · rw [hsame]
        exact .inl (.refl _)
      · obtain rfl : addr = 0x00000010#32 := BitVec.eq_of_toNat_eq haddr
        exact .inr ⟨w, register_write_is_w32 (by decide) hmem hlegal, hclear⟩

/-! ## The step -/

/-- Everything a step can do to the pending bits. -/
theorem step_irqPend {s t : State} (h : step s = .next t) :
    s.irqPend.KeptBy t.irqPend ∨ (∃ ts, s.turns = .reset :: ts) ∨
    ∃ bytes ts w, s.turns = .host bytes :: ts ∧ decode bytes = some (.w32 0x00000010#32 w) ∧
      t.irqPend = s.irqPend.clear w := by
  rcases step_cases h with ⟨-, rfl⟩ | ⟨ts, -, rfl⟩ | ⟨ts, hturns, -⟩ | ⟨bytes, ts, i, hturns, hdecode, hexec⟩
  · exact .inl (engineTurn_keeps_pending s)
  · exact .inl (engineTurn_keeps_pending { s with turns := ts })
  · exact .inr (.inl ⟨ts, hturns⟩)
  · rcases exec_irqPend hexec with hkept | ⟨w, rfl, hclear⟩
    · exact .inl hkept
    · exact .inr (.inr ⟨bytes, ts, w, hturns, hdecode, hclear⟩)

/-- Settles O52: of all operations only the write to IRQ_PEND and reset clear a pending bit, and the write clears those
its data names. -/
theorem pendingBitsAreClearedOnlyByTheHost : Obligations.PendingBitsAreClearedOnlyByTheHost := by
  intro s t hstep
  rcases step_irqPend hstep with ⟨hdone, herr⟩ | hreset | ⟨bytes, ts, w, hturns, hdecode, hclear⟩
  · exact ⟨fun hs ht => Bool.noConfusion (ht.symm.trans (hdone hs)),
      fun hs ht => Bool.noConfusion (ht.symm.trans (herr hs))⟩
  · exact ⟨fun _ _ => .inl hreset, fun _ _ => .inl hreset⟩
  · rw [hclear]
    exact ⟨fun hs ht => .inr ⟨bytes, ts, w, hturns, hdecode, by simpa [hs] using ht⟩,
      fun hs ht => .inr ⟨bytes, ts, w, hturns, hdecode, by simpa [hs] using ht⟩⟩

end Sys2Proof.Machine
end

section
/-! SUPPORT. The reset (70_reset_and_hazards.md R340, R341): the state it leaves meets every invariant, its registers
are those of power-on, and each of its buffers is left to one draw. -/

namespace Sys2Proof.Machine

/-! ## The invariants after reset -/

theorem buf_reset (b : BufId) : State.reset.buf b = Buffer.unspecified 0 := by
  cases b <;> rfl

theorem memoryInv_reset : MemoryInv State.reset where
  canonical := reset_memory_wf
  inside b := by
    rw [buf_reset]
    exact fun _ hc => absurd hc List.not_mem_nil
  drawn b := by
    rw [buf_reset]
    exact Nat.zero_lt_one

/-- Settles O54: no byte is listed, the outcome record and the WARL fields are legal, and no stage-valid flag vouches
for anything. -/
theorem resetMeetsTheInvariants : Obligations.ResetMeetsTheInvariants :=
  ⟨memoryInv_reset, outcomeInv_reset, legalFieldsInv_reset, stageInv_of_noFlag rfl rfl rfl, symbolInv_of_noFlag rfl,
    functionMapInv_of_noFlag rfl⟩

/-! ## The reset step -/

/-- Every register after a reset step is as after power-on. -/
theorem regWord_resetTurn (s : State) (o : Nat) : s.resetTurn.regWord o = State.reset.regWord o := rfl

theorem bufByte_resetTurn (s : State) (b : BufId) (k : Nat) :
    s.resetTurn.bufByte b k = Config.unspecifiedByte s.nextDraw (b.base + k) := by
  have hbuf : s.resetTurn.buf b = Buffer.unspecified s.nextDraw := by cases b <;> rfl
  rw [State.bufByte, hbuf]
  rfl

/-- Whatever has a word to show is a register (10_state.md R23). -/
theorem isRegister_of_regWord {s : State} {o : Nat} {w : Word} (h : s.regWord o = some w) : isRegister o = true := by
  unfold State.regWord at h
  split at h
  case h_34 => cases h
  all_goals rfl

/-- In an idle state with the registers of power-on, R32 shows each row of a table of their words. -/
theorem exec_r32_reset_row {u : State} {rows : List (Word × Word)} {o w : Word} (hidle : u.status.busy = false)
    (hregs : ∀ a, u.regWord a = State.reset.regWord a)
    (hwords : rows.map (fun row => State.reset.regWord row.1.toNat) = rows.map fun row => some row.2)
    (hmem : (o, w) ∈ rows) : exec (.r32 o) u = .next (u.respond w) := by
  have hw : State.reset.regWord o.toNat = some w := List.map_inj_left.1 hwords (o, w) hmem
  exact exec_r32_register (isRegister_of_regWord hw) (volatilePlace_idle hidle _) ((hregs _).trans hw)

/-- Settles O53: the reset step leaves the registers of power-on, whose words are the table's, and draws every
buffer. -/
theorem resetGivesEveryRegisterItsValue : Obligations.ResetGivesEveryRegisterItsValue := by
  intro s ts hturn
  refine ⟨_, step_reset hturn, rfl, bufByte_resetTurn { s with turns := ts }, fun u hu => ?_⟩
  obtain ⟨hidle, hop, htag, hirq, hregs⟩ : u.status.busy = false ∧ u.pendingOp = 0#4 ∧ u.pendingTag = 0#32 ∧
      u.irq = false ∧ ∀ a, u.regWord a = State.reset.regWord a := by
    rcases List.mem_pair.1 hu with rfl | rfl
    · exact ⟨rfl, rfl, rfl, rfl, regWord_resetTurn { s with turns := ts }⟩
    · exact ⟨rfl, rfl, rfl, rfl, fun _ => rfl⟩
  exact ⟨hidle, hop, htag, hirq, fun o w hrow => exec_r32_reset_row hidle hregs (by rfl) hrow⟩

end Sys2Proof.Machine
end

section
/-! SUPPORT. Writes and reads while BUSY (70_reset_and_hazards.md R350, R351): what a write does then, which steps clear
WR_IGNORED, which locations are volatile for which commands, and the number that each register shows. -/

namespace Sys2Proof.Machine

/-! ## Writes while BUSY (70_reset_and_hazards.md R351) -/

/-- A legal write to any offset but CMD, IRQ_EN and IRQ_PEND is dropped while BUSY. -/
theorem busWrite_dropped {s : State} {a n : Nat} (w : Word) (hbusy : s.status.busy = true)
    (hlegal : busError a n true = false) (ha : a ∉ [0x004, 0x00C, 0x010]) :
    s.busWrite a n w = s.dropWrite.respond 0#32 := by
  simp only [List.mem_cons, List.not_mem_nil, or_false, not_or] at ha
  obtain ⟨hcmd, hen, hpend⟩ := ha
  rcases busWrite_cases s a n w with ⟨herr, -⟩ | ⟨-, h, -⟩ | ⟨-, -, -, -, -, hdrop⟩ | ⟨-, -, hirq, -⟩
  · rw [hlegal] at herr; cases herr
  · exact absurd h hcmd
  · exact hdrop
  · exact absurd (hirq hbusy) (not_or.2 ⟨hen, hpend⟩)

/-! ## Who clears WR_IGNORED -/

theorem engineTurn_wrIgnored (s : State) : s.engineTurn.status.wrIgnored = s.status.wrIgnored := by
  cases hbusy : s.status.busy
  · rw [engineTurn_idle hbusy]
  · rw [engineTurn_busy hbusy]
    rcases engineComplete_cases s with ⟨t, hbody, hend⟩ | ⟨e, -, hend⟩ <;> rw [hend]
    · rw [complete_status, (commandBody_frame hbody).status]
    · exact errorRow_wrIgnored e.stage s.status

theorem abort_wrIgnored (s : State) : s.abort.status.wrIgnored = s.status.wrIgnored := by
  cases hbusy : s.status.busy
  · rw [abort_idle hbusy]
  · rw [abort_busy hbusy]
    exact errorRow_wrIgnored _ s.status

theorem store_wrIgnored (s : State) (a n : Nat) (w : Word) :
    (s.store a n w).status.wrIgnored = s.status.wrIgnored := by
  rcases store_status s a n w with h | ⟨-, h⟩ <;> rw [h]
  rfl

theorem accept_lastOp (s : State) (op : BitVec 4) : (s.accept op).lastOp = op := by
  unfold State.accept
  split <;> rfl

theorem accept_pendingTag (s : State) (op : BitVec 4) : (s.accept op).pendingTag = s.jobTag := by
  unfold State.accept
  split <;> rfl

/-- Of all HOST steps only an acceptance clears WR_IGNORED (40_host_bus.md R133). -/
theorem exec_wrIgnored {i : Instr} {s t : State} (h : exec i s = .next t) (hset : s.status.wrIgnored = true)
    (hclear : t.status.wrIgnored = false) :
    s.status.busy = false ∧ 1 ≤ t.lastOp.toNat ∧ t.lastOp.toNat ≤ 14 ∧ t.pendingTag = s.jobTag := by
  rcases host_cases h with ⟨r, d, rfl, -⟩ | ⟨r, -, rfl⟩ | ⟨r, -, rfl⟩ | ⟨r, op, hidle, h1, h14, rfl⟩
    | ⟨r, a, n, w, -, -, -, -, rfl⟩
  · exact Bool.noConfusion (hclear.symm.trans hset)
  · exact Bool.noConfusion hclear
  · exact Bool.noConfusion (hclear.symm.trans ((abort_wrIgnored s).trans hset))
  · rw [accept_lastOp]
    exact ⟨hidle, h1, h14, accept_pendingTag s op⟩
  · exact Bool.noConfusion (hclear.symm.trans ((store_wrIgnored s a n w).trans hset))

/-- Settles O47: while BUSY a write is dropped, issues its command, or is the write of an interrupt register; and the
ENGINE's turn and every HOST step but an acceptance keep WR_IGNORED. -/
theorem writeWhileBusyIsDropped : Obligations.WriteWhileBusyIsDropped := by
  refine ⟨fun s addr w i n hbusy hi hlegal => ⟨fun haddr => ?dropped, fun haddr => ?command, fun haddr => ?enable,
    fun haddr => ?pending⟩, fun s t hstep hset hclear => ?cleared⟩
  case dropped =>
    rw [exec_write s hi, busWrite_dropped w hbusy hlegal haddr]
    rfl
  case command =>
    rw [cmd_write_is_w32 haddr hi hlegal, exec_w32_cmd]
    exact (exec_commandOf _ s).symm
  case enable =>
    obtain rfl : addr = 0x00C#32 := BitVec.eq_of_toNat_eq haddr
    rw [register_write_is_w32 (by decide) hi hlegal]
    exact ⟨_, exec_w32_register w (by decide) (by decide) (fun _ => .inl rfl), rfl, rfl⟩
  case pending =>
    obtain rfl : addr = 0x010#32 := BitVec.eq_of_toNat_eq haddr
    rw [register_write_is_w32 (by decide) hi hlegal]
    exact ⟨_, exec_w32_register w (by decide) (by decide) (fun _ => .inr rfl), rfl, rfl⟩
  case cleared =>
    rcases step_cases hstep with ⟨-, rfl⟩ | ⟨ts, -, rfl⟩ | ⟨ts, hturn, -⟩ | ⟨bytes, ts, i, hturn, -, hexec⟩
    · exact Bool.noConfusion (hclear.symm.trans ((engineTurn_wrIgnored s).trans hset))
    · exact Bool.noConfusion (hclear.symm.trans ((engineTurn_wrIgnored { s with turns := ts }).trans hset))
    · exact .inl ⟨ts, hturn⟩
    · obtain ⟨hidle, hop⟩ := exec_wrIgnored (s := { s with turns := ts }) hexec hset hclear
      exact .inr ⟨hidle, ⟨bytes, ts, hturn⟩, hop⟩

/-! ## Volatile places (40_host_bus.md R136) -/

theorem volatilePlace_iff {s : State} {p : Place} {ops : List Nat}
    (hops : ∀ op, volatileFor op p = decide (op.toNat ∈ ops)) :
    s.volatilePlace p = true ↔ s.status.busy = true ∧ s.pendingOp.toNat ∈ ops := by
  rw [State.volatilePlace, hops, Bool.and_eq_true, decide_eq_true_eq]

/-- A stored byte of a buffer is volatile for the commands that write the buffer. -/
theorem volatileFor_window (op : BitVec 4) {b : BufId} {k : Nat} (hk : k < b.storedSize) :
    volatileFor op (.window b k) = decide (op.toNat ∈ (Loc.buf b).writers) := by
  have htouches (l : Loc) : l.touches (.window b k) = true ↔ l = .buf b := by
    cases l with
    | buf c => simpa [Loc.touches] using fun h : c = b => h ▸ hk
    | _ => simp [Loc.touches]
  rw [Bool.eq_iff_iff, decide_eq_true_eq, ← mem_writeSet_iff, volatileFor, List.any_eq_true]
  exact ⟨fun ⟨l, hl, htouch⟩ => (htouches l).1 htouch ▸ hl, fun hl => ⟨_, hl, (htouches _).2 rfl⟩⟩

/-! ## Exact and free reads (70_reset_and_hazards.md R350) -/

/-- The read `i` of `n` bytes shows the number `w`, but a fresh free value while a command of `ops` is pending. -/
def State.ReadsAs (s : State) (i : Instr) (n w : Nat) (ops : List Nat) : Prop :=
  (s.status.busy = true ∧ s.pendingOp.toNat ∈ ops →
    exec i s = .next
      { s with
        resp := { err := false, data := lowBytes n (Config.unspecifiedReadData s.nextDraw) }
        nextDraw := s.nextDraw + 1 }) ∧
  (¬ (s.status.busy = true ∧ s.pendingOp.toNat ∈ ops) →
    exec i s = .next { s with resp := { err := false, data := BitVec.ofNat 32 w } })

/-- A legal read shows the data at its place, free while a command is pending for which the place is volatile. -/
theorem readsAs_of_legal {s : State} {i : Instr} {addr : Word} {n w : Nat} {ops : List Nat}
    (hi : (i, n) ∈ [(Instr.r8 addr, 1), (.r16 addr, 2), (.r32 addr, 4)]) (hlegal : busError addr.toNat n false = false)
    (hvolatile : s.volatilePlace (placeOf addr.toNat) = true ↔ s.status.busy = true ∧ s.pendingOp.toNat ∈ ops)
    (hdata : s.readData addr.toNat n = BitVec.ofNat 32 w) : s.ReadsAs i n w ops := by
  rw [State.ReadsAs, exec_read s hi, ← hvolatile]
  rcases busRead_cases s addr.toNat n with ⟨herr, -⟩ | ⟨-, hfree, hread⟩ | ⟨-, hexact, hread⟩
  · rw [hlegal] at herr; cases herr
  · exact ⟨fun _ => congrArg _ hread, fun h => absurd hfree h⟩
  · refine ⟨fun h => ?_, fun _ => ?_⟩
    · rw [hexact] at h; cases h
    · rw [hread, hdata]
      rfl

/-- R32 shows a register's word, in the form of the number `w`. -/
theorem readsAs_register {s : State} {o v : Word} {w : Nat} {ops : List Nat}
    (hops : ∀ op, volatileFor op (.reg o.toNat) = decide (op.toNat ∈ ops)) (hv : s.regWord o.toNat = some v)
    (hw : v = BitVec.ofNat 32 w) : s.ReadsAs (.r32 o) 4 w ops := by
  have hreg := isRegister_of_regWord hv
  obtain ⟨hal, hrange⟩ := (isRegister_iff _).1 hreg
  have hplace : placeOf o.toNat = .reg o.toNat := placeOf_reg (by omega)
  refine readsAs_of_legal (addr := o) (by simp) ?legal (hplace ▸ volatilePlace_iff hops) ?data
  case legal =>
    rw [busError_register (by omega) hal]
    simp [hreg]
  case data => simp only [State.readData, hplace, hv, Option.getD_some, hw]

theorem readsAs_window {s : State} {b : BufId} {k : Nat} {ops : List Nat} (hk : k < b.windowSize)
    (hvolatile : s.volatilePlace (.window b k) = true ↔ s.status.busy = true ∧ s.pendingOp.toNat ∈ ops) :
    s.ReadsAs (.r8 (BitVec.ofNat 32 (b.base + k))) 1 (s.windowByte b k).toNat ops := by
  have haddr := window_addr_toNat b hk
  refine readsAs_of_legal (addr := BitVec.ofNat 32 (b.base + k)) (by simp) ?legal ?volatile ?data <;> rw [haddr]
  case legal => exact busError_window b (.inl rfl) hk (Nat.mod_one k) nofun
  case volatile => rwa [placeOf_window b hk]
  case data =>
    simp only [State.readData, placeOf_window b hk, busData_eq_ofDigits, List.map_map, ofDigits_range_one,
      Function.comp_apply, Nat.add_zero]

theorem readsAs_raster {s : State} {addr : Word} (hlow : rasterBase ≤ addr.toNat) (hhigh : addr.toNat < rasterEnd)
    (hal : addr.toNat % 4 = 0) :
    s.ReadsAs (.r32 addr) 4 (s.pixel ((addr.toNat - rasterBase) / 4)).toNat [3, 4, 5] := by
  have hplace := placeOf_raster hlow hhigh
  have hlane : (addr.toNat - rasterBase) % 4 = 0 := by
    simp only [rasterBase] at hlow ⊢
    omega
  have hlegal := busError_raster hlow hhigh hal
  refine readsAs_of_legal (addr := addr) (by simp) hlegal (hplace ▸ volatilePlace_raster s _) ?_
  simp only [State.readData, hplace, hlane, Nat.zero_add, BitVec.ofNat_toNat, BitVec.setWidth_eq]
  exact lowBytes_four _

/-! ## The numbers the registers show (10_state.md R24-R46) -/

/-- A field above another is worth its power of two. -/
theorem or_shiftLeft_eq_ofNat {v w : Word} {k : Nat} (hv : v.toNat < 2 ^ k) :
    v ||| w <<< k = BitVec.ofNat 32 (v.toNat + 2 ^ k * w.toNat) := by
  have hlanes : v &&& w <<< k = 0#32 := by
    refine BitVec.eq_of_getLsbD_eq fun j hj => ?_
    by_cases hjk : j < k
    · simp [hjk]
    · have hbit : v.getLsbD j = false :=
        Nat.testBit_lt_two_pow (hv.trans_le (Nat.pow_le_pow_right (by decide) (Nat.le_of_not_lt hjk)))
      simp [hbit]
  rw [← BitVec.add_eq_or_of_and_eq_zero _ _ hlanes]
  refine BitVec.eq_of_toNat_eq ?_
  rw [BitVec.toNat_add, BitVec.toNat_shiftLeft, BitVec.toNat_ofNat, Nat.add_mod_mod, Nat.shiftLeft_eq, Nat.mul_comm]

theorem or_field_eq_ofNat {m n k : Nat} (x : BitVec m) (y : BitVec n) (hm : m ≤ k) (hk : k ≤ 32) (hn : n ≤ 32) :
    x.setWidth 32 ||| y.setWidth 32 <<< k = BitVec.ofNat 32 (x.toNat + 2 ^ k * y.toNat) := by
  have hx : (x.setWidth 32).toNat = x.toNat := BitVec.toNat_setWidth_of_le (by omega)
  have hy : (y.setWidth 32).toNat = y.toNat := BitVec.toNat_setWidth_of_le hn
  rw [or_shiftLeft_eq_ofNat (hx ▸ x.isLt.trans_le (Nat.pow_le_pow_right (by decide) hm)), hx, hy]

theorem configWord_eq (c : ConfigReg) : c.word = BitVec.ofNat 32 (c.level.toNat + 16 * c.qz.toNat) :=
  or_field_eq_ofNat c.level c.qz (by decide) (by decide) (by decide)

theorem rsParamWord_eq (p : RsParam) : p.word = BitVec.ofNat 32 (p.k.toNat + 256 * p.e.toNat) :=
  or_field_eq_ofNat p.k p.e (by decide) (by decide) (by decide)

theorem symbolWord_eq (y : SymbolReg) :
    y.word = BitVec.ofNat 32 (y.version.toNat + 256 * y.level.toNat + 4096 * y.mask.toNat) := by
  have hlow := or_field_eq_ofNat y.version y.level (k := 8) (by decide) (by decide) (by decide)
  have hversion := y.version.isLt
  have hlevel := y.level.isLt
  have hmask : (y.mask.setWidth 32).toNat = y.mask.toNat := BitVec.toNat_setWidth_of_le (by decide)
  have hnat : (BitVec.ofNat 32 (y.version.toNat + 2 ^ 8 * y.level.toNat)).toNat =
      y.version.toNat + 2 ^ 8 * y.level.toNat := by
    rw [BitVec.toNat_ofNat]
    omega
  rw [SymbolReg.word, hlow, or_shiftLeft_eq_ofNat (by omega), hnat, hmask]
  rfl

theorem irqEnWord_eq (e : IrqEnable) : e.word = BitVec.ofNat 32 (e.doneIE.toNat + 2 * e.errIE.toNat) := by
  obtain ⟨done, err⟩ := e
  cases done <;> cases err <;> rfl

theorem irqPendWord_eq (p : IrqPending) : p.word = BitVec.ofNat 32 (p.doneP.toNat + 2 * p.errP.toNat) := by
  obtain ⟨done, err⟩ := p
  cases done <;> cases err <;> rfl

/-- A register of one field. -/
theorem readsAs_field {s : State} {o : Word} {m : Nat} {x : BitVec m} {ops : List Nat}
    (hops : ∀ op, volatileFor op (.reg o.toNat) = decide (op.toNat ∈ ops))
    (hx : s.regWord o.toNat = some (x.setWidth 32)) : s.ReadsAs (.r32 o) 4 x.toNat ops :=
  readsAs_register hops hx (BitVec.ofNat_toNat 32 x).symm

/-- A register that is one whole word. -/
theorem readsAs_word {s : State} {o v : Word} {ops : List Nat}
    (hops : ∀ op, volatileFor op (.reg o.toNat) = decide (op.toNat ∈ ops)) (hv : s.regWord o.toNat = some v) :
    s.ReadsAs (.r32 o) 4 v.toNat ops :=
  readsAs_field hops (by rwa [BitVec.setWidth_eq])

/-- The penalty registers stand in a row, and MASK and ENCODE write them (10_state.md R45). -/
theorem readsAs_penalty (s : State) {m : Nat} (hm : m < 8) :
    s.ReadsAs (.r32 (BitVec.ofNat 32 (0x060 + 4 * m))) 4 (s.penalty.get m).toNat [4, 5] := by
  have hops : ∀ m < 8, ∀ op, volatileFor op (.reg (BitVec.ofNat 32 (0x060 + 4 * m)).toNat) =
      decide (op.toNat ∈ [4, 5]) := by decide
  have hword : s.regWord (BitVec.ofNat 32 (0x060 + 4 * m)).toNat = some (s.penalty.get m) := by
    interval_cases m <;> rfl
  exact readsAs_word (hops m hm) hword

/-- A table of registers, each with its number and the commands for which it is volatile. -/
theorem readsAs_rows {s : State} {rows : List (Word × Nat × List Nat)}
    (h : ∀ row ∈ rows, s.ReadsAs (.r32 row.1) 4 row.2.1 row.2.2) (o : Word) (w : Nat) (ops : List Nat)
    (hrow : (o, w, ops) ∈ rows) : s.ReadsAs (.r32 o) 4 w ops :=
  h _ hrow

/-- Settles O48: a read is exact outside the places that are volatile for the pending command, and each register shows
the number of its fields. -/
theorem readsAreExactOutsideTheWriteSet : Obligations.ReadsAreExactOutsideTheWriteSet := by
  intro s free exact pending read
  refine ⟨readsAs_rows ?registers, fun b ops k hrow => ⟨fun hk => ?stored, fun hpast hk => ?past⟩,
    fun addr => readsAs_raster⟩
  case registers =>
    simp only [List.forall_mem_append, List.forall_mem_map, List.forall_mem_cons, List.mem_range, List.not_mem_nil,
      false_imp_iff, implies_true, and_true]
    exact ⟨⟨⟨
      -- ID, CMD, STATUS, IRQ_EN, IRQ_PEND, CONFIG, IN_LEN, JOB_TAG, RESULT_TAG
      ⟨readsAs_register (by decide) rfl rfl, readsAs_field (by decide) rfl, readsAs_word (by decide) rfl,
        readsAs_register (by decide) rfl (irqEnWord_eq _), readsAs_register (by decide) rfl (irqPendWord_eq _),
        readsAs_register (by decide) rfl (configWord_eq _), readsAs_field (by decide) rfl,
        readsAs_word (by decide) rfl, readsAs_word (by decide) rfl⟩,
      -- SYMBOL, DATA_COUNT, CW_COUNT, MSIDE, FORMAT_BITS, VERSION_BITS, RS_PARAM
      readsAs_register (by decide) rfl (symbolWord_eq _), readsAs_field (by decide) rfl, readsAs_field (by decide) rfl,
        readsAs_field (by decide) rfl, readsAs_field (by decide) rfl, readsAs_field (by decide) rfl,
        readsAs_register (by decide) rfl (rsParamWord_eq _),
      -- VEC_COUNT, VEC_EXTENT, RASTER_SIZE, COLOR_DARK, COLOR_LIGHT
      readsAs_field (by decide) rfl, readsAs_field (by decide) rfl, readsAs_field (by decide) rfl,
        readsAs_field (by decide) rfl, readsAs_field (by decide) rfl⟩,
      fun _ => readsAs_penalty s⟩,
      -- PEN_N1, PEN_N2, PEN_N3, PEN_N4
      readsAs_word (by decide) rfl, readsAs_word (by decide) rfl, readsAs_word (by decide) rfl,
        readsAs_word (by decide) rfl⟩
  case stored =>
    obtain rfl : (Loc.buf b).writers = ops := writers_of_buffer (b, ops) hrow
    have hwindow : b.storedSize ≤ b.windowSize := by cases b <;> decide
    have hread := readsAs_window (s := s) (hk.trans_le hwindow) (volatilePlace_iff fun op => volatileFor_window op hk)
    rwa [windowByte_stored s hk] at hread
  case past =>
    have hread := readsAs_window (s := s) (ops := []) hk (by simp [past_storage_not_volatile s hpast])
    rwa [windowByte_past s hpast] at hread

end Sys2Proof.Machine
end
